-- ==== Sys2Proof/Word.lean ====
section
/-! DEFINITION. The words the block moves and computes on (00_scope.md R9, R12; 20_memory.md R85). -/

namespace Sys2Proof

/-- A byte of the host bus's address space (20_memory.md R87). -/
abbrev Byte := BitVec 8

/-- A 32-bit bus word: a register, a command, a raw sample (20_memory.md R85). -/
abbrev Word := BitVec 32

/-- An IEEE 754 binary32 value, held as its encoding `bits32` (00_scope.md R12, R17). `from32` is the identity. -/
abbrev F32 := BitVec 32

/-- An IEEE 754 binary64 value, held as its encoding `bits64` (00_scope.md R12, R17). -/
abbrev F64 := BitVec 64

end Sys2Proof
end

