-- ==== Sys2Proof/Syntax.lean ====
section
/-! DEFINITION. The six commands of 30_encoding.md R101, with the fields of R102 to R106 as unsigned naturals (R107). -/

namespace Sys2Proof

/-- One constructor per row of opcode_table.json. A field is a natural; `Instr.WellFormed` gives its range. -/
inductive Instr where
  /-- `nop` (OP 0x00). -/
  | nop
  /-- `configure CHN` (OP 0x01). -/
  | configure (chn : Nat)
  /-- `setp PID, RAMP` (OP 0x02). -/
  | setp (pid ramp : Nat)
  /-- `render NFR, BUS` (OP 0x03). -/
  | render (nfr bus : Nat)
  /-- `clrerr` (OP 0x04). -/
  | clrerr
  /-- `reset` (OP 0x05). -/
  | reset
deriving DecidableEq, Repr

end Sys2Proof
end

