-- ==== Sys2Proof/WellFormed.lean ====
section
/-! DEFINITION. Which commands have an encoding: the field ranges of 30_encoding.md R102, R103, R105 and R113. -/

namespace Sys2Proof

/-- CHN 0..255; PID 0..15, RAMP 0..2^20-1; NFR 0..65535, BUS 0..255 (30_encoding.md R113). -/
def Instr.check : Instr → Bool
  | .nop => true
  | .configure chn => decide (chn < 2 ^ 8)
  | .setp pid ramp => decide (pid < 2 ^ 4) && decide (ramp < 2 ^ 20)
  | .render nfr bus => decide (nfr < 2 ^ 16) && decide (bus < 2 ^ 8)
  | .clrerr => true
  | .reset => true

/-- A command that has an encoding. -/
abbrev Instr.WellFormed (i : Instr) : Prop := i.check = true

end Sys2Proof
end

