-- ==== Sys2Proof/Decode.lean ====
section
/-! DEFINITION. Reading a command word and writing one (30_encoding.md R100 to R112). -/

namespace Sys2Proof

/-- Every 32-bit word is one of the six commands or in the reserved class, by its opcode alone (30_encoding.md R112). -/
inductive Decoded where
  /-- A command of 30_encoding.md R101. -/
  | command (i : Instr)
  /-- A reserved opcode, 0x06 .. 0xFF (30_encoding.md R109). -/
  | reserved (op : Nat)
deriving DecidableEq, Repr

/-- `w[hi:lo]`, read as an unsigned natural (00_scope.md R9). -/
def field (w : Word) (hi lo : Nat) : Nat := w.toNat / 2 ^ lo % 2 ^ (hi + 1 - lo)

/-- OP = w[31:24] (30_encoding.md R101). -/
def opcodeOf (w : Word) : Nat := field w 31 24

/-- CMD_DISPATCH's case on the opcode, with the fields of 30_encoding.md R102 to R106; the ignored bits of R110 are not
examined. -/
def decode (w : Word) : Decoded :=
  match opcodeOf w with
  | 0 => .command .nop
  | 1 => .command (.configure (field w 7 0))
  | 2 => .command (.setp (field w 3 0) (field w 23 4))
  | 3 => .command (.render (field w 15 0) (field w 23 16))
  | 4 => .command .clrerr
  | 5 => .command .reset
  | op => .reserved op

/-- The opcode of each command (30_encoding.md R101). -/
def opcode : Instr → Nat
  | .nop => 0
  | .configure _ => 1
  | .setp _ _ => 2
  | .render _ _ => 3
  | .clrerr => 4
  | .reset => 5

/-- body[23:0] of each command, the ignored bits zero (30_encoding.md R100, R110, R113). -/
def body : Instr → Nat
  | .nop => 0
  | .configure chn => chn
  | .setp pid ramp => ramp * 2 ^ 4 + pid
  | .render nfr bus => bus * 2 ^ 16 + nfr
  | .clrerr => 0
  | .reset => 0

/-- The word of a well-formed command, as the assembler of 30_encoding.md R113 writes it. -/
def encode (i : Instr) : Word := BitVec.ofNat 32 (opcode i * 2 ^ 24 + body i)

/-- The bits of a word that the command's fields occupy: all but the ignored bits of 30_encoding.md R110. RENDER's BUS counts as a
field here, since the assembler writes it (R113), although no rule reads it (R105). -/
def meaningfulBits : Instr → Word
  | .nop => 0xFF000000#32
  | .configure _ => 0xFF0000FF#32
  | .setp _ _ => 0xFFFFFFFF#32
  | .render _ _ => 0xFFFFFFFF#32
  | .clrerr => 0xFF000000#32
  | .reset => 0xFF000000#32

/-- The command this decoder reads from an opcode-table word of `nbits` bits, the bits above them zero. A command is
always one 32-bit word (30_encoding.md R100). -/
def decodeTableWord (nbits w : Nat) : Option Instr :=
  match decode (BitVec.ofNat 32 (w % 2 ^ nbits)) with
  | .command i => some i
  | .reserved _ => none

end Sys2Proof
end

