-- ==== Sys2Proof/Config.lean ====
section
/-! DEFINITION. What an implementation fixes (00_scope.md R6), and the values the spec states no result for. -/

namespace Sys2Proof

/-- The three implementation parameters a model takes as arguments (00_scope.md R6, 10_state.md R56). -/
structure Params where
  /-- `MAX_CHANNELS`: the largest `channelCount` CONFIGURE accepts. -/
  maxChannels : Nat
  /-- `MAX_FRAMES`: the largest `frameCount` RENDER accepts. -/
  maxFrames : Nat
  /-- `MAX_CAPACITY`: the largest delay-line capacity, in words per channel. -/
  maxCapacity : Nat
deriving DecidableEq, Repr

/-- The default parameters of 00_scope.md R6, the ones every test vector of 95_test_vectors.md uses. -/
def Params.default : Params := { maxChannels := 8, maxFrames := 8192, maxCapacity := 65536 }

/-- The legal values and the two constraints of 00_scope.md R6: the windows fit their address ranges. -/
abbrev Params.Legal (p : Params) : Prop :=
  1 ≤ p.maxChannels ∧ p.maxChannels ≤ 255 ∧ 1 ≤ p.maxFrames ∧ p.maxFrames ≤ 65535 ∧
  1 ≤ p.maxCapacity ∧ p.maxCapacity ≤ 2 ^ 24 ∧
  p.maxChannels * p.maxFrames ≤ 2 ^ 18 ∧ p.maxChannels * p.maxCapacity ≤ 2 ^ 20

/-- FREE VALUE (log entry 4, DESIGN CHOICE). `floor64(x)` where x is not a finite F64 ≥ 0: 00_scope.md R17 states no result. -/
opaque Config.floor64Outside : F64 → F64

/-- FREE VALUE (log entry 4, DESIGN CHOICE). `floorNat(x)` where x is not a finite F32 ≥ 0: 00_scope.md R17 states no result. -/
opaque Config.floorNatOutside : F32 → Nat

/-- FREE VALUE (log entry 4, DESIGN CHOICE). `ceilNat(x)` where x is not a finite F32 ≥ 0: 00_scope.md R17 states no result. -/
opaque Config.ceilNatOutside : F32 → Nat

/-- FREE VALUE (log entry 5, DESIGN CHOICE). What CLAMP_P makes of a value that is not finite, for the parameter with the given
id: 42_smoother.md R170 states CLAMP_P for finite values. Its one use keeps the parameter's range, which R104 and R172 state. -/
opaque Config.clampOutside : Nat → F32 → F32

end Sys2Proof
end

