-- ==== Sys2Proof/Machine/Float.lean ====
section
/-! DEFINITION. The arithmetic of 00_scope.md R12 to R17: IEEE 754 binary32 and binary64, every operation computed exactly
and rounded once with roundTiesToEven. A finite value is a whole number of units, one unit being the format's least
positive value: 2^-149 in binary32, 2^-1074 in binary64. -/

namespace Sys2Proof.Machine

/-- A binary interchange format: its fraction and exponent widths, and its unit `2 ^ -unitExp`. -/
structure FloatFormat where
  fracBits : Nat
  expBits : Nat
  unitExp : Nat
deriving DecidableEq, Repr

/-- F32 (00_scope.md R12). -/
def binary32 : FloatFormat := { fracBits := 23, expBits := 8, unitExp := 149 }

/-- F64 (00_scope.md R12). -/
def binary64 : FloatFormat := { fracBits := 52, expBits := 11, unitExp := 1074 }

/-- The encoding of +infinity; a larger magnitude is a NaN. -/
def infMag (f : FloatFormat) : Nat := (2 ^ f.expBits - 1) * 2 ^ f.fracBits

/-- The magnitude of the canonical NaN (00_scope.md R14). -/
def nanMag (f : FloatFormat) : Nat := infMag f + 2 ^ (f.fracBits - 1)

/-- A finite magnitude (an encoding without its sign), in units. Exponent field 0 is zero and the subnormals. -/
def magUnits (f : FloatFormat) (mag : Nat) : Nat :=
  if mag < 2 ^ f.fracBits then mag
  else (2 ^ f.fracBits + mag % 2 ^ f.fracBits) * 2 ^ (mag / 2 ^ f.fracBits - 1)

/-- What an encoding stands for: a NaN, a signed infinity, or a signed number of units. -/
inductive Datum where
  | nan
  | inf (neg : Bool)
  | fin (neg : Bool) (units : Nat)
deriving DecidableEq, Repr

/-- Read an encoding given as its sign and magnitude. -/
def unpack (f : FloatFormat) (neg : Bool) (mag : Nat) : Datum :=
  if infMag f < mag then .nan
  else if mag = infMag f then .inf neg
  else .fin neg (magUnits f mag)

/-- The magnitude of an F32: its encoding without the sign bit. -/
def mag32 (x : F32) : Nat := x.toNat % 2 ^ 31

/-- The magnitude of an F64: its encoding without the sign bit. -/
def mag64 (x : F64) : Nat := x.toNat % 2 ^ 63

/-- The value of an F32 (`from32`, 00_scope.md R17). -/
def datum32 (x : F32) : Datum := unpack binary32 x.msb (mag32 x)

/-- The value of an F64. -/
def datum64 (x : F64) : Datum := unpack binary64 x.msb (mag64 x)

/-- The exact result of an operation, before rounding: `ratio` is ± num/den units. -/
inductive Exact where
  | nan
  | inf (neg : Bool)
  | ratio (neg : Bool) (num den : Nat)
deriving DecidableEq, Repr

/-- num/den to the nearest natural, ties to the even one (00_scope.md R13). -/
def roundHalfEven (num den : Nat) : Nat :=
  let q := num / den
  let r := num % den
  if 2 * r < den then q
  else if den < 2 * r then q + 1
  else q + q % 2

/-- How many low bits of a value of num/den units lie below the format's precision. -/
def dropBits (f : FloatFormat) (num den : Nat) : Nat := Nat.log2 (num / den) - f.fracBits

/-- The magnitude encoding of num/den units, rounded once to nearest even; overflow gives infinity (00_scope.md R15). -/
def roundMag (f : FloatFormat) (num den : Nat) : Nat :=
  let k := dropBits f num den
  min (infMag f) (k * 2 ^ f.fracBits + roundHalfEven num (den * 2 ^ k))

/-- Round an exact result to a sign and a magnitude; every NaN is the canonical one (00_scope.md R14). -/
def roundExact (f : FloatFormat) : Exact → Bool × Nat
  | .nan => (false, nanMag f)
  | .inf neg => (neg, infMag f)
  | .ratio neg num den => (neg, roundMag f num den)

/-- The F32 of a sign and a magnitude. -/
def pack32 (r : Bool × Nat) : F32 := BitVec.ofNat 32 (r.1.toNat * 2 ^ 31 + r.2)

/-- The F64 of a sign and a magnitude. -/
def pack64 (r : Bool × Nat) : F64 := BitVec.ofNat 64 (r.1.toNat * 2 ^ 63 + r.2)

/-- Round an exact result to F32. -/
def round32 (e : Exact) : F32 := pack32 (roundExact binary32 e)

/-- Round an exact result to F64. -/
def round64 (e : Exact) : F64 := pack64 (roundExact binary64 e)

/-- A signed number of units as an integer. -/
def signed (neg : Bool) (units : Nat) : Int := if neg then -(units : Int) else (units : Int)

/-- Flip the sign of a datum. -/
def negDatum : Datum → Datum
  | .nan => .nan
  | .inf neg => .inf (!neg)
  | .fin neg m => .fin (!neg) m

/-- The exact sum. A zero sum of finite operands is -0 only when both are negative zeros (00_scope.md R16). -/
def exactAdd : Datum → Datum → Exact
  | .nan, _ => .nan
  | _, .nan => .nan
  | .inf a, .inf b => if a = b then .inf a else .nan
  | .inf a, .fin _ _ => .inf a
  | .fin _ _, .inf b => .inf b
  | .fin a m, .fin b n =>
    let v := signed a m + signed b n
    if v = 0 then .ratio (a && b) 0 1 else .ratio (decide (v < 0)) v.natAbs 1

/-- The exact product: the sign is the exclusive-or (00_scope.md R16), and 0 · infinity is a NaN. -/
def exactMul (f : FloatFormat) : Datum → Datum → Exact
  | .nan, _ => .nan
  | _, .nan => .nan
  | .inf a, .inf b => .inf (a ^^ b)
  | .inf a, .fin b n => if n = 0 then .nan else .inf (a ^^ b)
  | .fin a m, .inf b => if m = 0 then .nan else .inf (a ^^ b)
  | .fin a m, .fin b n => .ratio (a ^^ b) (m * n) (2 ^ f.unitExp)

/-- The exact quotient: 0/0 and infinity/infinity are NaNs, x/0 is an infinity. -/
def exactDiv (f : FloatFormat) : Datum → Datum → Exact
  | .nan, _ => .nan
  | _, .nan => .nan
  | .inf _, .inf _ => .nan
  | .inf a, .fin b _ => .inf (a ^^ b)
  | .fin a _, .inf b => .ratio (a ^^ b) 0 1
  | .fin a m, .fin b n =>
    if n = 0 then (if m = 0 then .nan else .inf (a ^^ b))
    else .ratio (a ^^ b) (m * 2 ^ f.unitExp) n

/-- `add32` (00_scope.md R13). -/
def add32 (a b : F32) : F32 := round32 (exactAdd (datum32 a) (datum32 b))
/-- `sub32` (00_scope.md R13). -/
def sub32 (a b : F32) : F32 := round32 (exactAdd (datum32 a) (negDatum (datum32 b)))
/-- `mul32` (00_scope.md R13). -/
def mul32 (a b : F32) : F32 := round32 (exactMul binary32 (datum32 a) (datum32 b))
/-- `div32` (00_scope.md R13). -/
def div32 (a b : F32) : F32 := round32 (exactDiv binary32 (datum32 a) (datum32 b))
/-- `add64` (00_scope.md R13). -/
def add64 (a b : F64) : F64 := round64 (exactAdd (datum64 a) (datum64 b))
/-- `sub64` (00_scope.md R13). -/
def sub64 (a b : F64) : F64 := round64 (exactAdd (datum64 a) (negDatum (datum64 b)))
/-- `mul64` (00_scope.md R13). -/
def mul64 (a b : F64) : F64 := round64 (exactMul binary64 (datum64 a) (datum64 b))
/-- `div64` (00_scope.md R13). -/
def div64 (a b : F64) : F64 := round64 (exactDiv binary64 (datum64 a) (datum64 b))

/-- `neg32(a)`: flip the sign bit (00_scope.md R13). -/
def neg32 (a : F32) : F32 := a ^^^ 0x80000000#32

/-- `abs64(a)`: clear the sign bit (00_scope.md R13). -/
def abs64 (a : F64) : F64 := a &&& 0x7FFFFFFFFFFFFFFF#64

/-- Is the F32 a NaN? -/
def isNaN32 (x : F32) : Bool := decide (infMag binary32 < mag32 x)

/-- `isFinite(x)` (00_scope.md R16). -/
def isFinite32 (x : F32) : Bool := decide (mag32 x < infMag binary32)

/-- Is the F64 a NaN? -/
def isNaN64 (x : F64) : Bool := decide (infMag binary64 < mag64 x)

/-- `isFinite(x)` of an F64. -/
def isFinite64 (x : F64) : Bool := decide (mag64 x < infMag binary64)

/-- The place of a non-NaN F32 in the order of 00_scope.md R16: both zeros are 0, and an infinity stands one binade past
the largest finite value. -/
def order32 (x : F32) : Int := signed x.msb (magUnits binary32 (mag32 x))

/-- The place of a non-NaN F64 in the order of 00_scope.md R16. -/
def order64 (x : F64) : Int := signed x.msb (magUnits binary64 (mag64 x))

/-- `a < b` (00_scope.md R16). -/
def lt32 (a b : F32) : Bool := !isNaN32 a && !isNaN32 b && decide (order32 a < order32 b)
/-- `a ≤ b` (00_scope.md R16). -/
def le32 (a b : F32) : Bool := !isNaN32 a && !isNaN32 b && decide (order32 a ≤ order32 b)
/-- `a == b` (00_scope.md R16). -/
def eq32 (a b : F32) : Bool := !isNaN32 a && !isNaN32 b && decide (order32 a = order32 b)
/-- `a < b` on F64 (00_scope.md R16). -/
def lt64 (a b : F64) : Bool := !isNaN64 a && !isNaN64 b && decide (order64 a < order64 b)
/-- `a ≤ b` on F64 (00_scope.md R16). -/
def le64 (a b : F64) : Bool := !isNaN64 a && !isNaN64 b && decide (order64 a ≤ order64 b)

/-- The exact value of a binary32 datum, in binary64 units. -/
def widen : Datum → Exact
  | .nan => .nan
  | .inf neg => .inf neg
  | .fin neg m => .ratio neg (m * 2 ^ (binary64.unitExp - binary32.unitExp)) 1

/-- The exact value of a binary64 datum, in binary32 units. -/
def narrow : Datum → Exact
  | .nan => .nan
  | .inf neg => .inf neg
  | .fin neg m => .ratio neg m (2 ^ (binary64.unitExp - binary32.unitExp))

/-- `cvt32_64(a)` (00_scope.md R17). -/
def cvt32To64 (a : F32) : F64 := round64 (widen (datum32 a))

/-- `cvt64_32(a)` (00_scope.md R17). A NaN gives the canonical NaN, as R14 has it for every result (log entry 6, DEDUCED). -/
def cvt64To32 (a : F64) : F32 := round32 (narrow (datum64 a))

/-- `toF32(n)` (00_scope.md R17): exact for n < 2^24, the only range a rule uses; rounded above it (log entry 6, DEDUCED). -/
def toF32 (n : Nat) : F32 := round32 (.ratio false (n * 2 ^ binary32.unitExp) 1)

/-- `floorNat(x)`, for finite x ≥ 0 (00_scope.md R17); elsewhere the free value of log entry 4, DESIGN CHOICE. -/
def floorNat (x : F32) : Nat :=
  match datum32 x with
  | .fin neg m => if neg = true ∧ m ≠ 0 then Config.floorNatOutside x else m / 2 ^ binary32.unitExp
  | _ => Config.floorNatOutside x

/-- `ceilNat(x)`, for finite x ≥ 0 (00_scope.md R17); elsewhere the free value of log entry 4, DESIGN CHOICE. -/
def ceilNat (x : F32) : Nat :=
  match datum32 x with
  | .fin neg m =>
    if neg = true ∧ m ≠ 0 then Config.ceilNatOutside x
    else (m + (2 ^ binary32.unitExp - 1)) / 2 ^ binary32.unitExp
  | _ => Config.ceilNatOutside x

/-- `floor64(x)`, for finite x ≥ 0 (00_scope.md R17, exact); elsewhere the free value of log entry 4, DESIGN CHOICE. -/
def floor64 (x : F64) : F64 :=
  match datum64 x with
  | .fin neg m =>
    if neg = true ∧ m ≠ 0 then Config.floor64Outside x
    else round64 (.ratio false (m / 2 ^ binary64.unitExp * 2 ^ binary64.unitExp) 1)
  | _ => Config.floor64Outside x

/-- `+0.0` as F32. -/
def zero32 : F32 := 0x00000000#32
/-- `1.0` as F32. -/
def one32 : F32 := 0x3F800000#32
/-- `2.0` as F32. -/
def two32 : F32 := 0x40000000#32
/-- `1000.0` as F32. -/
def thousand32 : F32 := 0x447A0000#32
/-- `+0.0` as F64. -/
def zero64 : F64 := 0x0000000000000000#64
/-- `0.25` as F64. -/
def quarter64 : F64 := 0x3FD0000000000000#64
/-- `0.5` as F64. -/
def half64 : F64 := 0x3FE0000000000000#64
/-- `1.0` as F64. -/
def one64 : F64 := 0x3FF0000000000000#64
/-- `4.0` as F64. -/
def four64 : F64 := 0x4010000000000000#64
/-- The canonical NaN of F32 (00_scope.md R14). -/
def nan32 : F32 := 0x7FC00000#32
/-- The canonical NaN of F64 (00_scope.md R14). -/
def nan64 : F64 := 0x7FF8000000000000#64

end Sys2Proof.Machine
end

