-- ==== Sys2Proof/Machine/State.lean ====
section
/-! DEFINITION. The block's state: the elements of 10_state.md R31 to R46, and three fields of the model's own. -/

namespace Sys2Proof.Machine

/-- The six scalar, smoothed parameters, in the id order of 30_encoding.md R104. -/
inductive ScalarId where
  | rate | delay | depth | feedback | dryMix | wetMix
deriving DecidableEq, Repr

/-- One smoother: `TGT[k]`, `CUR[k]`, `STEP[k]`, `REM[k]` (10_state.md R42). -/
structure Smoother where
  tgt : F32
  cur : F32
  step : F32
  rem : Nat
deriving DecidableEq, Repr

/-- The six smoothers, k = 0 .. 5 (10_state.md R42). -/
structure Smoothers where
  rate : Smoother
  delay : Smoother
  depth : Smoother
  feedback : Smoother
  dryMix : Smoother
  wetMix : Smoother
deriving DecidableEq, Repr

/-- The five sticky error flags of STATUS (10_state.md R44, R49). -/
inductive ErrFlag where
  | cmd | cfg | param | render | bus
deriving DecidableEq, Repr

/-- A host-bus transaction: the only two kinds there are (20_memory.md R85, 46_host_bus.md R260, R261). -/
inductive Txn where
  /-- `MemRead(addr, 4)`. -/
  | read (addr : Word)
  /-- `MemWrite(addr, 4, value)`. -/
  | write (addr value : Word)
deriving DecidableEq, Repr

/-- The sample buffers and the delay storage, as bytes of the host bus's address space: the IN, OUT and DL windows of
20_memory.md R82, little-endian (R87). A byte that is not listed is 0, the reset value of 10_state.md R38, R45, R46. -/
abbrev Memory := List Host.Cell

/-- The block's state. -/
structure State where
  /-- The implementation parameters of 00_scope.md R6. The model's own field, written by no step (log entry 1, DESIGN CHOICE). -/
  hw : Params
  /-- `ARG0` (10_state.md R31). -/
  arg0 : Word
  /-- `ARG1` (10_state.md R31). -/
  arg1 : Word
  /-- `CONFIGURED` (10_state.md R32). -/
  configured : Bool
  /-- `CH` (10_state.md R33). -/
  ch : Nat
  /-- `CAP`, also written N (10_state.md R34). -/
  cap : Nat
  /-- `SR` (10_state.md R35). -/
  sr : F32
  /-- `MAXDLY` (10_state.md R36). -/
  maxdly : F32
  /-- `SPM` (10_state.md R37). -/
  spm : F32
  /-- `IN`, `OUT` and `DL` (10_state.md R45, R46, R38). -/
  mem : Memory
  /-- `W[c]` for c = 0 .. MAX_CHANNELS-1 (10_state.md R39). -/
  cursors : List Nat
  /-- `PHASE` (10_state.md R40). -/
  phase : F64
  /-- `INC` (10_state.md R40). -/
  inc : F64
  /-- `TGT`, `CUR`, `STEP`, `REM` (10_state.md R42). -/
  smoothers : Smoothers
  /-- `NEGFB` (10_state.md R43). -/
  negfb : Bool
  /-- `ODD90` (10_state.md R43). -/
  odd90 : Bool
  /-- `ERR_CMD` (10_state.md R44). -/
  errCmd : Bool
  /-- `ERR_CFG` (10_state.md R44). -/
  errCfg : Bool
  /-- `ERR_PARAM` (10_state.md R44). -/
  errParam : Bool
  /-- `ERR_RENDER` (10_state.md R44). -/
  errRender : Bool
  /-- `ERR_BUS` (10_state.md R44). -/
  errBus : Bool
  /-- The host's transactions not yet performed, oldest first (10_state.md R30, R59). The model's own field (log entry 2, DESIGN CHOICE). -/
  bus : List Txn
  /-- The words the reads returned so far, oldest first (70_reset_and_hazards.md R322). The model's own field (log entry 2, DESIGN CHOICE). -/
  reads : List Word
deriving DecidableEq, Repr

/-- A smoother after reset (10_state.md R42). -/
def Smoother.reset : Smoother := { tgt := 0#32, cur := 0#32, step := 0#32, rem := 0 }

/-- The reset state of an implementation with parameters `hw`: every element at the value of 70_reset_and_hazards.md R301. -/
def State.resetWith (hw : Params) : State where
  hw := hw
  arg0 := 0#32
  arg1 := 0#32
  configured := false
  ch := 0
  cap := 0
  sr := 0#32
  maxdly := 0#32
  spm := 0#32
  mem := []
  cursors := List.replicate hw.maxChannels 0
  phase := 0#64
  inc := 0#64
  smoothers :=
    { rate := Smoother.reset, delay := Smoother.reset, depth := Smoother.reset,
      feedback := Smoother.reset, dryMix := Smoother.reset, wetMix := Smoother.reset }
  negfb := false
  odd90 := false
  errCmd := false
  errCfg := false
  errParam := false
  errRender := false
  errBus := false
  bus := []
  reads := []

/-- The block right after power-on reset (70_reset_and_hazards.md R300, R301), with the default parameters of 00_scope.md R6. -/
def State.reset : State := State.resetWith Params.default

/-- Why a step can stop the machine with a fault: never. Every command and every transaction completes
(60_exceptions.md R280, 70_reset_and_hazards.md R322), so the type has no constructor. -/
inductive Fault where
deriving DecidableEq, Repr

/-- Why a command can have no meaning in the model. -/
inductive Refusal where
  /-- Raised by an arm of `exec` whose command has no meaning in the model yet: no arm raises it. Safe: the run stops. -/
  | notModelled (mnemonic : String)
deriving DecidableEq, Repr

end Sys2Proof.Machine
end

