-- ==== Sys2Proof/Machine/Ops.lean ====
section
/-! DEFINITION. The named operations over memory and registers, and the reporting of errors. -/

namespace Sys2Proof.Machine

/-! ## Memory: bytes and words of the host bus's address space (20_memory.md R82, R87) -/

/-- What a byte that is not listed reads as: every buffer element is 0 at reset (10_state.md R38, R45, R46; log
entry 8, DEDUCED). -/
def background : Byte := 0#8

/-- Read one byte. -/
def readByte : Memory → Nat → Byte
  | [], _ => background
  | (k, b) :: m, a => if k = a then b else readByte m a

/-- Write one byte, keeping the addresses rising and no entry equal to the background. -/
def writeByte : Memory → Nat → Byte → Memory
  | [], a, v => if v = background then [] else [(a, v)]
  | (k, b) :: m, a, v =>
    if a < k then (if v = background then (k, b) :: m else (a, v) :: (k, b) :: m)
    else if a = k then (if v = background then m else (a, v) :: m)
    else (k, b) :: writeByte m a v

/-- The canonical form: addresses strictly rising, no entry equal to the background. -/
abbrev Memory.wf (m : Memory) : Prop :=
  m.Pairwise (fun x y => x.1 < y.1) ∧ ∀ cell ∈ m, cell.2 ≠ background

/-- Byte lane k of a word: bits [8k+7 : 8k] (20_memory.md R87). -/
def lane (w : Word) (k : Nat) : Byte := w.extractLsb' (8 * k) 8

/-- Read the word at a byte address, little-endian (20_memory.md R87). -/
def readWord (m : Memory) (a : Nat) : Word :=
  readByte m (a + 3) ++ readByte m (a + 2) ++ readByte m (a + 1) ++ readByte m a

/-- Write the word at a byte address, little-endian (20_memory.md R87). -/
def writeWord (m : Memory) (a : Nat) (w : Word) : Memory :=
  writeByte (writeByte (writeByte (writeByte m a (lane w 0)) (a + 1) (lane w 1)) (a + 2) (lane w 2)) (a + 3) (lane w 3)

/-- Set every byte of [lo, hi) to the background. -/
def clearRange (m : Memory) (lo hi : Nat) : Memory :=
  m.filter (fun cell => !(decide (lo ≤ cell.1) && decide (cell.1 < hi)))

/-! ## The windows (20_memory.md R82) -/

/-- The bus address of the IN window. -/
def inBase : Nat := 0x00100000
/-- The bus address of the OUT window. -/
def outBase : Nat := 0x00200000
/-- The bus address of the DL window. -/
def dlBase : Nat := 0x00400000

/-- The bus address of `IN[c][i]`. -/
def inAddr (hw : Params) (c i : Nat) : Nat := inBase + 4 * (c * hw.maxFrames + i)
/-- The bus address of `OUT[c][i]`. -/
def outAddr (hw : Params) (c i : Nat) : Nat := outBase + 4 * (c * hw.maxFrames + i)
/-- The bus address of `DL[c][j]`. -/
def dlAddr (hw : Params) (c j : Nat) : Nat := dlBase + 4 * (c * hw.maxCapacity + j)

/-- `IN[c][i]` (10_state.md R45). -/
def inWord (s : State) (c i : Nat) : Word := readWord s.mem (inAddr s.hw c i)
/-- `OUT[c][i]` (10_state.md R46). -/
def outWord (s : State) (c i : Nat) : F32 := readWord s.mem (outAddr s.hw c i)
/-- `DL[c][j]` (10_state.md R38). -/
def dlWord (s : State) (c j : Nat) : F32 := readWord s.mem (dlAddr s.hw c j)

/-- `IN[c][i] <- w`. -/
def setIn (c i : Nat) (w : Word) (s : State) : State := { s with mem := writeWord s.mem (inAddr s.hw c i) w }
/-- `OUT[c][i] <- v`. -/
def setOut (c i : Nat) (v : F32) (s : State) : State := { s with mem := writeWord s.mem (outAddr s.hw c i) v }
/-- `DL[c][j] <- v`. -/
def setDl (c j : Nat) (v : F32) (s : State) : State := { s with mem := writeWord s.mem (dlAddr s.hw c j) v }

/-! ## Registers -/

/-- `W[c]` (10_state.md R39); 0 for a c that no channel has (log entry 9, DESIGN CHOICE). -/
def cursor (s : State) (c : Nat) : Nat := s.cursors.getD c 0
/-- `W[c] <- n`. -/
def setCursor (c n : Nat) (s : State) : State := { s with cursors := s.cursors.set c n }

/-- Smoother k (10_state.md R42). -/
def getSmoother (ss : Smoothers) : ScalarId → Smoother
  | .rate => ss.rate
  | .delay => ss.delay
  | .depth => ss.depth
  | .feedback => ss.feedback
  | .dryMix => ss.dryMix
  | .wetMix => ss.wetMix

/-- The six smoothers with smoother k replaced. -/
def putSmoother (ss : Smoothers) (k : ScalarId) (sm : Smoother) : Smoothers :=
  match k with
  | .rate => { ss with rate := sm }
  | .delay => { ss with delay := sm }
  | .depth => { ss with depth := sm }
  | .feedback => { ss with feedback := sm }
  | .dryMix => { ss with dryMix := sm }
  | .wetMix => { ss with wetMix := sm }

/-- TGT[k], CUR[k], STEP[k], REM[k] of a state. -/
def smoother (s : State) (k : ScalarId) : Smoother := getSmoother s.smoothers k
/-- Replace TGT[k], CUR[k], STEP[k], REM[k]. -/
def setSmoother (k : ScalarId) (sm : Smoother) (s : State) : State :=
  { s with smoothers := putSmoother s.smoothers k sm }

/-! ## Errors: the block's one reporting mechanism (60_exceptions.md R280 to R287) -/

/-- `raise ERR_X()`: set one sticky flag; no other state element changes (00_scope.md R10). -/
def raiseError (e : ErrFlag) (s : State) : State :=
  match e with
  | .cmd => { s with errCmd := true }
  | .cfg => { s with errCfg := true }
  | .param => { s with errParam := true }
  | .render => { s with errRender := true }
  | .bus => { s with errBus := true }

/-- What CLRERR does, the nearest thing to a return (60_exceptions.md R286): clear the five flags (45_commands.md R236). -/
def clearErrors (s : State) : State :=
  { s with errCmd := false, errCfg := false, errParam := false, errRender := false, errBus := false }

/-! ## Loops (00_scope.md R10) -/

/-- `for i in 0 .. n-1: body i`, in increasing order. -/
def forUpTo (n : Nat) (loopBody : Nat → State → State) (s : State) : State :=
  match n with
  | 0 => s
  | k + 1 => loopBody k (forUpTo k loopBody s)

end Sys2Proof.Machine
end

