-- ==== Sys2Proof/Machine/Operands.lean ====
section
/-! DEFINITION. The operands a command reads beside its word: ARG0, ARG1 and the parameter id (30_encoding.md R102 to R108). -/

namespace Sys2Proof.Machine

/-- The two boolean parameters (30_encoding.md R104). -/
inductive BoolId where
  | negativeFeedback | odd90
deriving DecidableEq, Repr

/-- What a PID selects (30_encoding.md R104). -/
inductive ParamSel where
  | scalar (k : ScalarId)
  | boolean (b : BoolId)
  | reserved
deriving DecidableEq, Repr

/-- The parameter ids of 30_encoding.md R104; 8 to 15 are reserved. -/
def paramOfPid : Nat → ParamSel
  | 0 => .scalar .rate
  | 1 => .scalar .delay
  | 2 => .scalar .depth
  | 3 => .scalar .feedback
  | 4 => .scalar .dryMix
  | 5 => .scalar .wetMix
  | 6 => .boolean .negativeFeedback
  | 7 => .boolean .odd90
  | _ => .reserved

/-- `from32(ARG0)`: every bit pattern is an F32 (30_encoding.md R108). -/
def argF32 (s : State) : F32 := s.arg0

/-- `from32(ARG1)` (30_encoding.md R102). -/
def arg1F32 (s : State) : F32 := s.arg1

/-- A boolean operand: `ARG0[0]`, the other bits ignored (30_encoding.md R108). -/
def argBool (s : State) : Bool := s.arg0.getLsbD 0

end Sys2Proof.Machine
end

