-- ==== Sys2Proof/Machine/DelayLine.lean ====
section
/-! DEFINITION. The delay line: DL_CLEAR, DL_READ, DL_WRITE (40_delay_line.md). -/

namespace Sys2Proof.Machine

/-- DL_CLEAR (40_delay_line.md R130): every DL word is +0 and every cursor 0, in all MAX_CHANNELS rows. -/
def dlClear (s : State) : State :=
  { s with
    mem := clearRange s.mem dlBase (dlBase + 4 * (s.hw.maxChannels * s.hw.maxCapacity))
    cursors := List.replicate s.hw.maxChannels 0 }

/-- `(w - n) mod N`, the mathematical remainder (00_scope.md R10): the slot n places behind the cursor w. With N = 0, which
no render meets, it is w - n or 0 (log entry 9, DESIGN CHOICE). -/
def slotBehind (cap w n : Nat) : Nat := (((w : Int) - (n : Int)) % (cap : Int)).toNat

/-- DL_READ's clamp of the tap to [0, N-1]: a NaN, and every tap ≤ 0, to +0 (40_delay_line.md R131). -/
def clampTap (cap : Nat) (t : F32) : F32 :=
  if isNaN32 t || le32 t zero32 then zero32
  else if le32 (toF32 (cap - 1)) t then toF32 (cap - 1)
  else t

/-- `(1 - f) · y0 + f · y1`, each product rounded, then the sum (40_delay_line.md R131). -/
def interpolate (f y0 y1 : F32) : F32 := add32 (mul32 (sub32 one32 f) y0) (mul32 f y1)

/-- DL_READ(c, t) (40_delay_line.md R131). -/
def dlRead (c : Nat) (t : F32) (s : State) : F32 :=
  let tc := clampTap s.cap t
  let n := floorNat tc
  let f := sub32 tc (toF32 n)
  let y0 := dlWord s c (slotBehind s.cap (cursor s c) n)
  let y1 := dlWord s c (slotBehind s.cap (cursor s c) (n + 1))
  interpolate f y0 y1

/-- DL_WRITE(c, v) (40_delay_line.md R132). -/
def dlWrite (c : Nat) (v : F32) (s : State) : State :=
  setCursor c ((cursor s c + 1) % s.cap) (setDl c (cursor s c) v s)

end Sys2Proof.Machine
end

