-- ==== Sys2Proof/Machine/Lfo.lean ====
section
/-! DEFINITION. The triangle-wave LFO (41_lfo.md). -/

namespace Sys2Proof.Machine

/-- TRI64(p): `1 - 4·|p - 0.5|` in F64 (41_lfo.md R150). -/
def tri64 (p : F64) : F64 := sub64 one64 (mul64 four64 (abs64 (sub64 p half64)))

/-- LFO_VALUE at a phase (41_lfo.md R151). -/
def lfoValue (phase : F64) : F32 := cvt64To32 (tri64 phase)

/-- `phase + 0.25`, less 1 where that is ≥ 1 (41_lfo.md R152). -/
def quadPhase (phase : F64) : F64 :=
  let q := add64 phase quarter64
  if le64 one64 q then sub64 q one64 else q

/-- LFO_QUAD at a phase (41_lfo.md R152). -/
def lfoQuad (phase : F64) : F32 := cvt64To32 (tri64 (quadPhase phase))

/-- The increment LFO_SET_RATE stores: `rate / SR` in F64 (41_lfo.md R153). -/
def lfoRateInc (rate sr : F32) : F64 := div64 (cvt32To64 rate) (cvt32To64 sr)

/-- LFO_SET_RATE(rate) (41_lfo.md R153). -/
def lfoSetRate (rate : F32) (s : State) : State := { s with inc := lfoRateInc rate s.sr }

/-- The phase after one increment: `x - floor(x)` for `x = phase + inc` (41_lfo.md R154). -/
def nextPhase (phase inc : F64) : F64 :=
  let x := add64 phase inc
  sub64 x (floor64 x)

/-- LFO_INCREMENT (41_lfo.md R154). -/
def lfoIncrement (s : State) : State := { s with phase := nextPhase s.phase s.inc }

/-- LFO_RESET (41_lfo.md R155). -/
def lfoReset (s : State) : State := { s with phase := zero64, inc := zero64 }

end Sys2Proof.Machine
end

