-- ==== Sys2Proof/Machine/Smooth.lean ====
section
/-! DEFINITION. The parameter smoother, a linear ramp accumulator per scalar parameter (42_smoother.md). -/

namespace Sys2Proof.Machine

/-- Does parameter k have the upper bound 1: k in {2, 3, 4, 5} (42_smoother.md R170)? -/
def unitRange : ScalarId → Bool
  | .rate => false
  | .delay => false
  | .depth => true
  | .feedback => true
  | .dryMix => true
  | .wetMix => true

/-- The id of scalar parameter k (30_encoding.md R104). -/
def scalarPid : ScalarId → Nat
  | .rate => 0
  | .delay => 1
  | .depth => 2
  | .feedback => 3
  | .dryMix => 4
  | .wetMix => 5

/-- The range of scalar parameter k after clamping (30_encoding.md R104, 42_smoother.md R170): finite, ≥ +0 and not -0, and at
most 1 for the four unit parameters. -/
abbrev inRange (k : ScalarId) (v : F32) : Prop :=
  isFinite32 v = true ∧ v.msb = false ∧ (unitRange k = true → le32 v one32 = true)

/-- x where it lies in the range of parameter k, else +0: every value of the range, and no other, is some x's. -/
def intoRange (k : ScalarId) (x : F32) : F32 := if inRange k x then x else zero32

/-- CLAMP_P(k, v) (42_smoother.md R170). The rule states it for finite v, but SM_FRAME can hand it a sum that has overflowed. Where
the pseudocode's comparisons settle no end of the range for such a v, the result is a free value of the range of parameter k,
which "rounding in a long ramp cannot leave" (R172; log entry 5, DESIGN CHOICE). -/
def clampP (k : ScalarId) (v : F32) : F32 :=
  if le32 v zero32 then zero32
  else if unitRange k && le32 one32 v then one32
  else if isFinite32 v then v
  else intoRange k (Config.clampOutside (scalarPid k) v)

/-- SM_SET(k, v, R) on one smoother (42_smoother.md R171). -/
def smootherSet (k : ScalarId) (v : F32) (ramp : Nat) (sm : Smoother) : Smoother :=
  let v' := clampP k v
  if ramp = 0 then { tgt := v', cur := v', step := zero32, rem := 0 }
  else { tgt := v', cur := sm.cur, step := div32 (sub32 v' sm.cur) (toF32 ramp), rem := ramp }

/-- SM_FRAME(k) on one smoother (42_smoother.md R172); its result is the new `cur`. -/
def smootherFrame (k : ScalarId) (sm : Smoother) : Smoother :=
  if sm.rem = 0 then sm
  else if sm.rem = 1 then { sm with cur := sm.tgt, step := zero32, rem := 0 }
  else { sm with cur := clampP k (add32 sm.cur sm.step), rem := sm.rem - 1 }

/-- SM_FINAL(k) on one smoother (42_smoother.md R173); its result is the new `cur`, which is TGT. -/
def smootherFinal (sm : Smoother) : Smoother := { sm with cur := sm.tgt, step := zero32, rem := 0 }

/-- SM_SET(k, v, R) (42_smoother.md R171). -/
def smSet (k : ScalarId) (v : F32) (ramp : Nat) (s : State) : State :=
  setSmoother k (smootherSet k v ramp (smoother s k)) s

/-- SM_FRAME(k): the ramp value after one step, and the state (42_smoother.md R172). -/
def smFrame (k : ScalarId) (s : State) : F32 × State :=
  let sm := smootherFrame k (smoother s k)
  (sm.cur, setSmoother k sm s)

/-- SM_FINAL(k): the target, and the state (42_smoother.md R173). -/
def smFinal (k : ScalarId) (s : State) : F32 × State :=
  let sm := smootherFinal (smoother s k)
  (sm.tgt, setSmoother k sm s)

end Sys2Proof.Machine
end

