-- ==== Sys2Proof/Machine/Tap.lean ====
section
/-! DEFINITION. The tap calculator: pure functions, no state (43_tap_calculator.md). -/

namespace Sys2Proof.Machine

/-- `delay` clamped at use to the current MAXDLY (43_tap_calculator.md R190). -/
def clampDelay (maxdly delay : F32) : F32 := if le32 maxdly delay then maxdly else delay

/-- The variance of CV_DERIVE (43_tap_calculator.md R190). -/
def variance (maxdly delay depth : F32) : F32 :=
  div32 (mul32 (sub32 maxdly (clampDelay maxdly delay)) depth) two32

/-- The center of CV_DERIVE (43_tap_calculator.md R190). -/
def center (maxdly delay depth : F32) : F32 := add32 (clampDelay maxdly delay) (variance maxdly delay depth)

/-- CV_DERIVE(delay, depth): (center, variance) (43_tap_calculator.md R190). -/
def cvDerive (maxdly delay depth : F32) : F32 × F32 := (center maxdly delay depth, variance maxdly delay depth)

/-- TAP(center, variance, l) (43_tap_calculator.md R191). -/
def tap (spm ctr var l : F32) : F32 := mul32 (add32 ctr (mul32 l var)) spm

/-- TAP_PAIR(center, variance, lv, lq, odd): (evenTap, oddTap) (43_tap_calculator.md R192). -/
def tapPair (spm ctr var lv lq : F32) (odd : Bool) : F32 × F32 :=
  (tap spm ctr var lv, if odd then tap spm ctr var lq else tap spm ctr var lv)

end Sys2Proof.Machine
end

