-- ==== Sys2Proof/Machine/Render.lean ====
section
/-! DEFINITION. The render engine and the multiply-accumulate mixer (44_render_engine.md). -/

namespace Sys2Proof.Machine

/-- The six scalar values READ_PARAMS returns (44_render_engine.md R200). -/
structure Controls where
  rate : F32
  delay : F32
  depth : F32
  feedback : F32
  dryMix : F32
  wetMix : F32
deriving DecidableEq, Repr

/-- READ_PARAMS(G): G(0), ..., G(5) in that order (44_render_engine.md R200). -/
def readParams (g : ScalarId → State → F32 × State) (s : State) : Controls × State :=
  let r0 := g .rate s
  let r1 := g .delay r0.2
  let r2 := g .depth r1.2
  let r3 := g .feedback r2.2
  let r4 := g .dryMix r3.2
  let r5 := g .wetMix r4.2
  ({ rate := r0.1, delay := r1.1, depth := r2.1, feedback := r3.1, dryMix := r4.1, wetMix := r5.1 }, r5.2)

/-- The regime: SM_FRAME for one frame, SM_FINAL for two or more (44_render_engine.md R200 to R202). -/
def readControls (n : Nat) (s : State) : Controls × State :=
  if n = 1 then readParams smFrame s else readParams smFinal s

/-- CHANNEL_STEP's written value: `x + sfb·d` (44_render_engine.md R204). -/
def mixWrite (x d sfb : F32) : F32 := add32 x (mul32 sfb d)

/-- CHANNEL_STEP's output value: `wet·d + dry·x` (44_render_engine.md R204). -/
def mixOut (x d dry wet : F32) : F32 := add32 (mul32 wet d) (mul32 dry x)

/-- CHANNEL_STEP(c, i, t, sfb, dry, wet) (44_render_engine.md R204): read, write the delay line, write OUT. -/
def channelStep (c i : Nat) (t sfb dry wet : F32) (s : State) : State :=
  let x := inWord s c i
  let d := dlRead c t s
  setOut c i (mixOut x d dry wet) (dlWrite c (mixWrite x d sfb) s)

/-- The feedback with its sign (44_render_engine.md R203 step 1, R205). -/
def signedFeedback (negfb : Bool) (fb : F32) : F32 := if negfb then neg32 fb else fb

/-- Odd channels take the odd tap (44_render_engine.md R206). -/
def tapOfChannel (taps : F32 × F32) (c : Nat) : F32 := if c % 2 = 1 then taps.2 else taps.1

/-- FRAME_STEP(i, center, variance, fb, dry, wet, odd) (44_render_engine.md R203). -/
def frameStep (ctr var fb dry wet : F32) (odd : Bool) (i : Nat) (s : State) : State :=
  let sfb := signedFeedback s.negfb fb
  let taps := tapPair s.spm ctr var (lfoValue s.phase) (lfoQuad s.phase) odd
  forUpTo s.ch (fun c => channelStep c i (tapOfChannel taps c) sfb dry wet) (lfoIncrement s)

/-- The frames of a render with controls `k`, after the parameters are read (44_render_engine.md R200). -/
def renderFrames (n : Nat) (k : Controls) (odd : Bool) (s : State) : State :=
  let cv := cvDerive s.maxdly k.delay k.depth
  forUpTo n (frameStep cv.1 cv.2 k.feedback k.dryMix k.wetMix odd) (lfoSetRate k.rate s)

/-- RENDER_CORE(n) (44_render_engine.md R200). -/
def renderCore (n : Nat) (s : State) : State :=
  let r := readControls n s
  renderFrames n r.1 s.odd90 r.2

end Sys2Proof.Machine
end

