-- ==== Sys2Proof/Machine/Commands.lean ====
section
/-! DEFINITION. One meaning per command (45_commands.md). -/

namespace Sys2Proof.Machine

/-- NOP: nothing changes (45_commands.md R231). -/
def execNop (s : State) : Host.Outcome State Fault Refusal := .next s

/-- What CONFIGURE stores after its checks (45_commands.md R232). -/
def applyConfig (chn : Nat) (sr md spm : F32) (n : Nat) (s : State) : State :=
  let s1 := { s with ch := chn, sr := sr, maxdly := md, spm := spm, cap := n }
  { lfoReset (dlClear s1) with configured := true }

/-- `if md == 0.0: md <- +0.0` (45_commands.md R232). -/
def plusZero (md : F32) : F32 := if eq32 md zero32 then zero32 else md

/-- `samplesPerMillisecond = sampleRate / 1000` (45_commands.md R232). -/
def spmOf (sr : F32) : F32 := div32 sr thousand32

/-- The capacity formula, evaluated in F32 in the written order (45_commands.md R232, 90_conflicts.md C2). -/
def capacityOf (md spm : F32) : Nat := ceilNat (mul32 md spm) + 1

/-- CONFIGURE(CHN) (45_commands.md R232). -/
def execConfigure (chn : Nat) (s : State) : Host.Outcome State Fault Refusal :=
  let sr := argF32 s
  let md := arg1F32 s
  if chn < 1 ∨ s.hw.maxChannels < chn then .next (raiseError .cfg s)
  else if !(isFinite32 sr && lt32 zero32 sr) then .next (raiseError .cfg s)
  else if !(isFinite32 md && le32 zero32 md) then .next (raiseError .cfg s)
  else
    let md := plusZero md
    let spm := spmOf sr
    if !isFinite32 (mul32 md spm) then .next (raiseError .cfg s)
    else
      let n := capacityOf md spm
      if s.hw.maxCapacity < n then .next (raiseError .cfg s)
      else .next (applyConfig chn sr md spm n s)

/-- SET_BOOL (45_commands.md R234). -/
def setBool (b : BoolId) (v : Bool) (s : State) : State :=
  match b with
  | .negativeFeedback => { s with negfb := v }
  | .odd90 => { s with odd90 := v }

/-- SET_PARAM(PID, RAMP) (45_commands.md R233, R234). -/
def execSetp (pid ramp : Nat) (s : State) : Host.Outcome State Fault Refusal :=
  match paramOfPid pid with
  | .reserved => .next (raiseError .param s)
  | .boolean b => .next (setBool b (argBool s) s)
  | .scalar k =>
    if isFinite32 (argF32 s) then .next (smSet k (argF32 s) ramp s) else .next (raiseError .param s)

/-- RENDER(NFR) (45_commands.md R235). BUS is read by no rule (30_encoding.md R105), so it is no argument. -/
def execRender (nfr : Nat) (s : State) : Host.Outcome State Fault Refusal :=
  if s.hw.maxFrames < nfr then .next (raiseError .render s)
  else if nfr = 0 then .next s
  else if s.configured = false then .next (raiseError .render s)
  else .next (renderCore nfr s)

/-- CLRERR (45_commands.md R236). -/
def execClrerr (s : State) : Host.Outcome State Fault Refusal := .next (clearErrors s)

/-- The block reset (70_reset_and_hazards.md R301); the host's transactions and its observations are no block state. -/
def resetBlock (s : State) : State := { State.resetWith s.hw with bus := s.bus, reads := s.reads }

/-- RESET (45_commands.md R237). -/
def execReset (s : State) : Host.Outcome State Fault Refusal := .next (resetBlock s)

end Sys2Proof.Machine
end

