-- ==== Sys2Proof/Machine/Dispatch.lean ====
section
/-! DEFINITION. The command to its meaning: one arm per row of opcode_table.json. -/

namespace Sys2Proof.Machine

/-- What a command does (45_commands.md R230). -/
def exec (i : Instr) (s : State) : Host.Outcome State Fault Refusal :=
  match i with
  | .nop => Sys2Proof.Machine.execNop s
  | .configure chn => Sys2Proof.Machine.execConfigure chn s
  | .setp pid ramp => Sys2Proof.Machine.execSetp pid ramp s
  | .render nfr _ => Sys2Proof.Machine.execRender nfr s
  | .clrerr => Sys2Proof.Machine.execClrerr s
  | .reset => Sys2Proof.Machine.execReset s

end Sys2Proof.Machine
end

