-- ==== Sys2Proof/Machine/Flags.lean ====
section
/-! DEFINITION. The STATUS word and the flags it shows (10_state.md R44, R49). -/

namespace Sys2Proof.Machine

/-- A flag of 10_state.md R44. -/
def flag (s : State) : ErrFlag → Bool
  | .cmd => s.errCmd
  | .cfg => s.errCfg
  | .param => s.errParam
  | .render => s.errRender
  | .bus => s.errBus

/-- The STATUS bit of each flag, which is the cause code of 60_exceptions.md R281. -/
def flagBit : ErrFlag → Nat
  | .cmd => 1
  | .cfg => 2
  | .param => 3
  | .render => 4
  | .bus => 5

/-- STATUS: `{26'b0, ERR_BUS, ERR_RENDER, ERR_PARAM, ERR_CFG, ERR_CMD, CONFIGURED}` (46_host_bus.md R262). -/
def statusWord (s : State) : Word :=
  0#26 ++ BitVec.ofBool s.errBus ++ BitVec.ofBool s.errRender ++ BitVec.ofBool s.errParam ++
    BitVec.ofBool s.errCfg ++ BitVec.ofBool s.errCmd ++ BitVec.ofBool s.configured

end Sys2Proof.Machine
end

