-- ==== Sys2Proof/Machine/Bus.lean ====
section
/-! DEFINITION. The host bus: the address map, the register map, and the two transactions (10_state.md R48 to R57,
20_memory.md R82, 46_host_bus.md). -/

namespace Sys2Proof.Machine

/-- The registers of 10_state.md R48. -/
inductive Reg where
  | id | status | cmd | arg0 | arg1
  | cfgChannels | cfgSampleRate | cfgMaxDelay | cfgSpm | cfgCapacity
  | lfoPhaseLo | lfoPhaseHi | lfoIncLo | lfoIncHi
  | hwMaxChannels | hwMaxFrames | hwMaxCapacity
  | pTarget (pid : Nat) | pCurrent (pid : Nat) | pStep (pid : Nat) | pRemaining (pid : Nat)
  | dlCursor (c : Nat)
deriving DecidableEq, Repr

/-- What an aligned address decodes to (20_memory.md R82). -/
inductive Target where
  | reg (r : Reg)
  | inBuf (c i : Nat)
  | outBuf (c i : Nat)
  | dl (c j : Nat)
  /-- A reserved register offset (10_state.md R57) or an unmapped address. -/
  | none
deriving DecidableEq, Repr

/-- P_TARGET[k] .. P_REMAINING[k], the registers of parameter id k (10_state.md R54). -/
def paramReg (pid : Nat) : Nat → Reg
  | 0 => .pTarget pid
  | 1 => .pCurrent pid
  | 2 => .pStep pid
  | _ => .pRemaining pid

/-- The register at a word offset of the register block; none where reserved (10_state.md R48, R57). -/
def decodeReg (hw : Params) (offset : Nat) : Target :=
  if offset = 0x000 then .reg .id
  else if offset = 0x004 then .reg .status
  else if offset = 0x008 then .reg .cmd
  else if offset = 0x00C then .reg .arg0
  else if offset = 0x010 then .reg .arg1
  else if offset = 0x014 then .reg .cfgChannels
  else if offset = 0x018 then .reg .cfgSampleRate
  else if offset = 0x01C then .reg .cfgMaxDelay
  else if offset = 0x020 then .reg .cfgSpm
  else if offset = 0x024 then .reg .cfgCapacity
  else if offset = 0x028 then .reg .lfoPhaseLo
  else if offset = 0x02C then .reg .lfoPhaseHi
  else if offset = 0x030 then .reg .lfoIncLo
  else if offset = 0x034 then .reg .lfoIncHi
  else if offset = 0x038 then .reg .hwMaxChannels
  else if offset = 0x03C then .reg .hwMaxFrames
  else if offset = 0x040 then .reg .hwMaxCapacity
  else if 0x080 ≤ offset ∧ offset < 0x100 then .reg (paramReg ((offset - 0x080) / 16) (offset % 16 / 4))
  else if 0x400 ≤ offset ∧ offset < 0x400 + 4 * hw.maxChannels then .reg (.dlCursor ((offset - 0x400) / 4))
  else .none

/-- DECODE(a), for an aligned address (20_memory.md R82). -/
def decodeAddr (hw : Params) (a : Nat) : Target :=
  if a < 0x1000 then decodeReg hw a
  else if 0x00100000 ≤ a ∧ a < 0x00200000 then
    let j := (a - 0x00100000) / 4
    if j < hw.maxChannels * hw.maxFrames then .inBuf (j / hw.maxFrames) (j % hw.maxFrames) else .none
  else if 0x00200000 ≤ a ∧ a < 0x00300000 then
    let j := (a - 0x00200000) / 4
    if j < hw.maxChannels * hw.maxFrames then .outBuf (j / hw.maxFrames) (j % hw.maxFrames) else .none
  else if 0x00400000 ≤ a ∧ a < 0x00800000 then
    let j := (a - 0x00400000) / 4
    if j < hw.maxChannels * hw.maxCapacity then .dl (j / hw.maxCapacity) (j % hw.maxCapacity) else .none
  else .none

/-- The constant of the ID register (10_state.md R41). -/
def idWord : Word := 0x464C4E47#32

/-- A Bool as a word. -/
def boolWord (b : Bool) : Word := BitVec.ofNat 32 b.toNat

/-- P_TARGET[k] (10_state.md R54). -/
def readTarget (s : State) (pid : Nat) : Word :=
  match paramOfPid pid with
  | .scalar k => (smoother s k).tgt
  | .boolean .negativeFeedback => boolWord s.negfb
  | .boolean .odd90 => boolWord s.odd90
  | .reserved => 0#32

/-- P_CURRENT[k] (10_state.md R54). -/
def readCurrent (s : State) (pid : Nat) : Word :=
  match paramOfPid pid with
  | .scalar k => (smoother s k).cur
  | .boolean .negativeFeedback => boolWord s.negfb
  | .boolean .odd90 => boolWord s.odd90
  | .reserved => 0#32

/-- P_STEP[k]: 0 for a boolean (10_state.md R54). -/
def readStep (s : State) (pid : Nat) : Word :=
  match paramOfPid pid with
  | .scalar k => (smoother s k).step
  | .boolean _ => 0#32
  | .reserved => 0#32

/-- P_REMAINING[k]: 0 for a boolean (10_state.md R54). -/
def readRemaining (s : State) (pid : Nat) : Word :=
  match paramOfPid pid with
  | .scalar k => BitVec.ofNat 32 (smoother s k).rem
  | .boolean _ => 0#32
  | .reserved => 0#32

/-- READVAL(o) (46_host_bus.md R262). CMD reads 0 (10_state.md R50). -/
def readReg (s : State) : Reg → Word
  | .id => idWord
  | .status => statusWord s
  | .cmd => 0#32
  | .arg0 => s.arg0
  | .arg1 => s.arg1
  | .cfgChannels => BitVec.ofNat 32 s.ch
  | .cfgSampleRate => s.sr
  | .cfgMaxDelay => s.maxdly
  | .cfgSpm => s.spm
  | .cfgCapacity => BitVec.ofNat 32 s.cap
  | .lfoPhaseLo => s.phase.extractLsb' 0 32
  | .lfoPhaseHi => s.phase.extractLsb' 32 32
  | .lfoIncLo => s.inc.extractLsb' 0 32
  | .lfoIncHi => s.inc.extractLsb' 32 32
  | .hwMaxChannels => BitVec.ofNat 32 s.hw.maxChannels
  | .hwMaxFrames => BitVec.ofNat 32 s.hw.maxFrames
  | .hwMaxCapacity => BitVec.ofNat 32 s.hw.maxCapacity
  | .pTarget k => readTarget s k
  | .pCurrent k => readCurrent s k
  | .pStep k => readStep s k
  | .pRemaining k => readRemaining s k
  | .dlCursor c => BitVec.ofNat 32 (cursor s c)

/-- Is the address word aligned (20_memory.md R86)? -/
def aligned (a : Word) : Bool := decide (a.toNat % 4 = 0)

/-- HOST_READ(a): the word returned, and the state, in which only ERR_BUS can have changed (46_host_bus.md R260). -/
def hostRead (a : Word) (s : State) : Word × State :=
  if !aligned a then (0#32, raiseError .bus s)
  else
    match decodeAddr s.hw a.toNat with
    | .reg r => (readReg s r, s)
    | .inBuf c i => (inWord s c i, s)
    | .outBuf c i => (outWord s c i, s)
    | .dl c j => (dlWord s c j, s)
    | .none => (0#32, raiseError .bus s)

/-- CMD_DISPATCH(w) (45_commands.md R230): a reserved opcode raises ERR_CMD and changes nothing else. -/
def cmdDispatch (w : Word) (s : State) : Host.Outcome State Fault Refusal :=
  match decode w with
  | .command i => exec i s
  | .reserved _ => .next (raiseError .cmd s)

/-- A write to a register (46_host_bus.md R261): CMD, ARG0 and ARG1 are writable, every other register is read-only. -/
def writeReg (r : Reg) (v : Word) (s : State) : Host.Outcome State Fault Refusal :=
  match r with
  | .cmd => cmdDispatch v s
  | .arg0 => .next { s with arg0 := v }
  | .arg1 => .next { s with arg1 := v }
  | _ => .next (raiseError .bus s)

/-- HOST_WRITE(a, v) (46_host_bus.md R261). -/
def hostWrite (a v : Word) (s : State) : Host.Outcome State Fault Refusal :=
  if !aligned a then .next (raiseError .bus s)
  else
    match decodeAddr s.hw a.toNat with
    | .reg r => writeReg r v s
    | .inBuf c i => .next (setIn c i v s)
    | .outBuf _ _ => .next (raiseError .bus s)
    | .dl _ _ => .next (raiseError .bus s)
    | .none => .next (raiseError .bus s)

/-- Perform one host transaction; a read's value joins the run's observation (70_reset_and_hazards.md R322). -/
def transact (t : Txn) (s : State) : Host.Outcome State Fault Refusal :=
  match t with
  | .read a =>
    let r := hostRead a s
    .next { r.2 with reads := r.2.reads ++ [r.1] }
  | .write a v => hostWrite a v s

/-- Take the host's next transaction off the list (20_memory.md R90). -/
def nextTxn (s : State) : Option (Txn × State) :=
  match s.bus with
  | [] => none
  | t :: rest => some (t, { s with bus := rest })

/-- The bus address of CMD (10_state.md R48). -/
def cmdAddr : Word := 0x00000008#32

/-- s with a write of w to CMD as the host's next transaction. -/
def pushCommand (w : Word) (s : State) : State := { s with bus := .write cmdAddr w :: s.bus }

end Sys2Proof.Machine
end

