-- ==== Sys2Proof/Machine/Step.lean ====
section
/-! DEFINITION. One step: the host's next transaction, performed completely (00_scope.md R8, 20_memory.md R90). -/

namespace Sys2Proof.Machine

/-- One step. With no transaction pending the engine has no step of its own (00_scope.md R8), and the state stays (log
entry 3, DESIGN CHOICE). -/
def step (s : State) : Host.Outcome State Fault Refusal :=
  match nextTxn s with
  | none => .next s
  | some (t, s') => transact t s'

/-- s with the command word w as the host's very next transaction (30_encoding.md R100: a command is one 32-bit word; log
entry 7, DESIGN CHOICE). -/
def State.withFetchWord (s : State) (nbits w : Nat) : State := pushCommand (BitVec.ofNat 32 (w % 2 ^ nbits)) s

end Sys2Proof.Machine
end

