-- ==== Sys2Proof/Machine/Assembly.lean ====
section
/-! DEFINITION. The FLNG host assembly (30_encoding.md R113) and its pseudo-instructions (R114): text to transactions. What the
rules leave open of the text (spaces, letter case, a missing digit run) is the model's choice (log entry 10, DESIGN CHOICE). -/

namespace Sys2Proof.Machine

/-- A line of host assembly. `expect` is the value after `=>`, a checking aid. -/
inductive AsmLine where
  | wr (addr value : Word)
  | rd (addr : Word) (expect : Option Word)
  | command (i : Instr)
  | config (chn : Nat) (sr ms : Word)
  | param (pid : Nat) (value : Word) (ramp : Nat)
  | sample (c i : Nat) (value : Word)
  | output (c i : Nat) (expect : Option Word)
  | status (expect : Option Word)
deriving DecidableEq, Repr

/-- A command mnemonic assembles to one write of its word to CMD (30_encoding.md R113). -/
def commandTxn (i : Instr) : Txn := .write cmdAddr (encode i)

/-- The transactions of a line, each read with the value it expects (30_encoding.md R113, R114). SAMPLE and OUTPUT take every C and
I: an element outside the buffers gives the address formula's value mod 2^32, since the rule states no check (log entry 10,
DESIGN CHOICE). -/
def expandLine (hw : Params) : AsmLine → List (Txn × Option Word)
  | .wr a v => [(.write a v, none)]
  | .rd a e => [(.read a, e)]
  | .command i => [(commandTxn i, none)]
  | .config chn sr ms =>
    [(.write 0x00C#32 sr, none), (.write 0x010#32 ms, none), (commandTxn (.configure chn), none)]
  | .param pid v ramp => [(.write 0x00C#32 v, none), (commandTxn (.setp pid ramp), none)]
  | .sample c i v => [(.write (BitVec.ofNat 32 (inAddr hw c i)) v, none)]
  | .output c i e => [(.read (BitVec.ofNat 32 (outAddr hw c i)), e)]
  | .status e => [(.read 0x004#32, e)]

/-! ## Numbers (30_encoding.md R113) -/

/-- A decimal digit's value. -/
def digitVal (c : Char) : Option Nat := if '0' ≤ c ∧ c ≤ '9' then some (c.toNat - '0'.toNat) else none

/-- A hexadecimal digit's value. -/
def hexVal (c : Char) : Option Nat :=
  if 'a' ≤ c ∧ c ≤ 'f' then some (c.toNat - 'a'.toNat + 10)
  else if 'A' ≤ c ∧ c ≤ 'F' then some (c.toNat - 'A'.toNat + 10)
  else digitVal c

/-- Digits in a base, added on to a value; none at the first character that is no digit. -/
def digitsFrom (base : Nat) (val : Char → Option Nat) : List Char → Nat → Option Nat
  | [], acc => some acc
  | c :: cs, acc =>
    match val c with
    | some d => digitsFrom base val cs (acc * base + d)
    | none => none

/-- A non-empty run of decimal digits. -/
def decimalNat (cs : List Char) : Option Nat := if cs = [] then none else digitsFrom 10 digitVal cs 0

/-- The F32 nearest to ± digits · 10^exp10, roundTiesToEven (30_encoding.md R113). -/
def decimalF32 (neg : Bool) (digits : Nat) (exp10 : Int) : F32 :=
  round32 (.ratio neg (digits * 10 ^ exp10.toNat * 2 ^ binary32.unitExp) (10 ^ (-exp10).toNat))

/-- The exponent of a decimal literal: digits with an optional sign. -/
def exponentOf : List Char → Option Int
  | '-' :: cs => (decimalNat cs).map (fun n => -(n : Int))
  | '+' :: cs => (decimalNat cs).map (fun n => (n : Int))
  | cs => (decimalNat cs).map (fun n => (n : Int))

/-- The characters before the first one that satisfies p, and those after it; none where there is no such one. -/
def splitAtFirst (p : Char → Bool) : List Char → Option (List Char × List Char)
  | [] => none
  | c :: cs => if p c then some ([], cs) else (splitAtFirst p cs).map (fun r => (c :: r.1, r.2))

/-- A decimal with a point or an exponent, its sign taken off: digits and decimal exponent. -/
def decimalParts (cs : List Char) : Option (Nat × Int) :=
  let cut := splitAtFirst (fun c => c == 'e' || c == 'E') cs
  let mantissa := match cut with | some r => r.1 | none => cs
  let exponent := match cut with | some r => exponentOf r.2 | none => some 0
  let point := splitAtFirst (fun c => c == '.') mantissa
  let whole := match point with | some r => r.1 | none => mantissa
  let fraction := match point with | some r => r.2 | none => []
  match exponent, decimalNat (whole ++ fraction) with
  | some e, some n => some (n, e - fraction.length)
  | _, _ => none

/-- Has the literal a point or an exponent? -/
def isDecimalFraction (cs : List Char) : Bool := cs.any (fun c => c == '.' || c == 'e' || c == 'E')

/-- A number: a hexadecimal word, an unsigned decimal word, or an F32 literal as its bit pattern (30_encoding.md R113). -/
def numberOf : List Char → Option Word
  | '0' :: 'x' :: cs =>
    match (if cs = [] then none else digitsFrom 16 hexVal cs 0) with
    | some n => if n < 2 ^ 32 then some (BitVec.ofNat 32 n) else none
    | none => none
  | '-' :: cs =>
    if isDecimalFraction cs then (decimalParts cs).map (fun r => decimalF32 true r.1 r.2) else none
  | cs =>
    if isDecimalFraction cs then (decimalParts cs).map (fun r => decimalF32 false r.1 r.2)
    else
      match decimalNat cs with
      | some n => if n < 2 ^ 32 then some (BitVec.ofNat 32 n) else none
      | none => none

/-! ## Lines -/

/-- The text before a `;` (30_encoding.md R113: it starts a comment). -/
def withoutComment : List Char → List Char
  | [] => []
  | c :: cs => if c = ';' then [] else c :: withoutComment cs

/-- Add a finished word (its characters reversed) in front of the tokens, if it is not empty. -/
def addWord (rev : List Char) (tokens : List (List Char)) : List (List Char) :=
  if rev = [] then tokens else rev.reverse :: tokens

/-- The words and commas of a line; `rev` is the word read so far, reversed. -/
def tokensFrom : List Char → List Char → List (List Char)
  | [], rev => addWord rev []
  | c :: cs, rev =>
    if c = ' ' ∨ c = '\t' ∨ c = '\r' then addWord rev (tokensFrom cs [])
    else if c = ',' then addWord rev ([','] :: tokensFrom cs [])
    else tokensFrom cs (c :: rev)

/-- The parameter names of 30_encoding.md R104 and R114. -/
def pidOfName (name : String) : Option Nat :=
  if name = "rate" then some 0
  else if name = "delay" then some 1
  else if name = "depth" then some 2
  else if name = "feedback" then some 3
  else if name = "dryMix" then some 4
  else if name = "wetMix" then some 5
  else if name = "negativeFeedback" then some 6
  else if name = "odd90" then some 7
  else none

/-- A command the assembler accepts: its fields in range (30_encoding.md R113). -/
def checkedCommand (i : Instr) : Option AsmLine := if i.WellFormed then some (.command i) else none

/-- A PARAM line: RAMP in its field's range, and a boolean's VALUE 0 or 1 (30_encoding.md R114). -/
def checkedParam (pid : Nat) (v : Word) (ramp : Nat) : Option AsmLine :=
  if ramp < 2 ^ 20 ∧ (pid < 6 ∨ v.toNat < 2) then some (.param pid v ramp) else none

/-- A line with no `=>`: its mnemonic and its operands, the commas taken out. -/
def plainLine (mnemonic : String) (args : List (List Char)) : Option AsmLine :=
  match mnemonic, args with
  | "PARAM", name :: vs =>
    match pidOfName (String.ofList name), vs.map numberOf with
    | some pid, [some v] => checkedParam pid v 0
    | some pid, [some v, some r] => checkedParam pid v r.toNat
    | _, _ => none
  | m, vs =>
    match m, vs.map numberOf with
    | "wr", [some a, some v] => some (.wr a v)
    | "rd", [some a] => some (.rd a none)
    | "nop", [] => some (.command .nop)
    | "configure", [some n] => checkedCommand (.configure n.toNat)
    | "setp", [some p, some r] => checkedCommand (.setp p.toNat r.toNat)
    | "render", [some n] => checkedCommand (.render n.toNat 0)
    | "render", [some n, some b] => checkedCommand (.render n.toNat b.toNat)
    | "clrerr", [] => some (.command .clrerr)
    | "reset", [] => some (.command .reset)
    | "CONFIG", [some n, some sr, some ms] => if n.toNat < 2 ^ 8 then some (.config n.toNat sr ms) else none
    | "SAMPLE", [some c, some i, some v] => some (.sample c.toNat i.toNat v)
    | "RENDER", [some n] => checkedCommand (.render n.toNat 0)
    | "OUTPUT", [some c, some i] => some (.output c.toNat i.toNat none)
    | "STATUS", [] => some (.status none)
    | _, _ => none

/-- A read with the value it expects after `=>`. -/
def withExpected (line : Option AsmLine) (e : Word) : Option AsmLine :=
  match line with
  | some (.rd a _) => some (.rd a (some e))
  | some (.output c i _) => some (.output c i (some e))
  | some (.status _) => some (.status (some e))
  | _ => none

/-- Operands separated by single commas; none where a comma is missing or misplaced. -/
def operands : List (List Char) → Option (List (List Char))
  | [] => some []
  | [x] => if x = [','] then none else some [x]
  | x :: sep :: rest =>
    if x = [','] ∨ sep ≠ [','] ∨ rest = [] then none else (operands rest).map (fun xs => x :: xs)

/-- One line: `some none` where it holds no transaction, `none` where it is no line of the language. -/
def parseLine (text : String) : Option (Option AsmLine) :=
  match tokensFrom (withoutComment text.toList) [] with
  | [] => some none
  | m :: toks =>
    let line := fun args => (operands args).bind (plainLine (String.ofList m))
    match toks.reverse with
    | e :: ['=', '>'] :: rest =>
      match numberOf e with
      | some v => (withExpected (line rest.reverse) v).map some
      | none => none
    | _ => (line toks).map some

/-- A program: the transactions of its lines in order (30_encoding.md R113, 70_reset_and_hazards.md R322); none where a line
is no line of the language. -/
def assemble (hw : Params) : List String → Option (List (Txn × Option Word))
  | [] => some []
  | l :: ls =>
    match parseLine l, assemble hw ls with
    | some none, some rest => some rest
    | some (some line), some rest => some (expandLine hw line ++ rest)
    | _, _ => none

end Sys2Proof.Machine
end

