-- ==== Sys2Proof/Safety.lean ====
section
/-! DEFINITION. What claims about the block speak of: the state invariant of 10_state.md R47, value ranges, and
error-free states. -/

namespace Sys2Proof.Machine

/-- The state with IN, OUT, DL and the write cursors blanked: two states that agree on it differ at most in those. -/
def withoutStorage (s : State) : State := { s with mem := [], cursors := [] }

/-- The state with IN, OUT, DL, the write cursors and PHASE blanked: all that a frame may change. -/
def withoutFrame (s : State) : State := { s with mem := [], cursors := [], phase := 0#64 }

/-- The state with IN, OUT, DL, the write cursors, PHASE, INC and the six smoothers blanked: all that a render may change
(44_render_engine.md R207). Two states that agree on it have the same ARG0, ARG1, CONFIGURED, CH, CAP, SR, MAXDLY, SPM, NEGFB,
ODD90, error flags, implementation parameters, pending transactions and observations. -/
def withoutRender (s : State) : State :=
  { s with mem := [], cursors := [], phase := 0#64, inc := 0#64, smoothers := (State.resetWith s.hw).smoothers }

/-- An F32 that is not a NaN other than the canonical one (00_scope.md R14). -/
abbrev canonical32 (x : F32) : Prop := isNaN32 x = true → x = nan32

/-- `0 ≤ PHASE < 1`, and PHASE is not -0 (10_state.md R47 (e)). -/
abbrev phaseInUnit (p : F64) : Prop := le64 zero64 p = true ∧ lt64 p one64 = true ∧ p.msb = false

/-- An increment that keeps the phase: finite, ≥ +0 and not -0 (41_lfo.md R153). -/
abbrev incOk (i : F64) : Prop := isFinite64 i = true ∧ i.msb = false

/-- The bytes of the decoded parts of the IN, OUT and DL windows (20_memory.md R82). -/
abbrev mappedByte (hw : Params) (a : Nat) : Prop :=
  (inBase ≤ a ∧ a < inBase + 4 * (hw.maxChannels * hw.maxFrames)) ∨
  (outBase ≤ a ∧ a < outBase + 4 * (hw.maxChannels * hw.maxFrames)) ∨
  (dlBase ≤ a ∧ a < dlBase + 4 * (hw.maxChannels * hw.maxCapacity))

/-- What every reachable smoother satisfies: TGT and CUR in range, STEP finite, REM < 2^20; a smoother at rest has CUR = TGT and
STEP = +0 (10_state.md R42, R47 (f); 42_smoother.md R171). -/
structure SmootherInv (k : ScalarId) (sm : Smoother) : Prop where
  tgt_range : inRange k sm.tgt
  cur_range : inRange k sm.cur
  step_finite : isFinite32 sm.step = true
  rem_lt : sm.rem < 2 ^ 20
  settled : sm.rem = 0 → sm.cur = sm.tgt ∧ sm.step = zero32

/-- What holds once CONFIGURED is 1 (10_state.md R34, R37, R47 (b)). -/
structure ConfigInv (s : State) : Prop where
  ch_pos : 1 ≤ s.ch
  ch_le : s.ch ≤ s.hw.maxChannels
  cap_pos : 1 ≤ s.cap
  cap_le : s.cap ≤ s.hw.maxCapacity
  sr_ok : isFinite32 s.sr = true ∧ lt32 zero32 s.sr = true
  maxdly_ok : isFinite32 s.maxdly = true ∧ s.maxdly.msb = false
  spm_eq : s.spm = spmOf s.sr
  prod_finite : isFinite32 (mul32 s.maxdly s.spm) = true
  cap_eq : s.cap = capacityOf s.maxdly s.spm
  cursor_lt : ∀ c, cursor s c < s.cap

/-- The state invariant: 10_state.md R47 (a) to (f), and the canonical form of the memory. -/
structure State.Inv (s : State) : Prop where
  hw_legal : s.hw.Legal
  mem_wf : s.mem.wf
  mem_mapped : ∀ cell ∈ s.mem, mappedByte s.hw cell.1
  cursors_length : s.cursors.length = s.hw.maxChannels
  unconfigured : s.configured = false → s.ch = 0 ∧ s.cap = 0 ∧ s.sr = zero32 ∧ s.maxdly = zero32 ∧ s.spm = zero32
  config : s.configured = true → ConfigInv s
  cursors_equal : ∀ c, c < s.ch → cursor s c = cursor s 0
  cursors_idle : ∀ c, s.ch ≤ c → cursor s c = 0
  dl_idle : ∀ c j, c < s.hw.maxChannels → j < s.hw.maxCapacity → (s.ch ≤ c ∨ s.cap ≤ j) → dlWord s c j = zero32
  phase_unit : phaseInUnit s.phase
  smoothers_ok : ∀ k, SmootherInv k (smoother s k)

/-- Every NaN in the OUT and DL buffers is the canonical one (46_host_bus.md R260, 00_scope.md R14). -/
abbrev CanonicalBuffers (s : State) : Prop :=
  (∀ c i, c < s.hw.maxChannels → i < s.hw.maxFrames → canonical32 (outWord s c i)) ∧
  (∀ c j, c < s.hw.maxChannels → j < s.hw.maxCapacity → canonical32 (dlWord s c j))

/-- No ramp is pending (42_smoother.md R176). -/
abbrev noRamp (s : State) : Prop := ∀ k, (smoother s k).rem = 0

/-- No error flag is set: a run that stays here had every command and transaction accepted (60_exceptions.md R280). -/
abbrev noError (s : State) : Prop := ∀ e, flag s e = false

/-- The bits of a command word with opcode `op` that any rule reads: R110's ignored fields and BUS are left out
(30_encoding.md R105, R110). -/
def examinedBits (op : Nat) : Word :=
  match op with
  | 0 => 0xFF000000#32
  | 1 => 0xFF0000FF#32
  | 3 => 0xFF00FFFF#32
  | 4 => 0xFF000000#32
  | 5 => 0xFF000000#32
  | _ => 0xFFFFFFFF#32

/-- Put frame i's input, taken from `src`, into column 0 of IN for every configured channel: what the host does before each of
the single-frame renders of 44_render_engine.md R210 (e). -/
def loadColumn (src : State) (i : Nat) (s : State) : State := forUpTo s.ch (fun c => setIn c 0 (inWord src c i)) s

/-- A zero of either sign (44_render_engine.md R210 (a)). -/
abbrev isZero32 (x : F32) : Prop := x = zero32 ∨ x = 0x80000000#32

end Sys2Proof.Machine
end

