-- ==== Sys2Proof/Certificates/Slice0/Obligations.lean ====
section
/-! DEFINITION. The statements for the provers. Each docstring names the rules of spec/ it rests on. -/

open Sys2Proof Sys2Proof.Machine

/-! ## Encoding -/

/-- Decoding the word of a well-formed command gives the command back, every field at every value (30_encoding.md R100 to
R106). -/
def Obligations.DecodeOfEncode : Prop := ∀ i : Instr, i.WellFormed → decode (encode i) = .command i

/-- A word that decodes to a command is that command's word, but for the ignored bits (30_encoding.md R100, R110). -/
def Obligations.EncodeOfDecode : Prop :=
  ∀ (w : Word) (i : Instr), decode w = .command i → i.WellFormed ∧ encode i = w &&& meaningfulBits i

/-- R112: every word decodes to one of the six commands or to the reserved class, by `w[31:24]` alone; the fields are those of
R102, R103 and R105. -/
def Obligations.DecodeByOpcodeAlone : Prop :=
  ∀ w : Word,
    (w.toNat / 2 ^ 24 = 0 → decode w = .command .nop) ∧
    (w.toNat / 2 ^ 24 = 1 → decode w = .command (.configure (w.toNat % 2 ^ 8))) ∧
    (w.toNat / 2 ^ 24 = 2 → decode w = .command (.setp (w.toNat % 2 ^ 4) (w.toNat / 2 ^ 4 % 2 ^ 20))) ∧
    (w.toNat / 2 ^ 24 = 3 → decode w = .command (.render (w.toNat % 2 ^ 16) (w.toNat / 2 ^ 16 % 2 ^ 8))) ∧
    (w.toNat / 2 ^ 24 = 4 → decode w = .command .clrerr) ∧
    (w.toNat / 2 ^ 24 = 5 → decode w = .command .reset) ∧
    (6 ≤ w.toNat / 2 ^ 24 → decode w = .reserved (w.toNat / 2 ^ 24))

/-- R110, R105: two words of one opcode that agree on the examined bits do the same in every state. -/
def Obligations.IgnoredBitsHaveNoEffect : Prop :=
  ∀ (w w' : Word) (s : State),
    w &&& examinedBits (w.toNat / 2 ^ 24) = w' &&& examinedBits (w.toNat / 2 ^ 24) → cmdDispatch w s = cmdDispatch w' s

/-- R113: the word each command mnemonic assembles to. -/
def Obligations.AssembledCommandWords : Prop :=
  encode .nop = 0x00000000#32 ∧ encode .clrerr = 0x04000000#32 ∧ encode .reset = 0x05000000#32 ∧
  (∀ chn, chn < 256 → encode (.configure chn) = 0x01000000#32 ||| BitVec.ofNat 32 chn) ∧
  (∀ pid ramp, pid < 16 → ramp < 2 ^ 20 →
    encode (.setp pid ramp) = 0x02000000#32 ||| (BitVec.ofNat 32 ramp <<< 4) ||| BitVec.ofNat 32 pid) ∧
  (∀ nfr bus, nfr < 65536 → bus < 256 →
    encode (.render nfr bus) = 0x03000000#32 ||| (BitVec.ofNat 32 bus <<< 16) ||| BitVec.ofNat 32 nfr)

/-- A few words of the spec's examples decode to the commands they stand for (45_commands.md, 95_test_vectors.md T-CMD). -/
def Obligations.ExampleWordsDecode : Prop :=
  decode 0x00ABCDEF#32 = .command .nop ∧ decode 0x01000001#32 = .command (.configure 1) ∧
  decode 0x02000044#32 = .command (.setp 4 4) ∧ decode 0x03FF0008#32 = .command (.render 8 255) ∧
  decode 0x04000000#32 = .command .clrerr ∧ decode 0x05000000#32 = .command .reset ∧
  decode 0xFF123456#32 = .reserved 255

/-! ## Steps and the bus -/

/-- When the host's next transaction writes a word to CMD and the word decodes to a command, the step is exec of that command, at
the state with the transaction taken off the list (45_commands.md R230, 46_host_bus.md R261). -/
def Obligations.StepRunsDecodedCommand : Prop :=
  ∀ (s : State) (rest : List Txn) (w : Word) (i : Instr),
    s.bus = .write cmdAddr w :: rest → decode w = .command i → step s = exec i { s with bus := rest }

/-- R109: a CMD write with a reserved opcode sets ERR_CMD and changes nothing else. -/
def Obligations.ReservedOpcodeOnlySetsErrCmd : Prop :=
  ∀ (s : State) (rest : List Txn) (w : Word),
    s.bus = .write cmdAddr w :: rest → 6 ≤ w.toNat / 2 ^ 24 → step s = .next { s with bus := rest, errCmd := true }

/-- R322, R280: no step faults or is refused; each performs the oldest pending transaction and leaves the implementation
parameters. That a step with nothing pending answers the same state is the model's choice (log entry 3, DESIGN CHOICE). -/
def Obligations.EveryStepCompletes : Prop :=
  ∀ s : State, ∃ t, step s = .next t ∧ t.bus = s.bus.tail ∧ t.hw = s.hw ∧
    (∀ txn rest, s.bus = txn :: rest → transact txn { s with bus := rest } = .next t) ∧
    (s.bus = [] → t = s)

/-- R86: a misaligned read returns 0 and sets ERR_BUS; a misaligned write sets ERR_BUS; nothing else changes. -/
def Obligations.MisalignedTransaction : Prop :=
  ∀ (s : State) (rest : List Txn) (a v : Word), a.toNat % 4 ≠ 0 →
    (s.bus = .read a :: rest → step s = .next { s with bus := rest, errBus := true, reads := s.reads ++ [0#32] }) ∧
    (s.bus = .write a v :: rest → step s = .next { s with bus := rest, errBus := true })

/-- R57: a read of a reserved register offset returns 0 and sets ERR_BUS; a write only sets ERR_BUS. -/
def Obligations.ReservedOffset : Prop :=
  ∀ (s : State) (rest : List Txn) (a v : Word), a.toNat % 4 = 0 →
    (0x044 ≤ a.toNat ∧ a.toNat ≤ 0x07C) ∨ (0x100 ≤ a.toNat ∧ a.toNat ≤ 0x3FC) ∨
      (0x400 + 4 * s.hw.maxChannels ≤ a.toNat ∧ a.toNat ≤ 0xFFC) →
    (s.bus = .read a :: rest → step s = .next { s with bus := rest, errBus := true, reads := s.reads ++ [0#32] }) ∧
    (s.bus = .write a v :: rest → step s = .next { s with bus := rest, errBus := true })

/-- R82, R83: an access to an aligned unmapped address, the undecoded ends of the windows among them, only sets ERR_BUS, and a
read returns 0. -/
def Obligations.UnmappedAddress : Prop :=
  ∀ (s : State) (rest : List Txn) (a v : Word), a.toNat % 4 = 0 → 0x1000 ≤ a.toNat → ¬ mappedByte s.hw a.toNat →
    (s.bus = .read a :: rest → step s = .next { s with bus := rest, errBus := true, reads := s.reads ++ [0#32] }) ∧
    (s.bus = .write a v :: rest → step s = .next { s with bus := rest, errBus := true })

/-- R48, R84, R261: a write to a read-only register, to OUT or to the DL view only sets ERR_BUS. -/
def Obligations.WriteToReadOnlyTarget : Prop :=
  ∀ (s : State) (rest : List Txn) (a v : Word), a.toNat % 4 = 0 →
    a.toNat = 0x000 ∨ a.toNat = 0x004 ∨ (0x014 ≤ a.toNat ∧ a.toNat ≤ 0x040) ∨ (0x080 ≤ a.toNat ∧ a.toNat ≤ 0x0FC) ∨
      (0x400 ≤ a.toNat ∧ a.toNat < 0x400 + 4 * s.hw.maxChannels ∧ a.toNat < 0x1000) ∨
      (0x00200000 ≤ a.toNat ∧ a.toNat < 0x00300000) ∨ (0x00400000 ≤ a.toNat ∧ a.toNat < 0x00800000) →
    s.bus = .write a v :: rest → step s = .next { s with bus := rest, errBus := true }

/-- R84: the DL view: a read of DL[c][j] returns its word and changes nothing but the observation; a write only sets ERR_BUS. -/
def Obligations.DelayLineView : Prop :=
  ∀ (s : State) (rest : List Txn) (c j : Nat) (v : Word), s.hw.Legal → c < s.hw.maxChannels → j < s.hw.maxCapacity →
    (s.bus = .read (BitVec.ofNat 32 (dlAddr s.hw c j)) :: rest →
      step s = .next { s with bus := rest, reads := s.reads ++ [dlWord s c j] }) ∧
    (s.bus = .write (BitVec.ofNat 32 (dlAddr s.hw c j)) v :: rest →
      step s = .next { s with bus := rest, errBus := true })

/-- R82, R260: a read of IN[c][i] or OUT[c][i] returns its word and changes nothing but the observation. -/
def Obligations.BufferReads : Prop :=
  ∀ (s : State) (rest : List Txn) (c i : Nat), s.hw.Legal → c < s.hw.maxChannels → i < s.hw.maxFrames →
    (s.bus = .read (BitVec.ofNat 32 (inAddr s.hw c i)) :: rest →
      step s = .next { s with bus := rest, reads := s.reads ++ [inWord s c i] }) ∧
    (s.bus = .read (BitVec.ofNat 32 (outAddr s.hw c i)) :: rest →
      step s = .next { s with bus := rest, reads := s.reads ++ [outWord s c i] })

/-- R45, R261: a write to IN[c][i] stores the raw word there; every other byte of memory and every register is unchanged. -/
def Obligations.InputWriteStoresRawWord : Prop :=
  ∀ (s : State) (rest : List Txn) (c i : Nat) (v : Word),
    s.hw.Legal → s.mem.wf → c < s.hw.maxChannels → i < s.hw.maxFrames →
    s.bus = .write (BitVec.ofNat 32 (inAddr s.hw c i)) v :: rest →
    ∃ t, step s = .next t ∧ inWord t c i = v ∧
      (∀ a, ¬ (inAddr s.hw c i ≤ a ∧ a < inAddr s.hw c i + 4) → readByte t.mem a = readByte s.mem a) ∧
      t = { s with bus := rest, mem := t.mem }

/-- R51: ARG0 and ARG1 take any value and read back as written; nothing else changes. -/
def Obligations.ArgumentsReadBack : Prop :=
  ∀ (s : State) (rest : List Txn) (v : Word),
    (s.bus = .write 0x00C#32 v :: .read 0x00C#32 :: rest →
      ∃ t, step s = .next t ∧ t = { s with bus := .read 0x00C#32 :: rest, arg0 := v } ∧
        step t = .next { t with bus := rest, reads := s.reads ++ [v] }) ∧
    (s.bus = .write 0x010#32 v :: .read 0x010#32 :: rest →
      ∃ t, step s = .next t ∧ t = { s with bus := .read 0x010#32 :: rest, arg1 := v } ∧
        step t = .next { t with bus := rest, reads := s.reads ++ [v] })

/-- R49, R262: a read of STATUS shows CONFIGURED in bit 0, the five flags in bits 1 to 5 and 0 above, and clears no flag. -/
def Obligations.StatusRead : Prop :=
  ∀ (s : State) (rest : List Txn), s.bus = .read 0x004#32 :: rest →
    ∃ w : Word, step s = .next { s with bus := rest, reads := s.reads ++ [w] } ∧
      w.getLsbD 0 = s.configured ∧ w.getLsbD 1 = s.errCmd ∧ w.getLsbD 2 = s.errCfg ∧ w.getLsbD 3 = s.errParam ∧
      w.getLsbD 4 = s.errRender ∧ w.getLsbD 5 = s.errBus ∧ ∀ k, 6 ≤ k → w.getLsbD k = false

/-- R48, R50, R52, R53, R56: what the fixed registers read as; a register read changes nothing but the observation. -/
def Obligations.FixedRegisterReads : Prop :=
  ∀ (s : State) (rest : List Txn) (r : Nat × Word),
    r ∈ ([(0x000, 0x464C4E47#32), (0x008, 0#32), (0x00C, s.arg0), (0x010, s.arg1), (0x014, BitVec.ofNat 32 s.ch),
      (0x018, s.sr), (0x01C, s.maxdly), (0x020, s.spm), (0x024, BitVec.ofNat 32 s.cap),
      (0x028, s.phase.extractLsb' 0 32), (0x02C, s.phase.extractLsb' 32 32),
      (0x030, s.inc.extractLsb' 0 32), (0x034, s.inc.extractLsb' 32 32),
      (0x038, BitVec.ofNat 32 s.hw.maxChannels), (0x03C, BitVec.ofNat 32 s.hw.maxFrames),
      (0x040, BitVec.ofNat 32 s.hw.maxCapacity)] : List (Nat × Word)) →
    s.bus = .read (BitVec.ofNat 32 r.1) :: rest →
    step s = .next { s with bus := rest, reads := s.reads ++ [r.2] }

/-- R54, R55: what the P_* registers of each parameter and the DL_CURSOR registers read as. -/
def Obligations.ParameterRegisterReads : Prop :=
  ∀ (s : State) (rest : List Txn),
    (∀ (p : Nat × ScalarId) (r : Nat × Word),
      p ∈ ([(0, .rate), (1, .delay), (2, .depth), (3, .feedback), (4, .dryMix), (5, .wetMix)] : List (Nat × ScalarId)) →
      r ∈ ([(0x080, (smoother s p.2).tgt), (0x084, (smoother s p.2).cur), (0x088, (smoother s p.2).step),
        (0x08C, BitVec.ofNat 32 (smoother s p.2).rem)] : List (Nat × Word)) →
      s.bus = .read (BitVec.ofNat 32 (r.1 + 16 * p.1)) :: rest →
      step s = .next { s with bus := rest, reads := s.reads ++ [r.2] }) ∧
    (∀ (r : Nat × Word),
      r ∈ ([(0x0E0, BitVec.ofNat 32 s.negfb.toNat), (0x0E4, BitVec.ofNat 32 s.negfb.toNat), (0x0E8, 0#32), (0x0EC, 0#32),
        (0x0F0, BitVec.ofNat 32 s.odd90.toNat), (0x0F4, BitVec.ofNat 32 s.odd90.toNat), (0x0F8, 0#32),
        (0x0FC, 0#32)] : List (Nat × Word)) →
      s.bus = .read (BitVec.ofNat 32 r.1) :: rest →
      step s = .next { s with bus := rest, reads := s.reads ++ [r.2] }) ∧
    (∀ c, s.hw.Legal → c < s.hw.maxChannels → s.bus = .read (BitVec.ofNat 32 (0x400 + 4 * c)) :: rest →
      step s = .next { s with bus := rest, reads := s.reads ++ [BitVec.ofNat 32 (cursor s c)] })

/-- R89: a read changes nothing but the observation and, on an error, ERR_BUS; two reads of one address in a row return the same
value. -/
def Obligations.ReadsAreIdempotent : Prop :=
  ∀ (s : State) (rest : List Txn) (a : Word), s.bus = .read a :: .read a :: rest →
    ∃ (v : Word) (e : Bool), (s.errBus = true → e = true) ∧
      step s = .next { s with bus := .read a :: rest, errBus := e, reads := s.reads ++ [v] } ∧
      step { s with bus := .read a :: rest, errBus := e, reads := s.reads ++ [v] }
        = .next { s with bus := rest, errBus := e, reads := s.reads ++ [v] ++ [v] }

/-! ## Commands -/

/-- R231: NOP changes nothing; every word with opcode 0 is a NOP, whatever its other bits. -/
def Obligations.NopChangesNothing : Prop :=
  ∀ s : State, exec .nop s = .next s ∧
    ∀ (rest : List Txn) (w : Word), s.bus = .write cmdAddr w :: rest → w.toNat < 2 ^ 24 →
      step s = .next { s with bus := rest }

/-- R236: CLRERR clears the five error flags and nothing else; STATUS then shows CONFIGURED alone. -/
def Obligations.ClrerrClearsFlagsOnly : Prop :=
  ∀ s : State, ∃ t, exec .clrerr s = .next t ∧
    t = { s with errCmd := false, errCfg := false, errParam := false, errRender := false, errBus := false } ∧
    statusWord t = BitVec.ofNat 32 s.configured.toNat

/-- R237, R301: RESET gives every state element its reset value; it is the power-on reset. That it leaves the host's transactions
and the observations (log entry 2, DESIGN CHOICE), and that the implementation parameters are a field it leaves, with the defaults
at State.reset (log entry 1, DESIGN CHOICE), is the model's choice. -/
def Obligations.ResetGivesResetValues : Prop :=
  ∀ s : State, ∃ t, exec .reset s = .next t ∧
    t.arg0 = 0#32 ∧ t.arg1 = 0#32 ∧ t.configured = false ∧ t.ch = 0 ∧ t.cap = 0 ∧
    t.sr = 0#32 ∧ t.maxdly = 0#32 ∧ t.spm = 0#32 ∧ (∀ a, readByte t.mem a = 0#8) ∧ (∀ c, cursor t c = 0) ∧
    t.phase = 0#64 ∧ t.inc = 0#64 ∧ (∀ k, smoother t k = { tgt := 0#32, cur := 0#32, step := 0#32, rem := 0 }) ∧
    t.negfb = false ∧ t.odd90 = false ∧ noError t ∧ statusWord t = 0#32 ∧
    t.hw = s.hw ∧ t.bus = s.bus ∧ t.reads = s.reads ∧
    (s.hw = Params.default → t = { State.reset with bus := s.bus, reads := s.reads })

/-- R301: the state after power-on reset. The parameters of the implementation are the defaults of R6 (the model's choice, log
entry 1), and no transaction is pending (log entry 2). -/
def Obligations.PowerOnState : Prop :=
  State.reset.arg0 = 0#32 ∧ State.reset.arg1 = 0#32 ∧ State.reset.configured = false ∧ State.reset.ch = 0 ∧
  State.reset.cap = 0 ∧ State.reset.sr = 0#32 ∧ State.reset.maxdly = 0#32 ∧ State.reset.spm = 0#32 ∧
  (∀ a, readByte State.reset.mem a = 0#8) ∧ (∀ c, cursor State.reset c = 0) ∧ State.reset.phase = 0#64 ∧
  State.reset.inc = 0#64 ∧ (∀ k, smoother State.reset k = { tgt := 0#32, cur := 0#32, step := 0#32, rem := 0 }) ∧
  State.reset.negfb = false ∧ State.reset.odd90 = false ∧ noError State.reset ∧ statusWord State.reset = 0#32 ∧
  State.reset.hw = { maxChannels := 8, maxFrames := 8192, maxCapacity := 65536 } ∧ State.reset.bus = []

/-- R232, R130, R155: a CONFIGURE that passes the five checks stores the configuration, zeroes every delay-line word, every cursor
and the LFO, and changes nothing else: parameters, IN, OUT, the flags and ARG0/ARG1 stay. -/
def Obligations.ConfigureAccepted : Prop :=
  ∀ (s : State) (chn : Nat),
    let md := if eq32 s.arg1 zero32 = true then zero32 else s.arg1
    let spm := div32 s.arg0 thousand32
    1 ≤ chn → chn ≤ s.hw.maxChannels →
    isFinite32 s.arg0 = true → lt32 zero32 s.arg0 = true → isFinite32 s.arg1 = true → le32 zero32 s.arg1 = true →
    isFinite32 (mul32 md spm) = true → ceilNat (mul32 md spm) + 1 ≤ s.hw.maxCapacity →
    ∃ t, exec (.configure chn) s = .next t ∧
      t = { s with configured := true, ch := chn, sr := s.arg0, maxdly := md, spm := spm,
                   cap := ceilNat (mul32 md spm) + 1, phase := zero64, inc := zero64,
                   mem := t.mem, cursors := t.cursors } ∧
      t.cursors.length = s.hw.maxChannels ∧ (∀ c, cursor t c = 0) ∧
      ∀ a, readByte t.mem a =
        if dlBase ≤ a ∧ a < dlBase + 4 * (s.hw.maxChannels * s.hw.maxCapacity) then 0#8 else readByte s.mem a

/-- R232, R281: a CONFIGURE that fails any of the five checks sets ERR_CFG and changes nothing else. -/
def Obligations.ConfigureRejected : Prop :=
  ∀ (s : State) (chn : Nat),
    let md := if eq32 s.arg1 zero32 = true then zero32 else s.arg1
    let spm := div32 s.arg0 thousand32
    (chn < 1 ∨ s.hw.maxChannels < chn ∨ ¬ (isFinite32 s.arg0 = true ∧ lt32 zero32 s.arg0 = true) ∨
      ¬ (isFinite32 s.arg1 = true ∧ le32 zero32 s.arg1 = true) ∨ isFinite32 (mul32 md spm) = false ∨
      s.hw.maxCapacity < ceilNat (mul32 md spm) + 1) →
    exec (.configure chn) s = .next { s with errCfg := true }

/-- R233, R171: SET_PARAM of a scalar with a finite ARG0 loads the clamped value as the target, at once (RAMP 0) or as a ramp of
RAMP frames from the current value; nothing else changes. -/
def Obligations.SetScalarParameter : Prop :=
  ∀ (s : State) (p : Nat × ScalarId) (ramp : Nat),
    p ∈ ([(0, .rate), (1, .delay), (2, .depth), (3, .feedback), (4, .dryMix), (5, .wetMix)] : List (Nat × ScalarId)) →
    isFinite32 s.arg0 = true →
    ∃ t, exec (.setp p.1 ramp) s = .next t ∧ t = { s with smoothers := t.smoothers } ∧
      (∀ j, j ≠ p.2 → smoother t j = smoother s j) ∧
      smoother t p.2 =
        (if ramp = 0 then
          { tgt := clampP p.2 s.arg0, cur := clampP p.2 s.arg0, step := zero32, rem := 0 }
        else
          { tgt := clampP p.2 s.arg0, cur := (smoother s p.2).cur,
            step := div32 (sub32 (clampP p.2 s.arg0) (smoother s p.2).cur) (toF32 ramp), rem := ramp })

/-- R234: SET_PARAM of a boolean takes ARG0[0] and ignores RAMP; nothing else changes. -/
def Obligations.SetBooleanParameter : Prop :=
  ∀ (s : State) (ramp : Nat),
    exec (.setp 6 ramp) s = .next { s with negfb := decide (s.arg0.toNat % 2 = 1) } ∧
    exec (.setp 7 ramp) s = .next { s with odd90 := decide (s.arg0.toNat % 2 = 1) }

/-- R233: a reserved id, or a non-finite value for a scalar, sets ERR_PARAM and changes nothing else. -/
def Obligations.SetParameterRejected : Prop :=
  ∀ (s : State) (pid ramp : Nat), 8 ≤ pid ∨ (pid < 6 ∧ isFinite32 s.arg0 = false) →
    exec (.setp pid ramp) s = .next { s with errParam := true }

/-- R235, R283: a RENDER of more frames than the buffers hold, or of one or more while unconfigured, only sets ERR_RENDER; a
RENDER of 0 frames changes nothing in any state. -/
def Obligations.RenderRejectedOrEmpty : Prop :=
  ∀ (s : State) (n bus : Nat),
    (s.hw.maxFrames < n ∨ (1 ≤ n ∧ s.configured = false) → exec (.render n bus) s = .next { s with errRender := true }) ∧
    exec (.render 0 bus) s = .next s

/-- R235, R207, R208: an accepted RENDER of n frames completes. It stores to OUT[c][i] for c < CH, i < n and to the rings of the
channels c < CH; every other byte, all of IN among them, and every register but the cursors, PHASE, INC and the smoothers is
unchanged. -/
def Obligations.RenderFrame : Prop :=
  ∀ (s : State) (n bus : Nat), s.Inv → s.configured = true → 1 ≤ n → n ≤ s.hw.maxFrames →
    ∃ t, exec (.render n bus) s = .next t ∧ withoutRender t = withoutRender s ∧
      (∀ a, (∀ c i, c < s.ch → i < n → ¬ (outAddr s.hw c i ≤ a ∧ a < outAddr s.hw c i + 4)) →
        (∀ c j, c < s.ch → j < s.cap → ¬ (dlAddr s.hw c j ≤ a ∧ a < dlAddr s.hw c j + 4)) →
        readByte t.mem a = readByte s.mem a) ∧
      ∀ c i, c < s.hw.maxChannels → i < s.hw.maxFrames → inWord t c i = inWord s c i

/-- R207, R153, R156: a RENDER of n frames sets INC from the rate it read, advances PHASE by n increments, whatever the channel
count, and every cursor c < CH by n modulo N. -/
def Obligations.RenderAdvancesPhaseAndCursors : Prop :=
  ∀ (s : State) (n bus : Nat), s.Inv → s.configured = true → 1 ≤ n → n ≤ s.hw.maxFrames →
    ∃ t, exec (.render n bus) s = .next t ∧
      t.inc = div64 (cvt32To64 (if n = 1 then (smootherFrame .rate (smoother s .rate)).cur else (smoother s .rate).tgt))
        (cvt32To64 s.sr) ∧
      t.phase = (fun p => sub64 (add64 p t.inc) (floor64 (add64 p t.inc)))^[n] s.phase ∧
      (∀ c, c < s.ch → cursor t c = (cursor s c + n) % s.cap) ∧
      ∀ c, s.ch ≤ c → cursor t c = cursor s c

/-- R201, R202, R172, R173, R175: a single-frame RENDER takes one step of each ramp, landing exactly on the target at the last; a
RENDER of two or more frames completes every ramp. -/
def Obligations.RenderReadsParameters : Prop :=
  ∀ (s : State) (n bus : Nat), s.configured = true → 1 ≤ n → n ≤ s.hw.maxFrames →
    ∃ t, exec (.render n bus) s = .next t ∧
      ∀ k, smoother t k =
        (if 2 ≤ n ∨ (smoother s k).rem = 1 then
          { tgt := (smoother s k).tgt, cur := (smoother s k).tgt, step := zero32, rem := 0 }
        else if (smoother s k).rem = 0 then smoother s k
        else
          { tgt := (smoother s k).tgt, cur := clampP k (add32 (smoother s k).cur (smoother s k).step),
            step := (smoother s k).step, rem := (smoother s k).rem - 1 })

/-- R202: a pending ramp has no effect on a RENDER of two or more frames: the block is that of the ramps completed. -/
def Obligations.BlockRenderCompletesRamps : Prop :=
  ∀ (s : State) (n bus : Nat), 2 ≤ n → s.configured = true → n ≤ s.hw.maxFrames →
    ∃ t, exec (.render n bus) s = .next t ∧
      exec (.render n bus) { s with smoothers :=
        { rate := smootherFinal s.smoothers.rate, delay := smootherFinal s.smoothers.delay,
          depth := smootherFinal s.smoothers.depth, feedback := smootherFinal s.smoothers.feedback,
          dryMix := smootherFinal s.smoothers.dryMix, wetMix := smootherFinal s.smoothers.wetMix } } = .next t

/-- R203, R204, R190 to R192, R206: what a single-frame RENDER writes for every channel c < CH: the mix goes to OUT[c][0], the input
plus the signed feedback to the slot under the cursor; the rest of the ring is unchanged. The delayed sample is read, before the
write, at the tap of the channel's parity. -/
def Obligations.SingleFrameMix : Prop :=
  ∀ (s : State) (bus : Nat), s.Inv → s.configured = true →
    ∃ t, exec (.render 1 bus) s = .next t ∧
      ∀ c, c < s.ch →
        let p := fun k => (smootherFrame k (smoother s k)).cur
        let dly := if le32 s.maxdly (p .delay) = true then s.maxdly else p .delay
        let var := div32 (mul32 (sub32 s.maxdly dly) (p .depth)) two32
        let l := if s.odd90 = true ∧ c % 2 = 1 then lfoQuad s.phase else lfoValue s.phase
        let d := dlRead c (mul32 (add32 (add32 dly var) (mul32 l var)) s.spm) s
        let x := inWord s c 0
        let fb := if s.negfb = true then neg32 (p .feedback) else p .feedback
        outWord t c 0 = add32 (mul32 (p .wetMix) d) (mul32 (p .dryMix) x) ∧
        dlWord t c (cursor s c) = add32 x (mul32 fb d) ∧
        ∀ j, j < s.cap → j ≠ cursor s c → dlWord t c j = dlWord s c j

/-- R97: a second NOP, CONFIGURE, CLRERR, RESET, or SET_PARAM with RAMP 0, with the same operands, changes nothing. -/
def Obligations.IdempotentCommands : Prop :=
  ∀ (i : Instr) (s t : State),
    (i = .nop ∨ i = .clrerr ∨ i = .reset ∨ (∃ chn, i = .configure chn) ∨ ∃ pid, i = .setp pid 0) →
    exec i s = .next t → exec i t = .next t

/-! ## Components -/

/-- R132: DL_WRITE stores the value in the slot under the cursor and advances the cursor modulo N; nothing else changes. -/
def Obligations.DelayLineWrite : Prop :=
  ∀ (s : State) (c : Nat) (v : F32), s.mem.wf → c < s.cursors.length →
    dlWord (dlWrite c v s) c (cursor s c) = v ∧ cursor (dlWrite c v s) c = (cursor s c + 1) % s.cap ∧
    (∀ c', c' ≠ c → cursor (dlWrite c v s) c' = cursor s c') ∧
    (∀ a, ¬ (dlAddr s.hw c (cursor s c) ≤ a ∧ a < dlAddr s.hw c (cursor s c) + 4) →
      readByte (dlWrite c v s).mem a = readByte s.mem a) ∧
    withoutStorage (dlWrite c v s) = withoutStorage s

/-- R131: what DL_READ gives at a tap t of [0, N-1] whose integer part is d: `(1 - f)·y0 + f·y1`, each operation rounded, with
f = t - d, y0 the slot d behind the cursor and y1 the next older one. At the integer tap d (R133) that is y0, numerically, where y0
is no NaN and y1 is finite; and the canonical NaN where y1 is not finite (corner case 4). -/
def Obligations.TapInterpolatesTwoSlots : Prop :=
  ∀ (s : State) (c d : Nat), s.cap ≤ 2 ^ 24 → d < s.cap → cursor s c < s.cap →
    let y0 := dlWord s c ((cursor s c + s.cap - d) % s.cap)
    let y1 := dlWord s c ((cursor s c + s.cap - (d + 1)) % s.cap)
    (∀ t : F32, t.msb = false → le32 (toF32 d) t = true → lt32 t (toF32 (d + 1)) = true → le32 t (toF32 (s.cap - 1)) = true →
      dlRead c t s = add32 (mul32 (sub32 one32 (sub32 t (toF32 d))) y0) (mul32 (sub32 t (toF32 d)) y1)) ∧
    (isNaN32 y0 = false → isFinite32 y1 = true → eq32 (dlRead c (toF32 d) s) y0 = true) ∧
    (isFinite32 y1 = false → dlRead c (toF32 d) s = nan32)

/-- R131: a tap that is a NaN or not above 0 reads as tap 0, and a tap at or above N-1 as tap N-1. -/
def Obligations.TapIsClampedToTheRing : Prop :=
  ∀ (s : State) (c : Nat) (t : F32),
    (isNaN32 t = true ∨ le32 t zero32 = true → dlRead c t s = dlRead c zero32 s) ∧
    (le32 (toF32 (s.cap - 1)) t = true → dlRead c t s = dlRead c (toF32 (s.cap - 1)) s)

/-- R150, R151: LFO_VALUE is the triangle -1, 0, +1, 0 at the quarters of the cycle, `1 - 4·(0.5 - p)` on the first half and
`1 - 4·(p - 0.5)` on the second, each operation rounded. R152, R157 (c): LFO_QUAD is LFO_VALUE a quarter cycle ahead, at p + 0.25
below phase 0.75 and at p + 0.25 - 1 from there on, and that is again a phase in [0, 1). R157 (a): both lie in [-1, +1]. -/
def Obligations.LfoWaveform : Prop :=
  (lfoValue zero64 = 0xBF800000#32 ∧ lfoValue quarter64 = zero32 ∧ lfoValue half64 = one32 ∧
    lfoValue 0x3FE8000000000000#64 = zero32) ∧
  ∀ p : F64, phaseInUnit p →
    (lt64 p half64 = true → lfoValue p = cvt64To32 (sub64 one64 (mul64 four64 (sub64 half64 p)))) ∧
    (le64 half64 p = true → lfoValue p = cvt64To32 (sub64 one64 (mul64 four64 (sub64 p half64)))) ∧
    (lt64 p 0x3FE8000000000000#64 = true → phaseInUnit (add64 p quarter64) ∧ lfoQuad p = lfoValue (add64 p quarter64)) ∧
    (le64 0x3FE8000000000000#64 p = true → phaseInUnit (sub64 (add64 p quarter64) one64) ∧
      lfoQuad p = lfoValue (sub64 (add64 p quarter64) one64)) ∧
    le32 0xBF800000#32 (lfoValue p) = true ∧ le32 (lfoValue p) one32 = true ∧
    le32 0xBF800000#32 (lfoQuad p) = true ∧ le32 (lfoQuad p) one32 = true

/-- R154: an increment by any finite INC ≥ +0 keeps the phase in [0, 1), and never gives -0. -/
def Obligations.IncrementKeepsPhaseInUnit : Prop :=
  ∀ p inc : F64, phaseInUnit p → isFinite64 inc = true → inc.msb = false → phaseInUnit (nextPhase p inc)

/-- R170: CLAMP_P takes a finite value to the end of the parameter's range it lies beyond (+0 for v ≤ 0, -0 among them; 1 for
v ≥ 1 and the four unit parameters) and keeps one that is in the range. -/
def Obligations.ClampBringsIntoRange : Prop :=
  ∀ (k : ScalarId) (v : F32), isFinite32 v = true →
    inRange k (clampP k v) ∧ (inRange k v → clampP k v = v) ∧
    (le32 v zero32 = true → clampP k v = zero32) ∧
    (k ∈ [ScalarId.depth, .feedback, .dryMix, .wetMix] → le32 one32 v = true → clampP k v = one32) ∧
    (k ∈ [ScalarId.rate, .delay] → lt32 zero32 v = true → clampP k v = v)

/-- R171, R172: a ramp of R frames lands exactly on the clamped target at its R-th step, whatever the rounding on the way. -/
def Obligations.RampLandsOnTarget : Prop :=
  ∀ (k : ScalarId) (v : F32) (ramp : Nat) (sm : Smoother), 1 ≤ ramp →
    (smootherFrame k)^[ramp] (smootherSet k v ramp sm)
      = { tgt := clampP k v, cur := clampP k v, step := zero32, rem := 0 }

/-- R176: with no ramp pending, both regimes read TGT for every parameter and leave the state as it is. -/
def Obligations.NoAutomationEquivalence : Prop :=
  ∀ (s : State) (n : Nat), s.Inv → noRamp s →
    readControls n s =
      ({ rate := (smoother s .rate).tgt, delay := (smoother s .delay).tgt, depth := (smoother s .depth).tgt,
         feedback := (smoother s .feedback).tgt, dryMix := (smoother s .dryMix).tgt, wetMix := (smoother s .wetMix).tgt }, s)

/-- R193: the tap is not below 0, for every delay, every depth in [0, 1] and every LFO value in [-1, 1]. With an SPM of 0 it is a
zero, or the canonical NaN of 0 times an overflowed sum, which DL_READ takes for tap 0: that NaN is the model's reading of the
pseudocode of R190 and R191 (log entry 12, DEDUCED), where the prose of R193 and R232 has no overflow. -/
def Obligations.TapIsNeverNegative : Prop :=
  ∀ maxdly spm delay depth l : F32,
    isFinite32 maxdly = true → maxdly.msb = false → isFinite32 spm = true →
    isNaN32 delay = false → delay.msb = false → inRange .depth depth →
    le32 0xBF800000#32 l = true → le32 l one32 = true →
    let t := tap spm (center maxdly delay depth) (variance maxdly delay depth) l
    (lt32 zero32 spm = true → le32 zero32 t = true) ∧ (isZero32 spm → isZero32 t ∨ t = nan32)

/-- R210 (c), R190: with depth 0 the tap is `mul32(dly, SPM)` for every LFO value, bit for bit. -/
def Obligations.NoModulationWithoutDepth : Prop :=
  ∀ maxdly spm delay l : F32, isFinite32 maxdly = true → maxdly.msb = false → isNaN32 delay = false → delay.msb = false →
    isFinite32 l = true →
    tap spm (center maxdly delay zero32) (variance maxdly delay zero32) l
      = mul32 (if le32 maxdly delay = true then maxdly else delay) spm

/-- R205: negating the feedback negates its product with the delayed sample exactly, and a NaN product is the canonical NaN either
way. -/
def Obligations.NegativeFeedbackIsExactNegation : Prop :=
  ∀ fb d : F32, mul32 (neg32 fb) d = if isNaN32 (mul32 fb d) = true then nan32 else neg32 (mul32 fb d)

/-! ## Headlines -/

/-- Every step keeps the state invariant: R47 (a) to (f), with the canonical form of the memory. -/
def Obligations.StepKeepsInvariant : Prop := ∀ s t : State, s.Inv → step s = .next t → t.Inv

/-- The invariant, canonical buffers and a STATUS of 0 at reset (R47, R301). -/
def Obligations.ResetMeetsInvariant : Prop :=
  State.reset.Inv ∧ CanonicalBuffers State.reset ∧ noError State.reset ∧ statusWord State.reset = 0#32

/-- R40, R153, R157 (a): every step keeps the phase in [0, 1) and INC finite and not below +0. -/
def Obligations.StepKeepsPhaseInUnit : Prop :=
  ∀ s t : State, s.Inv → incOk s.inc → step s = .next t → phaseInUnit t.phase ∧ incOk t.inc

/-- R42, R172: "rounding in a long ramp cannot leave the parameter's range". Whatever the value a ramp is set to, its length and the
value it starts from, after any number n of its steps CUR and TGT are in range, TGT is the clamped value and REM has gone down by n,
to 0 at most. Where a sum overflows, which CLAMP_P's rule does not speak of, CUR is a free value of the range (log entry 5, DESIGN
CHOICE), and the statement holds for every such value. -/
def Obligations.RampStaysInRange : Prop :=
  ∀ (k : ScalarId) (v : F32) (ramp n : Nat) (sm : Smoother), isFinite32 v = true → inRange k sm.cur →
    let u := (smootherFrame k)^[n] (smootherSet k v ramp sm)
    inRange k u.cur ∧ inRange k u.tgt ∧ u.tgt = clampP k v ∧ u.rem = ramp - n

/-- R260, R14: no step puts a NaN other than the canonical one into OUT or DL. -/
def Obligations.StepKeepsBuffersCanonical : Prop :=
  ∀ s t : State, s.Inv → CanonicalBuffers s → step s = .next t → CanonicalBuffers t

/-- R44: an error flag that is set stays set at every step but a CLRERR or a RESET, and one step sets at most one flag (R283). -/
def Obligations.ErrorFlagsAreSticky : Prop :=
  ∀ s t : State, step s = .next t →
    (∀ e, flag s e = true → flag t e = true ∨
      ∃ w rest, s.bus = .write cmdAddr w :: rest ∧ (w.toNat / 2 ^ 24 = 4 ∨ w.toNat / 2 ^ 24 = 5)) ∧
    ∀ e e', flag s e = false → flag t e = true → flag s e' = false → flag t e' = true → e = e'

/-- R31, R45, R323: the block never writes ARG0, ARG1 or IN: only the host's own write to one of them, or a RESET, changes it. -/
def Obligations.HostOwnsItsInputs : Prop :=
  ∀ s t : State, s.Inv → step s = .next t →
    (∀ w rest, s.bus = .write cmdAddr w :: rest → w.toNat / 2 ^ 24 ≠ 5) →
    (t.arg0 ≠ s.arg0 → ∃ rest, s.bus = .write 0x00C#32 t.arg0 :: rest) ∧
    (t.arg1 ≠ s.arg1 → ∃ rest, s.bus = .write 0x010#32 t.arg1 :: rest) ∧
    ∀ c i, c < s.hw.maxChannels → i < s.hw.maxFrames → inWord t c i ≠ inWord s c i →
      ∃ rest, s.bus = .write (BitVec.ofNat 32 (inAddr s.hw c i)) (inWord t c i) :: rest

/-- R38, R46: OUT and the delay lines change only by a RENDER, a RESET or, for the delay lines, a CONFIGURE. -/
def Obligations.OnlyCommandsWriteOutAndDelay : Prop :=
  ∀ s t : State, s.Inv → step s = .next t →
    (∀ c i, c < s.hw.maxChannels → i < s.hw.maxFrames → outWord t c i ≠ outWord s c i →
      ∃ w rest, s.bus = .write cmdAddr w :: rest ∧ (w.toNat / 2 ^ 24 = 3 ∨ w.toNat / 2 ^ 24 = 5)) ∧
    ∀ c j, c < s.hw.maxChannels → j < s.hw.maxCapacity → dlWord t c j ≠ dlWord s c j →
      ∃ w rest, s.bus = .write cmdAddr w :: rest ∧
        (w.toNat / 2 ^ 24 = 1 ∨ w.toNat / 2 ^ 24 = 3 ∨ w.toNat / 2 ^ 24 = 5)

/-- R210 (a), §8 P1: silence in, silence out. If the inputs a render reads and the rings are all ±0, so are the outputs it writes and
the rings after it, for every parameter setting. -/
def Obligations.SilenceInSilenceOut : Prop :=
  ∀ (s : State) (n bus : Nat), s.Inv → s.configured = true → 1 ≤ n → n ≤ s.hw.maxFrames →
    (∀ c i, c < s.ch → i < n → isZero32 (inWord s c i)) →
    (∀ c j, c < s.ch → j < s.cap → isZero32 (dlWord s c j)) →
    ∃ t, exec (.render n bus) s = .next t ∧
      (∀ c i, c < s.ch → i < n → isZero32 (outWord t c i)) ∧
      ∀ c j, c < s.ch → j < s.cap → isZero32 (dlWord t c j)

/-- R210 (b), §8 P2: with wetMix 0, dryMix 1 and feedback 0 and no ramp pending, the output is the input, numerically, and bit for
bit unless the input is -0, for every rate, delay, depth and odd90. The inputs and the rings have magnitude at most 2^126, so that
no interpolated sample can overflow. -/
def Obligations.DryPassthrough : Prop :=
  ∀ (s : State) (n bus : Nat), s.Inv → s.configured = true → 1 ≤ n → n ≤ s.hw.maxFrames → noRamp s →
    (smoother s .wetMix).tgt = zero32 → (smoother s .dryMix).tgt = one32 → (smoother s .feedback).tgt = zero32 →
    (∀ c i, c < s.ch → i < n → mag32 (inWord s c i) ≤ 0x7E800000) →
    (∀ c j, c < s.ch → j < s.cap → mag32 (dlWord s c j) ≤ 0x7E800000) →
    ∃ t, exec (.render n bus) s = .next t ∧
      ∀ c i, c < s.ch → i < n →
        eq32 (outWord t c i) (inWord s c i) = true ∧
        (inWord s c i ≠ 0x80000000#32 → outWord t c i = inWord s c i)

/-- R133, §8 S2: a pure delay. With wetMix 1, dryMix 0, feedback 0, depth 0 and no ramp pending, empty rings, finite inputs, and a
delay that is a whole number d of frames, 1 ≤ d ≤ N-1, the output is 0 for d frames and then the input d frames earlier. -/
def Obligations.PureDelay : Prop :=
  ∀ (s : State) (n bus d : Nat), s.Inv → s.configured = true → 1 ≤ n → n ≤ s.hw.maxFrames → noRamp s →
    phaseInUnit s.phase →
    (smoother s .wetMix).tgt = one32 → (smoother s .dryMix).tgt = zero32 → (smoother s .feedback).tgt = zero32 →
    (smoother s .depth).tgt = zero32 →
    1 ≤ d → d < s.cap → mul32 (clampDelay s.maxdly (smoother s .delay).tgt) s.spm = toF32 d →
    (∀ c i, c < s.ch → i < n → isFinite32 (inWord s c i) = true) →
    (∀ c j, c < s.ch → j < s.cap → dlWord s c j = zero32) →
    ∃ t, exec (.render n bus) s = .next t ∧
      ∀ c i, c < s.ch → i < n →
        (i < d → eq32 (outWord t c i) zero32 = true) ∧
        (d ≤ i → eq32 (outWord t c i) (inWord s c (i - d)) = true)

/-- R210 (e), §8 S5: ramp and block renders agree bit for bit. With no ramp pending, let one run render n ≥ 2 frames as a block, and
let another render them one by one, with frame i's input put into column 0 before render i. Then column 0 after render i is column
i of the block, and the two runs end with the same rings, cursors, phase, increment, parameters and registers. -/
def Obligations.RampBlockEquivalence : Prop :=
  ∀ (s t : State) (n bus : Nat) (u : Nat → State), s.Inv → s.configured = true → 2 ≤ n → n ≤ s.hw.maxFrames → noRamp s →
    exec (.render n bus) s = .next t → u 0 = s →
    (∀ i, i < n → exec (.render 1 bus) (loadColumn s i (u i)) = .next (u (i + 1))) →
    (∀ c i, c < s.ch → i < n → outWord (u (i + 1)) c 0 = outWord t c i) ∧
    (∀ c j, c < s.hw.maxChannels → j < s.hw.maxCapacity → dlWord (u n) c j = dlWord t c j) ∧
    (u n).cursors = t.cursors ∧ withoutStorage (u n) = withoutStorage t
end

