-- ==== Sys2Proof/Laws/Float.lean ====
section
/-! SUPPORT. The laws of the arithmetic: rounding is exact on representable values and monotone; what pack and unpack keep. -/

namespace Sys2Proof.Machine

/-! ## Rounding to a natural -/

theorem roundHalfEven_mul (q d : Nat) (hd : 0 < d) : roundHalfEven (q * d) d = q := by
  simp [roundHalfEven, Nat.mul_div_cancel _ hd, hd]

theorem le_roundHalfEven (n d : Nat) : n / d ≤ roundHalfEven n d := by
  unfold roundHalfEven
  dsimp only
  split
  · exact le_rfl
  · split <;> omega

theorem roundHalfEven_le (n d : Nat) : roundHalfEven n d ≤ n / d + 1 := by
  unfold roundHalfEven
  dsimp only
  split
  · omega
  · split
    · omega
    · have := Nat.mod_lt (n / d) (show 0 < 2 by omega)
      omega

theorem roundHalfEven_scale (n d c : Nat) (hc : 0 < c) : roundHalfEven (n * c) (d * c) = roundHalfEven n d := by
  unfold roundHalfEven
  dsimp only
  rw [Nat.mul_div_mul_right _ _ hc, Nat.mul_mod_mul_right]
  have h1 : 2 * (n % d * c) < d * c ↔ 2 * (n % d) < d := by
    rw [← mul_assoc]; exact Nat.mul_lt_mul_right hc
  have h2 : d * c < 2 * (n % d * c) ↔ d < 2 * (n % d) := by
    rw [← mul_assoc]; exact Nat.mul_lt_mul_right hc
  simp only [h1, h2]

theorem roundHalfEven_mono_num (n n' d : Nat) (h : n ≤ n') : roundHalfEven n d ≤ roundHalfEven n' d := by
  have hq : n / d ≤ n' / d := Nat.div_le_div_right h
  rcases Nat.lt_or_ge (n / d) (n' / d) with hlt | hge
  · exact (roundHalfEven_le n d).trans (le_trans (by omega) (le_roundHalfEven n' d))
  · have heq : n / d = n' / d := le_antisymm hq hge
    have hr : n % d ≤ n' % d := by
      have h1 := Nat.div_add_mod n d
      have h2 := Nat.div_add_mod n' d
      rw [heq] at h1
      omega
    unfold roundHalfEven
    dsimp only
    rw [heq]
    have := Nat.mod_lt (n' / d) (show 0 < 2 by omega)
    split_ifs <;> omega

/-- Rounding is monotone in the rational it rounds. -/
theorem roundHalfEven_mono (n d n' d' : Nat) (hd : 0 < d) (hd' : 0 < d') (h : n * d' ≤ n' * d) :
    roundHalfEven n d ≤ roundHalfEven n' d' := by
  rw [← roundHalfEven_scale n d d' hd', ← roundHalfEven_scale n' d' d hd, Nat.mul_comm d' d]
  exact roundHalfEven_mono_num _ _ _ h

/-! ## Rounding to a format -/

theorem magUnits_small {f : FloatFormat} {g : Nat} (h : g < 2 ^ f.fracBits) : magUnits f g = g := if_pos h

theorem magUnits_large {f : FloatFormat} {g : Nat} (h : 2 ^ f.fracBits ≤ g) :
    magUnits f g = (2 ^ f.fracBits + g % 2 ^ f.fracBits) * 2 ^ (g / 2 ^ f.fracBits - 1) := if_neg (by omega)

/-- A representable value rounds to its own encoding. -/
theorem roundMag_magUnits (f : FloatFormat) (g d : Nat) (hg : g ≤ infMag f) (hd : 0 < d) :
    roundMag f (magUnits f g * d) d = g := by
  have hF : 0 < 2 ^ f.fracBits := Nat.two_pow_pos _
  unfold roundMag dropBits
  dsimp only
  rw [Nat.mul_div_cancel _ hd]
  rcases Nat.lt_or_ge g (2 ^ f.fracBits) with hlt | hge
  · rw [magUnits_small hlt]
    have hk : Nat.log2 g - f.fracBits = 0 := by
      rcases Nat.eq_zero_or_pos g with rfl | hpos
      · simp
      · have := (Nat.log2_lt (by omega)).2 hlt
        omega
    rw [hk, pow_zero, mul_one, roundHalfEven_mul _ _ hd]
    omega
  · have hr := Nat.mod_lt g hF
    have he : 1 ≤ g / 2 ^ f.fracBits := (Nat.one_le_div_iff hF).2 hge
    rw [magUnits_large hge]
    generalize hm : 2 ^ f.fracBits + g % 2 ^ f.fracBits = m
    generalize hE : g / 2 ^ f.fracBits - 1 = e
    have hlog : Nat.log2 (m * 2 ^ e) = f.fracBits + e := by
      rw [Nat.log2_eq_iff (Nat.mul_ne_zero (by omega) (Nat.two_pow_pos _).ne')]
      constructor
      · rw [pow_add]; exact Nat.mul_le_mul_right _ (by omega)
      · rw [show f.fracBits + e + 1 = (f.fracBits + 1) + e by omega, pow_add]
        exact Nat.mul_lt_mul_of_pos_right (by rw [pow_succ]; omega) (Nat.two_pow_pos _)
    rw [hlog, Nat.add_sub_cancel_left, mul_assoc, Nat.mul_comm (2 ^ e) d,
      roundHalfEven_mul _ _ (Nat.mul_pos hd (Nat.two_pow_pos _))]
    have hdm := Nat.div_add_mod g (2 ^ f.fracBits)
    have : e * 2 ^ f.fracBits + m = g := by
      have h1 : g / 2 ^ f.fracBits = e + 1 := by omega
      rw [h1] at hdm
      rw [← hm]
      linarith [hdm, Nat.mul_comm (2 ^ f.fracBits) (e + 1), Nat.succ_mul e (2 ^ f.fracBits)]
    rw [this]
    omega

/-- Where low bits are dropped, the rounded significand has full precision. -/
theorem dropBits_bounds (f : FloatFormat) (n d : Nat) (hd : 0 < d) :
    roundHalfEven n (d * 2 ^ dropBits f n d) ≤ 2 ^ (f.fracBits + 1) ∧
      (0 < dropBits f n d → 2 ^ f.fracBits ≤ roundHalfEven n (d * 2 ^ dropBits f n d)) := by
  generalize hk : dropBits f n d = k
  have hdk : 0 < d * 2 ^ k := Nat.mul_pos hd (Nat.two_pow_pos _)
  have hq : n / (d * 2 ^ k) = n / d / 2 ^ k := (Nat.div_div_eq_div_mul _ _ _).symm
  constructor
  · have hlt : n / d < 2 ^ (f.fracBits + 1 + k) := by
      rcases Nat.eq_zero_or_pos (n / d) with h0 | hpos
      · rw [h0]; exact Nat.two_pow_pos _
      · refine (Nat.log2_lt hpos.ne').1 ?_
        unfold dropBits at hk
        omega
    have : n / (d * 2 ^ k) < 2 ^ (f.fracBits + 1) := by
      rw [hq]
      exact Nat.div_lt_of_lt_mul (by rw [← pow_add, Nat.add_comm]; exact hlt)
    exact (roundHalfEven_le _ _).trans this
  · intro hpos
    refine le_trans ?_ (le_roundHalfEven _ _)
    rw [hq, Nat.le_div_iff_mul_le (Nat.two_pow_pos _), ← pow_add]
    have h0 : n / d ≠ 0 := by
      intro h0
      simp [dropBits, h0] at hk
      omega
    refine (Nat.le_log2 h0).1 ?_
    unfold dropBits at hk
    omega

/-- Rounding to a format is monotone (00_scope.md R13: each step rounds monotonically). -/
theorem roundMag_mono (f : FloatFormat) (n d n' d' : Nat) (hd : 0 < d) (hd' : 0 < d') (h : n * d' ≤ n' * d) :
    roundMag f n d ≤ roundMag f n' d' := by
  have hq : n / d ≤ n' / d' := by
    rw [Nat.le_div_iff_mul_le hd']
    have h1 : n / d * d ≤ n := Nat.div_mul_le_self n d
    have h2 : n / d * d' * d ≤ n' * d := by
      calc n / d * d' * d = n / d * d * d' := by ring
        _ ≤ n * d' := Nat.mul_le_mul_right _ h1
        _ ≤ n' * d := h
    exact Nat.le_of_mul_le_mul_right h2 hd
  have hk : dropBits f n d ≤ dropBits f n' d' := by
    unfold dropBits
    rcases Nat.eq_zero_or_pos (n / d) with h0 | hpos
    · simp [h0]
    · have : Nat.log2 (n / d) ≤ Nat.log2 (n' / d') := by
        rw [Nat.le_log2 (by omega)]
        exact (Nat.log2_self_le hpos.ne').trans hq
      omega
  have b1 := dropBits_bounds f n d hd
  have b2 := dropBits_bounds f n' d' hd'
  unfold roundMag
  dsimp only
  refine min_le_min_left _ ?_
  generalize dropBits f n d = k at *
  generalize dropBits f n' d' = k' at *
  rcases Nat.lt_or_ge k k' with hlt | hge
  · have h3 := b2.2 (by omega)
    have h4 := b1.1
    have h5 : (k + 1) * 2 ^ f.fracBits ≤ k' * 2 ^ f.fracBits := Nat.mul_le_mul_right _ hlt
    rw [Nat.add_mul, Nat.one_mul] at h5
    rw [pow_succ] at h4
    omega
  · have : k = k' := le_antisymm hk hge
    subst this
    refine Nat.add_le_add_left (roundHalfEven_mono _ _ _ _ (Nat.mul_pos hd (Nat.two_pow_pos _))
      (Nat.mul_pos hd' (Nat.two_pow_pos _)) ?_) _
    calc n * (d' * 2 ^ k) = n * d' * 2 ^ k := by ring
      _ ≤ n' * d * 2 ^ k := Nat.mul_le_mul_right _ h
      _ = n' * (d * 2 ^ k) := by ring

/-- A value at most a representable one rounds to at most its encoding. -/
theorem roundMag_le (f : FloatFormat) (n d g : Nat) (hd : 0 < d) (hg : g ≤ infMag f) (h : n ≤ magUnits f g * d) :
    roundMag f n d ≤ g := by
  have := roundMag_mono f n d (magUnits f g) 1 hd one_pos (by simpa using h)
  rwa [show roundMag f (magUnits f g) 1 = g by simpa using roundMag_magUnits f g 1 hg one_pos] at this

/-- A value at least a representable one rounds to at least its encoding. -/
theorem le_roundMag (f : FloatFormat) (n d g : Nat) (hd : 0 < d) (hg : g ≤ infMag f) (h : magUnits f g * d ≤ n) :
    g ≤ roundMag f n d := by
  have := roundMag_mono f (magUnits f g) 1 n d one_pos hd (by simpa using h)
  rwa [show roundMag f (magUnits f g) 1 = g by simpa using roundMag_magUnits f g 1 hg one_pos] at this

theorem roundMag_le_inf (f : FloatFormat) (n d : Nat) : roundMag f n d ≤ infMag f := min_le_left _ _

/-- The units of an encoding grow with it. -/
theorem magUnits_lt (f : FloatFormat) {g g' : Nat} (h : g < g') : magUnits f g < magUnits f g' := by
  have hF : 0 < 2 ^ f.fracBits := Nat.two_pow_pos _
  rcases Nat.lt_or_ge g' (2 ^ f.fracBits) with h1 | h1
  · rw [magUnits_small h1, magUnits_small (h.trans h1)]; exact h
  · have hr' := Nat.mod_lt g' hF
    rw [magUnits_large h1]
    have hp : 1 ≤ 2 ^ (g' / 2 ^ f.fracBits - 1) := Nat.one_le_two_pow
    rcases Nat.lt_or_ge g (2 ^ f.fracBits) with h2 | h2
    · rw [magUnits_small h2]
      calc g < 2 ^ f.fracBits + g' % 2 ^ f.fracBits := by omega
        _ ≤ _ := Nat.le_mul_of_pos_right _ (by omega)
    · rw [magUnits_large h2]
      have hr := Nat.mod_lt g hF
      have hd := Nat.div_add_mod g (2 ^ f.fracBits)
      have hd' := Nat.div_add_mod g' (2 ^ f.fracBits)
      have he : 1 ≤ g / 2 ^ f.fracBits := (Nat.one_le_div_iff hF).2 h2
      have hle : g / 2 ^ f.fracBits ≤ g' / 2 ^ f.fracBits := Nat.div_le_div_right h.le
      rcases Nat.lt_or_ge (g / 2 ^ f.fracBits) (g' / 2 ^ f.fracBits) with h3 | h3
      · have h4 : 2 ^ (g' / 2 ^ f.fracBits - 1) = 2 * 2 ^ (g / 2 ^ f.fracBits - 1) * 2 ^ (g' / 2 ^ f.fracBits - 1 - (g / 2 ^ f.fracBits - 1) - 1) := by
          rw [← pow_succ', ← pow_add]
          congr 1
          omega
        rw [h4]
        have h5 : 1 ≤ 2 ^ (g' / 2 ^ f.fracBits - 1 - (g / 2 ^ f.fracBits - 1) - 1) := Nat.one_le_two_pow
        generalize 2 ^ (g' / 2 ^ f.fracBits - 1 - (g / 2 ^ f.fracBits - 1) - 1) = z at *
        have h6 : 1 ≤ 2 ^ (g / 2 ^ f.fracBits - 1) := Nat.one_le_two_pow
        generalize 2 ^ (g / 2 ^ f.fracBits - 1) = y at *
        calc (2 ^ f.fracBits + g % 2 ^ f.fracBits) * y < (2 * 2 ^ f.fracBits) * y :=
              Nat.mul_lt_mul_of_pos_right (by omega) (by omega)
          _ = 2 ^ f.fracBits * (2 * y) := by ring
          _ ≤ (2 ^ f.fracBits + g' % 2 ^ f.fracBits) * (2 * y) := Nat.mul_le_mul_right _ (by omega)
          _ ≤ (2 ^ f.fracBits + g' % 2 ^ f.fracBits) * (2 * y * z) :=
              Nat.mul_le_mul_left _ (Nat.le_mul_of_pos_right _ h5)
      · have h7 : g / 2 ^ f.fracBits = g' / 2 ^ f.fracBits := le_antisymm hle h3
        rw [h7] at hd ⊢
        exact Nat.mul_lt_mul_of_pos_right (by omega) (by omega)

theorem magUnits_le (f : FloatFormat) {g g' : Nat} (h : g ≤ g') : magUnits f g ≤ magUnits f g' := by
  rcases Nat.lt_or_ge g g' with h1 | h1
  · exact (magUnits_lt f h1).le
  · rw [le_antisymm h h1]

theorem magUnits_le_iff (f : FloatFormat) {g g' : Nat} : magUnits f g ≤ magUnits f g' ↔ g ≤ g' := by
  constructor
  · intro h
    by_contra hn
    exact absurd (magUnits_lt f (by omega : g' < g)) (by omega)
  · exact magUnits_le f

@[simp] theorem magUnits_zero (f : FloatFormat) : magUnits f 0 = 0 := magUnits_small (Nat.two_pow_pos _)

theorem magUnits_eq_zero (f : FloatFormat) {g : Nat} : magUnits f g = 0 ↔ g = 0 := by
  constructor
  · intro h
    by_contra hn
    have := magUnits_lt f (Nat.pos_of_ne_zero hn)
    simp at this
    omega
  · rintro rfl; simp

@[simp] theorem roundMag_zero (f : FloatFormat) (d : Nat) : roundMag f 0 d = 0 := by
  simp [roundMag, dropBits, roundHalfEven]

/-- A value of fewer than 2^(fracBits+1) units is exact. -/
theorem magUnits_subnormal_range (f : FloatFormat) {m : Nat} (h : m ≤ 2 ^ (f.fracBits + 1)) : magUnits f m = m := by
  rcases Nat.lt_or_ge m (2 ^ f.fracBits) with h1 | h1
  · exact magUnits_small h1
  · rw [magUnits_large h1]
    have hF : 0 < 2 ^ f.fracBits := Nat.two_pow_pos _
    rw [pow_succ] at h
    rcases Nat.lt_or_ge m (2 ^ f.fracBits * 2) with h2 | h2
    · have : m / 2 ^ f.fracBits = 1 := Nat.div_eq_of_lt_le (by omega) (by omega)
      have hdm := Nat.div_add_mod m (2 ^ f.fracBits)
      rw [this, mul_one] at hdm
      rw [this]
      simp
      omega
    · have hm : m = 2 ^ f.fracBits * 2 := by omega
      rw [hm, Nat.mul_div_cancel_left _ hF, Nat.mul_mod_right]
      simp

/-- A number of units `a · 2^j` with a full-precision `a` is representable. -/
theorem exists_mag (f : FloatFormat) (a j : Nat) (h : a ≤ 2 ^ (f.fracBits + 1)) : ∃ g, magUnits f g = a * 2 ^ j := by
  have hF : 0 < 2 ^ f.fracBits := Nat.two_pow_pos _
  induction j generalizing a with
  | zero => exact ⟨a, by simpa using magUnits_subnormal_range f h⟩
  | succ j ih =>
    rcases Nat.lt_or_ge a (2 ^ f.fracBits + 1) with h1 | h1
    · obtain ⟨g, hg⟩ := ih (a * 2) (by rw [pow_succ]; omega)
      exact ⟨g, by rw [hg, pow_succ]; ring⟩
    · rw [pow_succ] at h
      rcases Nat.lt_or_ge a (2 ^ f.fracBits * 2) with h2 | h2
      · refine ⟨(j + 1) * 2 ^ f.fracBits + a, ?_⟩
        rw [magUnits_large (by nlinarith)]
        have h3 : ((j + 1) * 2 ^ f.fracBits + a) / 2 ^ f.fracBits = j + 2 := by
          rw [Nat.add_comm, Nat.add_mul_div_right _ _ hF]
          have : a / 2 ^ f.fracBits = 1 := Nat.div_eq_of_lt_le (by omega) (by omega)
          omega
        have h4 : ((j + 1) * 2 ^ f.fracBits + a) % 2 ^ f.fracBits = a - 2 ^ f.fracBits := by
          rw [Nat.add_comm, Nat.add_mul_mod_self_right, Nat.mod_eq_sub_mod (by omega), Nat.mod_eq_of_lt (by omega)]
        rw [h3, h4, show 2 ^ f.fracBits + (a - 2 ^ f.fracBits) = a by omega]
        simp
      · have ha : a = 2 ^ f.fracBits * 2 := by omega
        refine ⟨(j + 3) * 2 ^ f.fracBits, ?_⟩
        rw [magUnits_large (by nlinarith), Nat.mul_div_cancel _ hF, Nat.mul_mod_left, ha]
        simp only [Nat.add_zero, show j + 3 - 1 = j + 2 by omega]
        rw [show j + 2 = (j + 1) + 1 by omega, pow_succ 2 (j + 1)]
        ring

end Sys2Proof.Machine
end

