-- ==== Sys2Proof/Laws/Values.lean ====
section
/-! SUPPORT. The laws of F32 and F64 values: their fields, their order, and what each operation can return. -/

namespace Sys2Proof.Machine

/-! ## F32 -/

theorem mag32_lt (x : F32) : mag32 x < 2 ^ 31 := Nat.mod_lt _ (Nat.two_pow_pos _)

theorem toNat_pack32 (s : Bool) (m : Nat) (h : m < 2 ^ 31) : (pack32 (s, m)).toNat = s.toNat * 2 ^ 31 + m := by
  unfold pack32
  rw [BitVec.toNat_ofNat]
  apply Nat.mod_eq_of_lt
  cases s <;> simp <;> omega

@[simp] theorem mag_pack32 (s : Bool) (m : Nat) (h : m < 2 ^ 31) : mag32 (pack32 (s, m)) = m := by
  unfold mag32
  rw [toNat_pack32 s m h, Nat.mul_add_mod_self_right, Nat.mod_eq_of_lt h]

@[simp] theorem msb_pack32 (s : Bool) (m : Nat) (h : m < 2 ^ 31) : (pack32 (s, m)).msb = s := by
  rw [BitVec.msb_eq_decide, toNat_pack32 s m h]
  cases s
  · simp; omega
  · simp

/-- A sign and a magnitude make the value they came from. -/
theorem pack32_self (x : F32) : pack32 (x.msb, mag32 x) = x := by
  apply BitVec.eq_of_toNat_eq
  rw [toNat_pack32 _ _ (mag32_lt x), BitVec.msb_eq_decide]
  have := x.isLt
  unfold mag32
  by_cases h : 2 ^ (32 - 1) ≤ x.toNat <;> simp only [h, decide_true, decide_false, Bool.toNat_true, Bool.toNat_false] <;> omega

theorem ext32 {x y : F32} (hs : x.msb = y.msb) (hm : mag32 x = mag32 y) : x = y := by
  rw [← pack32_self x, ← pack32_self y, hs, hm]

theorem infMag32 : infMag binary32 = 0x7F800000 := by rw [infMag]; rfl

theorem nanMag32 : nanMag binary32 = 0x7FC00000 := by rw [nanMag, infMag32]; rfl

theorem roundExact_lt32 (e : Exact) : (roundExact binary32 e).2 < 2 ^ 31 := by
  cases e with
  | nan => simp only [roundExact, nanMag32]; omega
  | inf s => simp only [roundExact, infMag32]; omega
  | ratio s n d =>
    have := roundMag_le_inf binary32 n d
    rw [infMag32] at this
    simp only [roundExact]
    omega

theorem mag_round32 (e : Exact) : mag32 (round32 e) = (roundExact binary32 e).2 := mag_pack32 _ _ (roundExact_lt32 e)

theorem msb_round32 (e : Exact) : (round32 e).msb = (roundExact binary32 e).1 := msb_pack32 _ _ (roundExact_lt32 e)

/-- The only NaN an operation returns is the canonical one (00_scope.md R14). -/
theorem round32_canonical (e : Exact) (h : isNaN32 (round32 e) = true) : round32 e = nan32 := by
  simp only [isNaN32, decide_eq_true_eq] at h
  have h' : infMag binary32 < (roundExact binary32 e).2 := by rw [← mag_round32]; exact h
  cases e with
  | nan => unfold round32 roundExact nan32 pack32; rw [nanMag32]; rfl
  | inf s => simp [roundExact] at h'
  | ratio s n d =>
    have := roundMag_le_inf binary32 n d
    simp only [roundExact] at h'
    omega

@[simp] theorem round32_nan : round32 .nan = nan32 := by
  unfold round32 roundExact nan32 pack32; rw [nanMag32]; rfl

/-- A value that is not a NaN rounds to itself. -/
theorem round32_exact (s : Bool) (g d : Nat) (hg : g ≤ infMag binary32) (hd : 0 < d) :
    round32 (.ratio s (magUnits binary32 g * d) d) = pack32 (s, g) := by
  simp only [round32, roundExact]
  rw [roundMag_magUnits binary32 g d hg hd]

theorem round32_exact_one (s : Bool) (g : Nat) (hg : g ≤ infMag binary32) :
    round32 (.ratio s (magUnits binary32 g) 1) = pack32 (s, g) := by
  simpa using round32_exact s g 1 hg one_pos

theorem finite32_iff (x : F32) : isFinite32 x = true ↔ mag32 x < infMag binary32 := by simp [isFinite32]

theorem nan32_iff (x : F32) : isNaN32 x = true ↔ infMag binary32 < mag32 x := by simp [isNaN32]

theorem not_nan32_iff (x : F32) : isNaN32 x = false ↔ mag32 x ≤ infMag binary32 := by simp [isNaN32]

theorem not_nan_of_finite32 {x : F32} (h : isFinite32 x = true) : isNaN32 x = false :=
  (not_nan32_iff x).2 ((finite32_iff x).1 h).le

/-- The datum of a finite value. -/
theorem datum32_finite {x : F32} (h : isFinite32 x = true) : datum32 x = .fin x.msb (magUnits binary32 (mag32 x)) := by
  have h1 := (finite32_iff x).1 h
  unfold datum32 unpack
  rw [if_neg (by omega), if_neg (by omega)]

/-- The datum of a NaN. -/
theorem datum32_nan {x : F32} (h : isNaN32 x = true) : datum32 x = .nan := by
  unfold datum32 unpack
  rw [if_pos ((nan32_iff x).1 h)]

/-- The datum of an infinity. -/
theorem datum32_inf {x : F32} (h : mag32 x = infMag binary32) : datum32 x = .inf x.msb := by
  unfold datum32 unpack
  rw [if_neg (by omega), if_pos h]

/-- Every F32 is a NaN, an infinity or finite. -/
theorem cases32 (x : F32) : isNaN32 x = true ∨ mag32 x = infMag binary32 ∨ isFinite32 x = true := by
  rw [nan32_iff, finite32_iff]
  omega

/-- The order of two values of one sign ≥ 0 is that of their encodings. -/
theorem order32_nonneg {x : F32} (h : x.msb = false) : order32 x = (magUnits binary32 (mag32 x) : Int) := by
  simp [order32, signed, h]

theorem order32_neg {x : F32} (h : x.msb = true) : order32 x = -(magUnits binary32 (mag32 x) : Int) := by
  simp [order32, signed, h]

theorem le32_iff (x y : F32) : le32 x y = true ↔ isNaN32 x = false ∧ isNaN32 y = false ∧ order32 x ≤ order32 y := by
  simp [le32, and_assoc]

theorem lt32_iff (x y : F32) : lt32 x y = true ↔ isNaN32 x = false ∧ isNaN32 y = false ∧ order32 x < order32 y := by
  simp [lt32, and_assoc]

/-- For values not below +0, `≤` is that of the encodings. -/
theorem le32_nonneg {x y : F32} (hx : x.msb = false) (hy : y.msb = false) (nx : isNaN32 x = false) (ny : isNaN32 y = false) :
    le32 x y = true ↔ mag32 x ≤ mag32 y := by
  rw [le32_iff, order32_nonneg hx, order32_nonneg hy, Int.ofNat_le, magUnits_le_iff]
  simp [nx, ny]

/-- For values not below +0, `<` is that of the encodings. -/
theorem lt32_nonneg {x y : F32} (hx : x.msb = false) (hy : y.msb = false) (nx : isNaN32 x = false) (ny : isNaN32 y = false) :
    lt32 x y = true ↔ mag32 x < mag32 y := by
  rw [lt32_iff, order32_nonneg hx, order32_nonneg hy, Int.ofNat_lt, ← not_le, magUnits_le_iff]
  simp [nx, ny]

/-- `add32` returns the canonical NaN or no NaN (00_scope.md R14); so do the other operations. -/
theorem add32_canonical (x y : F32) (h : isNaN32 (add32 x y) = true) : add32 x y = nan32 := round32_canonical _ h
theorem sub32_canonical (x y : F32) (h : isNaN32 (sub32 x y) = true) : sub32 x y = nan32 := round32_canonical _ h
theorem mul32_canonical (x y : F32) (h : isNaN32 (mul32 x y) = true) : mul32 x y = nan32 := round32_canonical _ h
theorem div32_canonical (x y : F32) (h : isNaN32 (div32 x y) = true) : div32 x y = nan32 := round32_canonical _ h

/-- The sum of finite values. -/
theorem add32_finite {x y : F32} (hx : isFinite32 x = true) (hy : isFinite32 y = true) :
    add32 x y = if order32 x + order32 y = 0 then pack32 (x.msb && y.msb, 0)
      else round32 (.ratio (decide (order32 x + order32 y < 0)) (order32 x + order32 y).natAbs 1) := by
  unfold add32
  rw [datum32_finite hx, datum32_finite hy]
  unfold exactAdd
  dsimp only
  change round32 (if order32 x + order32 y = 0 then _ else _) = _
  split
  · have := round32_exact_one (x.msb && y.msb) 0 (Nat.zero_le _)
    simpa using this
  · rfl

/-- The difference of finite values. -/
theorem sub32_finite {x y : F32} (hx : isFinite32 x = true) (hy : isFinite32 y = true) :
    sub32 x y = if order32 x - order32 y = 0 then pack32 (x.msb && !y.msb, 0)
      else round32 (.ratio (decide (order32 x - order32 y < 0)) (order32 x - order32 y).natAbs 1) := by
  unfold sub32
  rw [datum32_finite hx, datum32_finite hy]
  unfold negDatum exactAdd
  dsimp only
  have hs : signed (!y.msb) (magUnits binary32 (mag32 y)) = -order32 y := by
    unfold order32 signed
    cases y.msb <;> simp
  rw [hs]
  change round32 (if order32 x + -order32 y = 0 then _ else _) = _
  rw [← Int.sub_eq_add_neg]
  split
  · have := round32_exact_one (x.msb && !y.msb) 0 (Nat.zero_le _)
    simpa using this
  · rfl

/-- The product of finite values. -/
theorem mul32_finite {x y : F32} (hx : isFinite32 x = true) (hy : isFinite32 y = true) :
    mul32 x y = round32 (.ratio (x.msb ^^ y.msb)
      (magUnits binary32 (mag32 x) * magUnits binary32 (mag32 y)) (2 ^ binary32.unitExp)) := by
  unfold mul32
  rw [datum32_finite hx, datum32_finite hy]
  rfl

/-! ## F64 -/

theorem mag64_lt (x : F64) : mag64 x < 2 ^ 63 := Nat.mod_lt _ (Nat.two_pow_pos _)

theorem toNat_pack64 (s : Bool) (m : Nat) (h : m < 2 ^ 63) : (pack64 (s, m)).toNat = s.toNat * 2 ^ 63 + m := by
  unfold pack64
  rw [BitVec.toNat_ofNat]
  apply Nat.mod_eq_of_lt
  cases s <;> simp <;> omega

@[simp] theorem mag_pack64 (s : Bool) (m : Nat) (h : m < 2 ^ 63) : mag64 (pack64 (s, m)) = m := by
  unfold mag64
  rw [toNat_pack64 s m h, Nat.mul_add_mod_self_right, Nat.mod_eq_of_lt h]

@[simp] theorem msb_pack64 (s : Bool) (m : Nat) (h : m < 2 ^ 63) : (pack64 (s, m)).msb = s := by
  rw [BitVec.msb_eq_decide, toNat_pack64 s m h]
  cases s
  · simp; omega
  · simp

/-- A sign and a magnitude make the value they came from. -/
theorem pack64_self (x : F64) : pack64 (x.msb, mag64 x) = x := by
  apply BitVec.eq_of_toNat_eq
  rw [toNat_pack64 _ _ (mag64_lt x), BitVec.msb_eq_decide]
  have := x.isLt
  unfold mag64
  by_cases h : 2 ^ (64 - 1) ≤ x.toNat <;> simp only [h, decide_true, decide_false, Bool.toNat_true, Bool.toNat_false] <;> omega

theorem ext64 {x y : F64} (hs : x.msb = y.msb) (hm : mag64 x = mag64 y) : x = y := by
  rw [← pack64_self x, ← pack64_self y, hs, hm]

theorem infMag64 : infMag binary64 = 0x7FF0000000000000 := by rw [infMag]; rfl

theorem nanMag64 : nanMag binary64 = 0x7FF8000000000000 := by rw [nanMag, infMag64]; rfl

theorem roundExact_lt64 (e : Exact) : (roundExact binary64 e).2 < 2 ^ 63 := by
  cases e with
  | nan => simp only [roundExact, nanMag64]; omega
  | inf s => simp only [roundExact, infMag64]; omega
  | ratio s n d =>
    have := roundMag_le_inf binary64 n d
    rw [infMag64] at this
    simp only [roundExact]
    omega

theorem mag_round64 (e : Exact) : mag64 (round64 e) = (roundExact binary64 e).2 := mag_pack64 _ _ (roundExact_lt64 e)

theorem msb_round64 (e : Exact) : (round64 e).msb = (roundExact binary64 e).1 := msb_pack64 _ _ (roundExact_lt64 e)

/-- The only NaN an operation returns is the canonical one (00_scope.md R14). -/
theorem round64_canonical (e : Exact) (h : isNaN64 (round64 e) = true) : round64 e = nan64 := by
  simp only [isNaN64, decide_eq_true_eq] at h
  have h' : infMag binary64 < (roundExact binary64 e).2 := by rw [← mag_round64]; exact h
  cases e with
  | nan => unfold round64 roundExact nan64 pack64; rw [nanMag64]; rfl
  | inf s => simp [roundExact] at h'
  | ratio s n d =>
    have := roundMag_le_inf binary64 n d
    simp only [roundExact] at h'
    omega

@[simp] theorem round64_nan : round64 .nan = nan64 := by
  unfold round64 roundExact nan64 pack64; rw [nanMag64]; rfl

/-- A value that is not a NaN rounds to itself. -/
theorem round64_exact (s : Bool) (g d : Nat) (hg : g ≤ infMag binary64) (hd : 0 < d) :
    round64 (.ratio s (magUnits binary64 g * d) d) = pack64 (s, g) := by
  simp only [round64, roundExact]
  rw [roundMag_magUnits binary64 g d hg hd]

theorem round64_exact_one (s : Bool) (g : Nat) (hg : g ≤ infMag binary64) :
    round64 (.ratio s (magUnits binary64 g) 1) = pack64 (s, g) := by
  simpa using round64_exact s g 1 hg one_pos

theorem finite64_iff (x : F64) : isFinite64 x = true ↔ mag64 x < infMag binary64 := by simp [isFinite64]

theorem nan64_iff (x : F64) : isNaN64 x = true ↔ infMag binary64 < mag64 x := by simp [isNaN64]

theorem not_nan64_iff (x : F64) : isNaN64 x = false ↔ mag64 x ≤ infMag binary64 := by simp [isNaN64]

theorem not_nan_of_finite64 {x : F64} (h : isFinite64 x = true) : isNaN64 x = false :=
  (not_nan64_iff x).2 ((finite64_iff x).1 h).le

/-- The datum of a finite value. -/
theorem datum64_finite {x : F64} (h : isFinite64 x = true) : datum64 x = .fin x.msb (magUnits binary64 (mag64 x)) := by
  have h1 := (finite64_iff x).1 h
  unfold datum64 unpack
  rw [if_neg (by omega), if_neg (by omega)]

/-- The datum of a NaN. -/
theorem datum64_nan {x : F64} (h : isNaN64 x = true) : datum64 x = .nan := by
  unfold datum64 unpack
  rw [if_pos ((nan64_iff x).1 h)]

/-- The datum of an infinity. -/
theorem datum64_inf {x : F64} (h : mag64 x = infMag binary64) : datum64 x = .inf x.msb := by
  unfold datum64 unpack
  rw [if_neg (by omega), if_pos h]

/-- Every F64 is a NaN, an infinity or finite. -/
theorem cases64 (x : F64) : isNaN64 x = true ∨ mag64 x = infMag binary64 ∨ isFinite64 x = true := by
  rw [nan64_iff, finite64_iff]
  omega

/-- The order of two values of one sign ≥ 0 is that of their encodings. -/
theorem order64_nonneg {x : F64} (h : x.msb = false) : order64 x = (magUnits binary64 (mag64 x) : Int) := by
  simp [order64, signed, h]

theorem order64_neg {x : F64} (h : x.msb = true) : order64 x = -(magUnits binary64 (mag64 x) : Int) := by
  simp [order64, signed, h]

theorem le64_iff (x y : F64) : le64 x y = true ↔ isNaN64 x = false ∧ isNaN64 y = false ∧ order64 x ≤ order64 y := by
  simp [le64, and_assoc]

theorem lt64_iff (x y : F64) : lt64 x y = true ↔ isNaN64 x = false ∧ isNaN64 y = false ∧ order64 x < order64 y := by
  simp [lt64, and_assoc]

/-- For values not below +0, `≤` is that of the encodings. -/
theorem le64_nonneg {x y : F64} (hx : x.msb = false) (hy : y.msb = false) (nx : isNaN64 x = false) (ny : isNaN64 y = false) :
    le64 x y = true ↔ mag64 x ≤ mag64 y := by
  rw [le64_iff, order64_nonneg hx, order64_nonneg hy, Int.ofNat_le, magUnits_le_iff]
  simp [nx, ny]

/-- For values not below +0, `<` is that of the encodings. -/
theorem lt64_nonneg {x y : F64} (hx : x.msb = false) (hy : y.msb = false) (nx : isNaN64 x = false) (ny : isNaN64 y = false) :
    lt64 x y = true ↔ mag64 x < mag64 y := by
  rw [lt64_iff, order64_nonneg hx, order64_nonneg hy, Int.ofNat_lt, ← not_le, magUnits_le_iff]
  simp [nx, ny]

/-- `add64` returns the canonical NaN or no NaN (00_scope.md R14); so do the other operations. -/
theorem add64_canonical (x y : F64) (h : isNaN64 (add64 x y) = true) : add64 x y = nan64 := round64_canonical _ h
theorem sub64_canonical (x y : F64) (h : isNaN64 (sub64 x y) = true) : sub64 x y = nan64 := round64_canonical _ h
theorem mul64_canonical (x y : F64) (h : isNaN64 (mul64 x y) = true) : mul64 x y = nan64 := round64_canonical _ h
theorem div64_canonical (x y : F64) (h : isNaN64 (div64 x y) = true) : div64 x y = nan64 := round64_canonical _ h

/-- The sum of finite values. -/
theorem add64_finite {x y : F64} (hx : isFinite64 x = true) (hy : isFinite64 y = true) :
    add64 x y = if order64 x + order64 y = 0 then pack64 (x.msb && y.msb, 0)
      else round64 (.ratio (decide (order64 x + order64 y < 0)) (order64 x + order64 y).natAbs 1) := by
  unfold add64
  rw [datum64_finite hx, datum64_finite hy]
  unfold exactAdd
  dsimp only
  change round64 (if order64 x + order64 y = 0 then _ else _) = _
  split
  · have := round64_exact_one (x.msb && y.msb) 0 (Nat.zero_le _)
    simpa using this
  · rfl

/-- The difference of finite values. -/
theorem sub64_finite {x y : F64} (hx : isFinite64 x = true) (hy : isFinite64 y = true) :
    sub64 x y = if order64 x - order64 y = 0 then pack64 (x.msb && !y.msb, 0)
      else round64 (.ratio (decide (order64 x - order64 y < 0)) (order64 x - order64 y).natAbs 1) := by
  unfold sub64
  rw [datum64_finite hx, datum64_finite hy]
  unfold negDatum exactAdd
  dsimp only
  have hs : signed (!y.msb) (magUnits binary64 (mag64 y)) = -order64 y := by
    unfold order64 signed
    cases y.msb <;> simp
  rw [hs]
  change round64 (if order64 x + -order64 y = 0 then _ else _) = _
  rw [← Int.sub_eq_add_neg]
  split
  · have := round64_exact_one (x.msb && !y.msb) 0 (Nat.zero_le _)
    simpa using this
  · rfl

/-- The product of finite values. -/
theorem mul64_finite {x y : F64} (hx : isFinite64 x = true) (hy : isFinite64 y = true) :
    mul64 x y = round64 (.ratio (x.msb ^^ y.msb)
      (magUnits binary64 (mag64 x) * magUnits binary64 (mag64 y)) (2 ^ binary64.unitExp)) := by
  unfold mul64
  rw [datum64_finite hx, datum64_finite hy]
  rfl

end Sys2Proof.Machine
end

