-- ==== Sys2Proof/Laws/Arith.lean ====
section
/-! SUPPORT. Bounds and exact cases of the F32 operations. -/

namespace Sys2Proof.Machine

set_option Elab.async false

/-- The constants of the rules, as finite values. -/
theorem zero32_finite : isFinite32 zero32 = true := by decide +kernel
theorem zero32_msb : zero32.msb = false := by decide +kernel
theorem zero32_not_nan : isNaN32 zero32 = false := by decide +kernel
theorem mag_zero32 : mag32 zero32 = 0 := by decide +kernel
theorem order_zero32 : order32 zero32 = 0 := by rw [order32_nonneg zero32_msb, mag_zero32]; simp
theorem one32_finite : isFinite32 one32 = true := by decide +kernel
theorem one32_msb : one32.msb = false := by decide +kernel
theorem one32_not_nan : isNaN32 one32 = false := by decide +kernel
theorem mag_one32 : mag32 one32 = 0x3F800000 := by decide +kernel
theorem units_one32 : magUnits binary32 (mag32 one32) = 2 ^ 149 := by decide +kernel
theorem two32_finite : isFinite32 two32 = true := by decide +kernel
theorem two32_msb : two32.msb = false := by decide +kernel
theorem units_two32 : magUnits binary32 (mag32 two32) = 2 * 2 ^ 149 := by decide +kernel

/-- The largest finite magnitude. -/
theorem units_max32 : magUnits binary32 (infMag binary32 - 1) = (2^24 - 1) * 2^253 := by decide +kernel

/-- What is neither a NaN nor ≤ 0 is positive. -/
theorem pos_of_not_le_zero {v : F32} (h : le32 v zero32 = false) (hn : isNaN32 v = false) : v.msb = false ∧ 0 < mag32 v := by
  have : ¬ (le32 v zero32 = true) := by simp [h]
  rw [le32_iff, order_zero32] at this
  simp only [hn, zero32_not_nan, true_and, not_le] at this
  have hm : v.msb = false := by
    cases h' : v.msb
    · rfl
    · rw [order32_neg h'] at this; omega
  refine ⟨hm, ?_⟩
  rw [order32_nonneg hm] at this
  rcases Nat.eq_zero_or_pos (mag32 v) with h0 | h0
  · rw [h0] at this; simp at this
  · exact h0

/-- The zero without a sign is +0. -/
theorem eq_zero32 {v : F32} (h1 : v.msb = false) (h2 : mag32 v = 0) : v = zero32 := ext32 (h1.trans zero32_msb.symm)
    (h2.trans mag_zero32.symm)

/-- The order is total on the values that are not NaNs. -/
theorem le32_of_not_le {x y : F32} (hx : isNaN32 x = false) (hy : isNaN32 y = false) (h : le32 x y = false) : le32 y x =
    true := by
  have : ¬ (le32 x y = true) := by simp [h]
  rw [le32_iff] at *
  simp only [hx, hy, true_and] at *
  omega

/-- `≤` is transitive. -/
theorem le32_trans {x y z : F32} (h1 : le32 x y = true) (h2 : le32 y z = true) : le32 x z = true := by
  rw [le32_iff] at *; exact ⟨h1.1, h2.2.1, h1.2.2.trans h2.2.2⟩

theorem le_zero_zero32 : le32 zero32 zero32 = true := by decide +kernel

/-- A value above 0 has no sign bit and is not a zero. -/
theorem pos_of_zero_lt32 {sr : F32} (h : lt32 zero32 sr = true) : sr.msb = false ∧ mag32 sr ≠ 0 := by
  rw [lt32_iff, order_zero32] at h
  have hm : sr.msb = false := by
    cases h' : sr.msb
    · rfl
    · rw [order32_neg h'] at h; omega
  refine ⟨hm, ?_⟩
  rw [order32_nonneg hm] at h
  intro h0; rw [h0] at h; simp at h

/-- The order of a value is its magnitude in units, with its sign. -/
theorem natAbs_order32 (x : F32) : (order32 x).natAbs = magUnits binary32 (mag32 x) := by
  unfold order32 signed
  split <;> simp

/-- A magnitude that is representable and finite bounds the rounding of everything below it. -/
theorem round32_le {s n d} (hd : 0 < d) {g} (hg : g < infMag binary32) (h : n ≤ magUnits binary32 g * d) :
    isFinite32 (round32 (.ratio s n d)) = true ∧ mag32 (round32 (.ratio s n d)) ≤ g := by
  have h1 : mag32 (round32 (.ratio s n d)) ≤ g := by rw [mag_round32]; exact roundMag_le binary32 n d g hd hg.le h
  exact ⟨(finite32_iff _).2 (by omega), h1⟩

theorem finite_pack_zero32 (s : Bool) : isFinite32 (pack32 (s, 0)) = true := by cases s <;> decide +kernel
theorem mag_pack_zero32 (s : Bool) : mag32 (pack32 (s, 0)) = 0 := mag_pack32 _ _ (by omega)
theorem finite_of_zero32 {x : F32} (h : mag32 x = 0) : isFinite32 x = true := by rw [finite32_iff, h, infMag32]; omega

/-- A bound on the exact sum bounds the rounded one. -/
theorem add32_le {x y : F32} (hx : isFinite32 x = true) (hy : isFinite32 y = true) {g} (hg : g < infMag binary32)
   (h : (order32 x + order32 y).natAbs ≤ magUnits binary32 g) : isFinite32 (add32 x y) = true ∧ mag32 (add32 x y) ≤ g := by
  rw [add32_finite hx hy]
  split
  · exact ⟨finite_pack_zero32 _, by rw [mag_pack_zero32]; omega⟩
  · exact round32_le one_pos hg (by simpa using h)

/-- A bound on the exact difference bounds the rounded one. -/
theorem sub32_le {x y : F32} (hx : isFinite32 x = true) (hy : isFinite32 y = true) {g} (hg : g < infMag binary32)
   (h : (order32 x - order32 y).natAbs ≤ magUnits binary32 g) : isFinite32 (sub32 x y) = true ∧ mag32 (sub32 x y) ≤ g := by
  rw [sub32_finite hx hy]
  split
  · exact ⟨finite_pack_zero32 _, by rw [mag_pack_zero32]; omega⟩
  · exact round32_le one_pos hg (by simpa using h)

/-- The quotient of finite values, the divisor not 0. -/
theorem div32_finite {x y : F32} (hx : isFinite32 x = true) (hy : isFinite32 y = true) (h0 : mag32 y ≠ 0) :
   div32 x y = round32 (.ratio (x.msb ^^ y.msb) (magUnits binary32 (mag32 x) * 2 ^ 149) (magUnits binary32 (mag32 y))) := by
  unfold div32
  rw [datum32_finite hx, datum32_finite hy]
  unfold exactDiv
  dsimp only
  rw [if_neg (by rw [magUnits_eq_zero]; exact h0)]; rfl

/-- `toF32` is exact up to 2^24. -/
theorem toF32_exact {n : Nat} (h : n ≤ 2^24) : magUnits binary32 (mag32 (toF32 n)) = n * 2^149 ∧ (toF32 n).msb = false ∧
    isFinite32 (toF32 n) = true := by
  obtain ⟨g, hg⟩ := exists_mag binary32 n 149 h
  have hgi : g < infMag binary32 := by
    rw [← not_le, ← magUnits_le_iff binary32, hg]
    have : 2^24 * 2^149 < magUnits binary32 (infMag binary32) := by decide +kernel
    have := Nat.mul_le_mul_right (2^149) h
    omega
  have : toF32 n = pack32 (false, g) := by
    show round32 (.ratio false (n * 2^149) 1) = _
    rw [← hg]; exact round32_exact_one _ _ hgi.le
  have hlt : g < 2^31 := by rw [infMag32] at hgi; omega
  rw [this, mag_pack32 _ _ hlt, msb_pack32 _ _ hlt, finite32_iff, mag_pack32 _ _ hlt]
  exact ⟨hg, rfl, hgi⟩

/-- `toF32` gives no NaN and no sign. -/
theorem toF32_not_nan (n : Nat) : isNaN32 (toF32 n) = false := by
  rw [not_nan32_iff]; unfold toF32; rw [mag_round32]; exact roundMag_le_inf _ _ _

theorem toF32_msb (n : Nat) : (toF32 n).msb = false := by unfold toF32; rw [msb_round32]; rfl

/-- The floor of a whole number is the number. -/
theorem floorNat_exact {x : F32} {n : Nat} (h1 : magUnits binary32 (mag32 x) = n * 2^149) (h2 : x.msb = false)
    (h3 : isFinite32 x = true) : floorNat x = n := by
  have h4 := datum32_finite h3
  have hp := Nat.two_pow_pos 149
  have hu : binary32.unitExp = 149 := rfl
  unfold floorNat
  rw [h4, h2, h1, hu]
  generalize 2^149 = A at hp
  simp only [Bool.false_eq_true, false_and, ↓reduceIte]
  exact Nat.mul_div_cancel n hp

/-- 1 is the unit of multiplication. -/
theorem mul32_one_left {x : F32} (h : isNaN32 x = false) : mul32 one32 x = x := by
  rcases cases32 x with h' | h' | h'
  · simp [h] at h'
  · unfold mul32
    rw [datum32_inf h']
    rw [datum32_finite one32_finite]
    unfold exactMul
    dsimp only
    rw [if_neg (by rw [units_one32]; exact (Nat.two_pow_pos _).ne')]
    apply ext32
    · rw [msb_round32]; simp [roundExact, one32_msb]
    · rw [mag_round32, h']; rfl
  · rw [mul32_finite one32_finite h', units_one32, Nat.mul_comm]
    show round32 (.ratio _ _ (2^149)) = x
    rw [round32_exact _ _ _ ((finite32_iff x).1 h').le (Nat.two_pow_pos _), one32_msb, Bool.false_xor, pack32_self]

/-- A product with a zero is a zero. -/
theorem mul32_zero {x y : F32} (hx : isFinite32 x = true) (hy : isFinite32 y = true) (h : mag32 x = 0 ∨ mag32 y = 0) :
    mag32 (mul32 x y) = 0 ∧ (mul32 x y).msb = (x.msb ^^ y.msb) := by
  rw [mul32_finite hx hy, mag_round32, msb_round32]
  refine ⟨?_, rfl⟩
  show roundMag binary32 _ _ = 0
  have : magUnits binary32 (mag32 x) * magUnits binary32 (mag32 y) = 0 := by rcases h with h | h <;> simp [h]
  rw [this]; exact roundMag_zero _ _

/-- Adding a zero keeps the value, and its bits unless it is a zero itself. -/
theorem add32_zero_right {x z : F32} (hx : isNaN32 x = false) (hz : mag32 z = 0) : eq32 (add32 x z) x = true ∧
    (mag32 x ≠ 0 → add32 x z = x) := by
  have zf : isFinite32 z = true := by rw [finite32_iff, hz, infMag32]; omega
  have zo : order32 z = 0 := by unfold order32 signed; rw [hz]; simp
  rcases cases32 x with h' | h' | h'
  · simp [hx] at h'
  · have : add32 x z = x := by
      unfold add32; rw [datum32_inf h', datum32_finite zf]
      unfold exactAdd
      apply ext32
      · rw [msb_round32]; rfl
      · rw [mag_round32, h']; rfl
    rw [this]; simp [eq32, hx]
  · by_cases h0 : mag32 x = 0
    · have xo : order32 x = 0 := by unfold order32 signed; rw [h0]; simp
      have : add32 x z = pack32 (x.msb && z.msb, 0) := by rw [add32_finite h' zf, if_pos (by omega)]
      have hn : isNaN32 (pack32 (x.msb && z.msb, 0)) = false := not_nan_of_finite32 (finite_pack_zero32 _)
      have ho : order32 (pack32 (x.msb && z.msb, 0)) = 0 := by unfold order32 signed; rw [mag_pack_zero32]; simp
      rw [this]; simp [eq32, hn, hx, ho, xo, h0]
    · have : add32 x z = x := by
        have hu : magUnits binary32 (mag32 x) ≠ 0 := by rw [Ne, magUnits_eq_zero]; exact h0
        rw [add32_finite h' zf, zo, add_zero, if_neg]
        · have e : (order32 x).natAbs = magUnits binary32 (mag32 x) := by unfold order32 signed; split <;> simp
          have e2 : decide (order32 x < 0) = x.msb := by
            cases hm : x.msb
            · rw [order32_nonneg hm]; simp
            · rw [order32_neg hm]; simp; omega
          rw [e, e2, round32_exact_one _ _ ((finite32_iff x).1 h').le, pack32_self]
        · unfold order32 signed; split <;> simp [hu]
      rw [this]; simp [eq32, hx]

/-- Adding a zero to a value not below +0 keeps its bits. -/
theorem add32_zero_nonneg {x z : F32} (hx : isFinite32 x = true) (hm : x.msb = false) (hz : mag32 z = 0) : add32 x z =
    x := by
  by_cases h0 : mag32 x = 0
  · have zf : isFinite32 z = true := by rw [finite32_iff, hz, infMag32]; omega
    have zo : order32 z = 0 := by unfold order32 signed; rw [hz]; simp
    have xo : order32 x = 0 := by unfold order32 signed; rw [h0]; simp
    rw [add32_finite hx zf, if_pos (by omega), hm, Bool.false_and]
    rw [eq_zero32 hm h0]; decide +kernel
  · exact (add32_zero_right (not_nan_of_finite32 hx) hz).2 h0

/-- A product with a factor in [-1, 1] is no larger. -/
theorem mul32_unit_le {x y : F32} (hx : isFinite32 x = true) (hy : mag32 y ≤ mag32 one32) : isFinite32 (mul32 x y) =
    true ∧ mag32 (mul32 x y) ≤ mag32 x ∧ (mul32 x y).msb = (x.msb ^^ y.msb) := by
  have yf : isFinite32 y = true := by rw [finite32_iff, infMag32]; rw [mag_one32] at hy; omega
  have h1 := (magUnits_le_iff binary32).2 hy
  rw [units_one32] at h1
  rw [mul32_finite hx yf]
  have := round32_le (s := x.msb ^^ y.msb) (n := magUnits binary32 (mag32 x) * magUnits binary32 (mag32 y)) (d := 2^149)
      (Nat.two_pow_pos _) ((finite32_iff x).1 hx) (Nat.mul_le_mul_left _ h1)
  exact ⟨this.1, this.2, msb_round32 _⟩

/-- Half a value is no larger. -/
theorem div32_two_le {x : F32} (hx : isFinite32 x = true) : isFinite32 (div32 x two32) = true ∧
    mag32 (div32 x two32) ≤ mag32 x ∧ (div32 x two32).msb = x.msb := by
  have h0 : mag32 two32 ≠ 0 := by decide +kernel
  have hd := div32_finite hx two32_finite h0
  have hp := Nat.two_pow_pos 149
  have h2 := units_two32
  generalize 2^149 = A at hd hp h2
  rw [h2] at hd
  rw [hd]
  have := round32_le (s := x.msb ^^ two32.msb) (n := magUnits binary32 (mag32 x) * A) (d := 2*A) (by omega)
      ((finite32_iff x).1 hx) (by rw [Nat.mul_comm 2 A, ← Nat.mul_assoc]; omega)
  exact ⟨this.1, this.2, by rw [msb_round32]; simp [roundExact, two32_msb]⟩

/-- A difference of ordered values not below +0 is not below +0. -/
theorem sub32_nonneg {x y : F32} (hx : isFinite32 x = true) (hy : isFinite32 y = true) (mx : x.msb = false) (my : y.msb =
    false) (h : mag32 y ≤ mag32 x) :
   isFinite32 (sub32 x y) = true ∧ (sub32 x y).msb = false ∧ mag32 (sub32 x y) ≤ mag32 x := by
  have h1 := (magUnits_le_iff binary32).2 h
  have h2 : (order32 x - order32 y).natAbs ≤ magUnits binary32 (mag32 x) := by
    rw [order32_nonneg mx, order32_nonneg my]
    omega
  obtain ⟨a, b⟩ := sub32_le hx hy ((finite32_iff x).1 hx) h2
  refine ⟨a, ?_, b⟩
  rw [sub32_finite hx hy]
  split
  · rw [msb_pack32 _ _ (by omega)]; simp [mx]
  · rw [msb_round32]; simp only [roundExact, decide_eq_false_iff_not, not_lt]
    rw [order32_nonneg mx, order32_nonneg my]; omega

/-- `neg32` flips the sign and keeps the magnitude. -/
theorem msb_neg32 (x : F32) : (neg32 x).msb = !x.msb := by
  unfold neg32
  rw [BitVec.msb_xor, show (0x80000000#32).msb = true from by decide]
  simp

theorem mag_neg32 (x : F32) : mag32 (neg32 x) = mag32 x := by
  unfold mag32 neg32
  apply Nat.eq_of_testBit_eq
  intro i
  rw [Nat.testBit_mod_two_pow, Nat.testBit_mod_two_pow, BitVec.toNat_xor, Nat.testBit_xor]
  by_cases h : i < 31
  · simp [h, show ((0x80000000 : Nat).testBit i) = false from by interval_cases i <;> decide]
  · simp [h]

theorem inRange_zero (k) : inRange k zero32 := ⟨zero32_finite, zero32_msb, fun _ => by decide +kernel⟩
theorem inRange_one (k) : inRange k one32 := ⟨one32_finite, one32_msb, fun _ => by decide +kernel⟩

/-- `intoRange` is onto the range: it answers values of the range only, and each of them for itself. -/
theorem intoRange_range (k : ScalarId) (x : F32) : inRange k (intoRange k x) := by
  unfold intoRange
  split
  · assumption
  · exact inRange_zero k

theorem intoRange_eq {k : ScalarId} {x : F32} (h : inRange k x) : intoRange k x = x := if_pos h

/-- CLAMP_P answers a value of the parameter's range, for every argument. -/
theorem clampP_range (k : ScalarId) (v : F32) : inRange k (clampP k v) := by
  unfold clampP
  split
  · exact inRange_zero k
  · rename_i h1
    split
    · exact inRange_one k
    split
    · rename_i h2 hf
      refine ⟨hf, (pos_of_not_le_zero (by simpa using h1) (not_nan_of_finite32 hf)).1, ?_⟩
      intro hu
      simp only [hu, Bool.true_and] at h2
      exact le32_of_not_le one32_not_nan (not_nan_of_finite32 hf) (by simpa using h2)
    · exact intoRange_range k _

/-- SM_FRAME keeps CUR in range and TGT as it is (42_smoother.md R172). -/
theorem smootherFrame_range {k : ScalarId} {sm : Smoother} (ht : inRange k sm.tgt) (hc : inRange k sm.cur) :
    inRange k (smootherFrame k sm).tgt ∧ inRange k (smootherFrame k sm).cur := by
  unfold smootherFrame
  split
  · exact ⟨ht, hc⟩
  · split
    · exact ⟨ht, ht⟩
    · exact ⟨ht, clampP_range k _⟩

/-- A value in range has no sign and is no NaN. -/
theorem canonical_of_inRange {k v} (h : inRange k v) : v.msb = false ∧ canonical32 v := ⟨h.2.1,
    fun h' => by have := not_nan_of_finite32 h.1; simp [this] at h'⟩

end Sys2Proof.Machine
end

