-- ==== Sys2Proof/Laws/Bus.lean ====
section
/-! SUPPORT. What one step does, and what an address decodes to: the lemmas callers cite instead of unfolding the bus. -/

namespace Sys2Proof.Machine

@[simp] theorem opcodeOf_eq (w : Word) : opcodeOf w = w.toNat / 2 ^ 24 := by
  have := w.isLt
  rw [opcodeOf, field]; omega

theorem step_idle {s : State} (h : s.bus = []) : step s = .next s := by simp [step, nextTxn, h]

theorem step_cons {s : State} {t : Txn} {rest : List Txn} (h : s.bus = t :: rest) :
    step s = transact t { s with bus := rest } := by simp [step, nextTxn, h]

theorem step_write {s : State} {a v : Word} {rest : List Txn} (h : s.bus = .write a v :: rest) :
    step s = hostWrite a v { s with bus := rest } := by simp [step, nextTxn, transact, h]

theorem step_command {s : State} {w : Word} {rest : List Txn} (h : s.bus = .write cmdAddr w :: rest) :
    step s = cmdDispatch w { s with bus := rest } := by
  rw [step_write h]; simp [hostWrite, cmdAddr, aligned, decodeAddr, decodeReg, writeReg]

/-- A read answers a word and sets at most ERR_BUS. -/
theorem hostRead_shape (a : Word) (s : State) : (hostRead a s).2 = s ∨ (hostRead a s) = (0#32, raiseError .bus s) := by
  unfold hostRead
  split
  · exact .inr rfl
  · split <;> simp

/-- A register offset decodes to a register or to nothing; the three writable registers are at their own offsets only. -/
theorem decodeReg_cases (hw : Params) (o : Nat) :
    (∃ r, decodeReg hw o = .reg r ∧ (r = .cmd → o = 8) ∧ (r = .arg0 → o = 12) ∧ (r = .arg1 → o = 16)) ∨
    decodeReg hw o = .none := by
  let P : Target → Prop := fun t =>
    (∃ r, t = .reg r ∧ (r = .cmd → o = 8) ∧ (r = .arg0 → o = 12) ∧ (r = .arg1 → o = 16)) ∨ t = .none
  show P _
  unfold decodeReg
  iterate 17
    refine iteInduction (fun h => .inl ⟨_, rfl, ?_, ?_, ?_⟩) fun _ => ?_
    · intro h'; first | exact h | cases h'
    · intro h'; first | exact h | cases h'
    · intro h'; first | exact h | cases h'
  refine iteInduction (fun _ => .inl ⟨_, rfl, ?_⟩) fun _ => ?_
  · unfold paramReg
    split <;> simp
  · exact iteInduction (fun _ => .inl ⟨_, rfl, by simp⟩) fun _ => .inr rfl

/-- What a write can do: a command, a store to an argument or to IN, or an error. -/
theorem hostWrite_cases (a v : Word) (s : State) :
    (a = cmdAddr ∧ hostWrite a v s = cmdDispatch v s) ∨
    (a = 0x00C#32 ∧ hostWrite a v s = .next { s with arg0 := v }) ∨
    (a = 0x010#32 ∧ hostWrite a v s = .next { s with arg1 := v }) ∨
    (∃ c i, aligned a = true ∧ decodeAddr s.hw a.toNat = .inBuf c i ∧ hostWrite a v s = .next (setIn c i v s)) ∨
    hostWrite a v s = .next (raiseError .bus s) := by
  unfold hostWrite
  split
  · simp
  · rename_i ha
    cases hd : decodeAddr s.hw a.toNat with
    | reg r =>
      have hr : decodeReg s.hw a.toNat = .reg r := by
        unfold decodeAddr at hd
        split_ifs at hd with h1
        · exact hd
        all_goals simp only at hd; split_ifs at hd
      obtain ⟨r', hr', h1, h2, h3⟩ | hr' := decodeReg_cases s.hw a.toNat
      · obtain rfl : r = r' := by rw [hr] at hr'; cases hr'; rfl
        cases r <;> simp only [writeReg]
        case cmd => exact .inl ⟨BitVec.eq_of_toNat_eq (h1 rfl), trivial⟩
        case arg0 => exact .inr (.inl ⟨BitVec.eq_of_toNat_eq (h2 rfl), trivial⟩)
        case arg1 => exact .inr (.inr (.inl ⟨BitVec.eq_of_toNat_eq (h3 rfl), trivial⟩))
        all_goals simp
      · simp [hr] at hr'
    | inBuf c i => exact .inr (.inr (.inr (.inl ⟨c, i, by simpa using ha, rfl, rfl⟩)))
    | outBuf c i => simp
    | dl c j => simp
    | none => simp

theorem decodeAddr_reg {hw : Params} {a : Nat} (h : a < 0x1000) : decodeAddr hw a = decodeReg hw a := if_pos h

/-- Where an address decodes to `IN[c][i]`, it is the address of `IN[c][i]`, and the element exists. -/
theorem decodeAddr_inBuf {hw : Params} {a c i : Nat} (h4 : a % 4 = 0) (h : decodeAddr hw a = .inBuf c i) :
    a = inAddr hw c i ∧ c < hw.maxChannels ∧ i < hw.maxFrames := by
  unfold decodeAddr at h
  split at h
  · obtain ⟨r, hr, -⟩ | hr := decodeReg_cases hw a <;> simp [hr] at h
  · split at h
    · rename_i h1
      simp only at h
      split at h
      · rename_i hj
        simp only [Target.inBuf.injEq] at h
        obtain ⟨rfl, rfl⟩ := h
        have hf : 0 < hw.maxFrames := by
          rcases Nat.eq_zero_or_pos hw.maxFrames with h0 | h0
          · simp [h0] at hj
          · exact h0
        refine ⟨?_, ?_, Nat.mod_lt _ hf⟩
        · have := Nat.div_add_mod ((a - 0x00100000) / 4) hw.maxFrames
          rw [inAddr, inBase, Nat.mul_comm (_ / _)]; omega
        · rw [Nat.mul_comm] at hj; exact Nat.div_lt_of_lt_mul hj
      · cases h
    · simp only at h
      split_ifs at h

theorem decodeAddr_inAddr {hw : Params} {c i : Nat} (hl : hw.Legal) (hc : c < hw.maxChannels) (hi : i < hw.maxFrames) :
    decodeAddr hw (inAddr hw c i) = .inBuf c i := by
  have hlt : c * hw.maxFrames + i < hw.maxChannels * hw.maxFrames := by nlinarith
  have : (inAddr hw c i - 0x00100000) / 4 = c * hw.maxFrames + i := by rw [inAddr, inBase]; omega
  have hm := hl.2.2.2.2.2.2.1
  unfold decodeAddr
  rw [if_neg (by rw [inAddr, inBase]; omega), if_pos (by rw [inAddr, inBase]; omega)]
  simp only [this]
  rw [if_pos hlt, Nat.mul_comm, Nat.mul_add_div (by omega), Nat.mul_add_mod, Nat.div_eq_of_lt hi, Nat.mod_eq_of_lt hi]
  rfl

theorem decodeAddr_outAddr {hw : Params} {c i : Nat} (hl : hw.Legal) (hc : c < hw.maxChannels) (hi : i < hw.maxFrames) :
    decodeAddr hw (outAddr hw c i) = .outBuf c i := by
  have hlt : c * hw.maxFrames + i < hw.maxChannels * hw.maxFrames := by nlinarith
  have : (outAddr hw c i - 0x00200000) / 4 = c * hw.maxFrames + i := by rw [outAddr, outBase]; omega
  have hm := hl.2.2.2.2.2.2.1
  unfold decodeAddr
  rw [if_neg (by rw [outAddr, outBase]; omega), if_neg (by rw [outAddr, outBase]; omega),
    if_pos (by rw [outAddr, outBase]; omega)]
  simp only [this]
  rw [if_pos hlt, Nat.mul_comm, Nat.mul_add_div (by omega), Nat.mul_add_mod, Nat.div_eq_of_lt hi, Nat.mod_eq_of_lt hi]
  rfl

theorem decodeAddr_dlAddr {hw : Params} {c j : Nat} (hl : hw.Legal) (hc : c < hw.maxChannels) (hj : j < hw.maxCapacity) :
    decodeAddr hw (dlAddr hw c j) = .dl c j := by
  have hlt : c * hw.maxCapacity + j < hw.maxChannels * hw.maxCapacity := by nlinarith
  have : (dlAddr hw c j - 0x00400000) / 4 = c * hw.maxCapacity + j := by rw [dlAddr, dlBase]; omega
  have hm := hl.2.2.2.2.2.2.2
  unfold decodeAddr
  rw [if_neg (by rw [dlAddr, dlBase]; omega), if_neg (by rw [dlAddr, dlBase]; omega),
    if_neg (by rw [dlAddr, dlBase]; omega), if_pos (by rw [dlAddr, dlBase]; omega)]
  simp only [this]
  rw [if_pos hlt, Nat.mul_comm, Nat.mul_add_div (by omega), Nat.mul_add_mod, Nat.div_eq_of_lt hj, Nat.mod_eq_of_lt hj]
  rfl

/-- Two elements of one buffer row set: their addresses are a word apart, or they are one element. -/
theorem rows_disjoint {width c i c' i' : Nat} (hi : i < width) (hi' : i' < width) (h : ¬ (c = c' ∧ i = i')) :
    c * width + i + 1 ≤ c' * width + i' ∨ c' * width + i' + 1 ≤ c * width + i := by
  rcases Nat.lt_trichotomy c c' with hc | hc | hc
  · left; nlinarith
  · subst hc; omega
  · right; nlinarith

end Sys2Proof.Machine
end

