-- ==== Sys2Proof/Laws/Commands.lean ====
section
/-! SUPPORT. What CONFIGURE and RENDER can answer, once: callers cite these instead of unfolding the checks. -/

namespace Sys2Proof.Machine

/-- CONFIGURE either passes every check and stores the configuration, or sets ERR_CFG. -/
theorem execConfigure_cases (chn : Nat) (s : State) :
    (1 ≤ chn ∧ chn ≤ s.hw.maxChannels ∧ (isFinite32 s.arg0 = true ∧ lt32 zero32 s.arg0 = true) ∧
      (isFinite32 s.arg1 = true ∧ le32 zero32 s.arg1 = true) ∧
      isFinite32 (mul32 (plusZero s.arg1) (spmOf s.arg0)) = true ∧
      capacityOf (plusZero s.arg1) (spmOf s.arg0) ≤ s.hw.maxCapacity ∧
      execConfigure chn s = .next (applyConfig chn s.arg0 (plusZero s.arg1) (spmOf s.arg0)
        (capacityOf (plusZero s.arg1) (spmOf s.arg0)) s)) ∨
    ((chn < 1 ∨ s.hw.maxChannels < chn ∨ ¬ (isFinite32 s.arg0 = true ∧ lt32 zero32 s.arg0 = true) ∨
      ¬ (isFinite32 s.arg1 = true ∧ le32 zero32 s.arg1 = true) ∨
      isFinite32 (mul32 (plusZero s.arg1) (spmOf s.arg0)) = false ∨
      s.hw.maxCapacity < capacityOf (plusZero s.arg1) (spmOf s.arg0)) ∧
      execConfigure chn s = .next (raiseError .cfg s)) := by
  rw [execConfigure.eq_1 chn s, argF32.eq_1 s, arg1F32.eq_1 s]
  by_cases h1 : chn < 1 ∨ s.hw.maxChannels < chn
  · rw [if_pos h1]; exact .inr ⟨by omega, rfl⟩
  by_cases h2 : isFinite32 s.arg0 = true ∧ lt32 zero32 s.arg0 = true
  on_goal 2 => rw [if_neg h1, if_pos (by rw [Bool.not_eq_true', ← Bool.not_eq_true, Bool.and_eq_true]; exact h2)]; exact .inr ⟨.inr (.inr (.inl h2)), rfl⟩
  by_cases h3 : isFinite32 s.arg1 = true ∧ le32 zero32 s.arg1 = true
  on_goal 2 => rw [if_neg h1, if_neg (by simpa using h2), if_pos (by rw [Bool.not_eq_true', ← Bool.not_eq_true, Bool.and_eq_true]; exact h3)]
               exact .inr ⟨.inr (.inr (.inr (.inl h3))), rfl⟩
  rw [if_neg h1, if_neg (by simpa using h2), if_neg (by simpa using h3)]
  by_cases h4 : isFinite32 (mul32 (plusZero s.arg1) (spmOf s.arg0)) = true
  on_goal 2 => simp only [h4]; exact .inr ⟨by simp, rfl⟩
  by_cases h5 : s.hw.maxCapacity < capacityOf (plusZero s.arg1) (spmOf s.arg0)
  · simp only [h4, h5]; exact .inr ⟨by simp, rfl⟩
  · simp only [h4, h5]; exact .inl ⟨by omega, by omega, h2, h3, trivial, by omega, rfl⟩

/-- RENDER is rejected, does nothing, or renders. -/
theorem execRender_cases (n : Nat) (s : State) :
    ((s.hw.maxFrames < n ∨ (1 ≤ n ∧ s.configured = false)) ∧ execRender n s = .next (raiseError .render s)) ∨
    (n = 0 ∧ execRender n s = .next s) ∨
    (1 ≤ n ∧ n ≤ s.hw.maxFrames ∧ s.configured = true ∧ execRender n s = .next (renderCore n s)) := by
  unfold execRender
  by_cases h1 : s.hw.maxFrames < n
  · rw [if_pos h1]; exact .inl ⟨.inl h1, rfl⟩
  by_cases h2 : n = 0
  · rw [if_neg h1, if_pos h2]; exact .inr (.inl ⟨h2, rfl⟩)
  by_cases h3 : s.configured = false
  · rw [if_neg h1, if_neg h2, if_pos h3]; exact .inl ⟨.inr ⟨by omega, h3⟩, rfl⟩
  · rw [if_neg h1, if_neg h2, if_neg h3]; exact .inr (.inr ⟨by omega, by omega, by simpa using h3, rfl⟩)

end Sys2Proof.Machine
end

