-- ==== Sys2Proof/Laws/Memory.lean ====
section
/-! SUPPORT. The laws of the memory: read after write, and that every operation keeps the canonical form. -/

namespace Sys2Proof.Machine

@[simp] theorem readByte_nil (a : Nat) : readByte [] a = background := rfl

theorem readByte_writeByte (m : Memory) (a b : Nat) (v : Byte) (h : m.wf) :
    readByte (writeByte m a v) b = if b = a then v else readByte m b := by
  induction m with
  | nil =>
    simp only [writeByte]
    split <;> simp_all [readByte, eq_comm]
  | cons cell m ih =>
    obtain ⟨k, x⟩ := cell
    have hm : Memory.wf m := ⟨(List.pairwise_cons.1 h.1).2, fun c hc => h.2 c (List.mem_cons_of_mem _ hc)⟩
    have hk : ∀ c ∈ m, k < c.1 := (List.pairwise_cons.1 h.1).1
    have absent : ∀ (l : Memory) (y : Nat), (∀ c ∈ l, y < c.1) → readByte l y = background := by
      intro l y hl
      induction l with
      | nil => rfl
      | cons d l ihl =>
        have hd := hl d (by simp)
        obtain ⟨dk, dx⟩ := d
        simp only [readByte]
        rw [if_neg (by simp at hd; omega)]
        exact ihl (fun c hc => hl c (List.mem_cons_of_mem _ hc))
    have hkk : readByte m k = background := absent m k hk
    have hak : a < k → readByte m a = background := fun hlt => absent m a (fun c hc => lt_trans hlt (hk c hc))
    simp only [writeByte]
    split
    · rename_i hlt
      split
      · rename_i hv
        by_cases hb : b = a
        · subst hb; simp [readByte, hv, hak hlt, Nat.ne_of_gt hlt]
        · simp [hb]
      · by_cases hb : b = a
        · subst hb; simp [readByte]
        · simp [readByte, hb, Ne.symm hb]
    · split
      · rename_i hne heq
        subst heq
        split
        · rename_i hv
          by_cases hb : b = a
          · subst hb; simp [hkk, hv]
          · simp [readByte, hb, Ne.symm hb]
        · by_cases hb : b = a
          · subst hb; simp [readByte]
          · simp [readByte, hb, Ne.symm hb]
      · rename_i hne heq
        simp only [readByte, ih hm]
        by_cases hb : b = a
        · subst hb; simp [Ne.symm heq]
        · simp [hb]

/-- Every listed address after a write is the one written or was listed before. -/
theorem mem_writeByte (m : Memory) (a : Nat) (v : Byte) {cell : Host.Cell} (h : cell ∈ writeByte m a v) :
    cell = (a, v) ∨ cell ∈ m := by
  induction m with
  | nil =>
    simp only [writeByte] at h
    split at h <;> simp_all
  | cons d m ih =>
    obtain ⟨k, x⟩ := d
    simp only [writeByte] at h
    split at h
    · split at h
      · exact .inr h
      · simpa using h
    · split at h
      · split at h
        · exact .inr (List.mem_cons_of_mem _ h)
        · rcases List.mem_cons.1 h with h | h
          · exact .inl h
          · exact .inr (List.mem_cons_of_mem _ h)
      · rcases List.mem_cons.1 h with h | h
        · exact .inr (by simp [h])
        · exact (ih h).imp id (List.mem_cons_of_mem _)

theorem wf_writeByte (m : Memory) (a : Nat) (v : Byte) (h : m.wf) : (writeByte m a v).wf := by
  induction m with
  | nil =>
    simp only [writeByte]
    split <;> simp_all [Memory.wf]
  | cons d m ih =>
    obtain ⟨k, x⟩ := d
    have hm : Memory.wf m := ⟨(List.pairwise_cons.1 h.1).2, fun c hc => h.2 c (List.mem_cons_of_mem _ hc)⟩
    have hk : ∀ c ∈ m, k < c.1 := (List.pairwise_cons.1 h.1).1
    have hx : x ≠ background := h.2 (k, x) (by simp)
    simp only [writeByte]
    split
    · rename_i hlt
      split
      · exact h
      · rename_i hv
        refine ⟨List.pairwise_cons.2 ⟨?_, h.1⟩, ?_⟩
        · intro c hc
          rcases List.mem_cons.1 hc with rfl | hc
          · exact hlt
          · exact lt_trans hlt (hk c hc)
        · intro c hc
          rcases List.mem_cons.1 hc with rfl | hc
          · exact hv
          · exact h.2 c hc
    · split
      · rename_i hne heq
        subst heq
        split
        · exact hm
        · rename_i hv
          refine ⟨List.pairwise_cons.2 ⟨hk, hm.1⟩, ?_⟩
          intro c hc
          rcases List.mem_cons.1 hc with rfl | hc
          · exact hv
          · exact hm.2 c hc
      · rename_i hne heq
        refine ⟨List.pairwise_cons.2 ⟨?_, (ih hm).1⟩, ?_⟩
        · intro c hc
          rcases mem_writeByte m a v hc with rfl | hc
          · show k < a
            omega
          · exact hk c hc
        · intro c hc
          rcases List.mem_cons.1 hc with rfl | hc
          · exact hx
          · exact (ih hm).2 c hc

theorem wf_writeWord (m : Memory) (a : Nat) (w : Word) (h : m.wf) : (writeWord m a w).wf :=
  wf_writeByte _ _ _ (wf_writeByte _ _ _ (wf_writeByte _ _ _ (wf_writeByte _ _ _ h)))

theorem wf_clearRange (m : Memory) (lo hi : Nat) (h : m.wf) : (clearRange m lo hi).wf :=
  ⟨h.1.filter _, fun c hc => h.2 c (List.mem_of_mem_filter hc)⟩

theorem wf_nil : Memory.wf [] := ⟨List.Pairwise.nil, by simp⟩

/-- A byte of a word written: the lane it lies in, or the old byte. -/
theorem readByte_writeWord (m : Memory) (a b : Nat) (w : Word) (h : m.wf) :
    readByte (writeWord m a w) b = if a ≤ b ∧ b < a + 4 then lane w (b - a) else readByte m b := by
  have h0 := wf_writeByte m a (lane w 0) h
  have h1 := wf_writeByte _ (a + 1) (lane w 1) h0
  have h2 := wf_writeByte _ (a + 2) (lane w 2) h1
  unfold writeWord
  rw [readByte_writeByte _ _ _ _ h2, readByte_writeByte _ _ _ _ h1, readByte_writeByte _ _ _ _ h0,
    readByte_writeByte _ _ _ _ h]
  by_cases e0 : b = a
  · subst e0; simp
  by_cases e1 : b = a + 1
  · subst e1; simp
  by_cases e2 : b = a + 2
  · subst e2; simp
  by_cases e3 : b = a + 3
  · subst e3; simp
  · rw [if_neg e3, if_neg e2, if_neg e1, if_neg e0, if_neg (by omega)]

/-- The four lanes of a word make the word. -/
theorem lanes_append (w : Word) : (lane w 3 ++ lane w 2 ++ lane w 1 ++ lane w 0 : Word) = w := by
  apply BitVec.eq_of_getLsbD_eq
  intro i hi
  simp only [lane, BitVec.getLsbD_append, BitVec.getLsbD_extractLsb']
  by_cases h0 : i < 8
  · simp [h0]
  by_cases h1 : i < 16
  · simp [h0, show i - 8 < 8 by omega, show 8 + (i - 8) = i by omega]
  by_cases h2 : i < 24
  · simp [h0, show ¬ i - 8 < 8 by omega, show i - 8 - 8 < 8 by omega, show 16 + (i - 8 - 8) = i by omega]
  · simp [h0, show ¬ i - 8 < 8 by omega, show ¬ i - 8 - 8 < 8 by omega, show i - 8 - 8 - 8 < 8 by omega,
      show 24 + (i - 8 - 8 - 8) = i by omega]

theorem readWord_writeWord_same (m : Memory) (a : Nat) (w : Word) (h : m.wf) : readWord (writeWord m a w) a = w := by
  simp only [readWord, readByte_writeWord _ _ _ _ h]
  simpa using lanes_append w

/-- Two words that do not overlap: writing one leaves the other. -/
theorem readWord_writeWord_disjoint (m : Memory) (a b : Nat) (w : Word) (h : m.wf) (hd : a + 4 ≤ b ∨ b + 4 ≤ a) :
    readWord (writeWord m a w) b = readWord m b := by
  simp only [readWord, readByte_writeWord _ _ _ _ h]
  rw [if_neg (by omega), if_neg (by omega), if_neg (by omega), if_neg (by omega)]

/-- A word reads the same where its four bytes do. -/
theorem readWord_congr {m m' : Memory} {a : Nat}
    (h : ∀ b, a ≤ b → b < a + 4 → readByte m' b = readByte m b) : readWord m' a = readWord m a := by
  simp only [readWord]
  rw [h a (by omega) (by omega), h (a + 1) (by omega) (by omega), h (a + 2) (by omega) (by omega),
    h (a + 3) (by omega) (by omega)]

theorem readByte_clearRange (m : Memory) (lo hi b : Nat) :
    readByte (clearRange m lo hi) b = if lo ≤ b ∧ b < hi then background else readByte m b := by
  induction m with
  | nil => simp [clearRange]
  | cons d m ih =>
    obtain ⟨k, x⟩ := d
    have hc : clearRange ((k, x) :: m) lo hi
        = if lo ≤ k ∧ k < hi then clearRange m lo hi else (k, x) :: clearRange m lo hi := by
      unfold clearRange
      rw [List.filter_cons]
      by_cases hk : lo ≤ k ∧ k < hi
      · simp [hk.1, hk.2]
      · rw [if_neg hk, if_pos]
        simp only [Bool.not_eq_true', Bool.and_eq_false_iff, decide_eq_false_iff_not]
        omega
    rw [hc]
    by_cases hk : lo ≤ k ∧ k < hi
    · rw [if_pos hk, ih]
      by_cases hb : lo ≤ b ∧ b < hi
      · simp [hb]
      · have : k ≠ b := by rintro rfl; exact hb hk
        simp [hb, readByte, this]
    · rw [if_neg hk]
      simp only [readByte, ih]
      by_cases hb : lo ≤ b ∧ b < hi
      · have : k ≠ b := by rintro rfl; exact hk hb
        simp [hb, this]
      · simp [hb]

/-- A word inside a cleared range reads 0. -/
theorem readWord_clearRange_inside (m : Memory) (lo hi a : Nat) (h : lo ≤ a) (h' : a + 4 ≤ hi) :
    readWord (clearRange m lo hi) a = 0#32 := by
  simp only [readWord, readByte_clearRange]
  rw [if_pos (by omega), if_pos (by omega), if_pos (by omega), if_pos (by omega)]
  rfl

/-- A word outside a cleared range is unchanged. -/
theorem readWord_clearRange_outside (m : Memory) (lo hi a : Nat) (h : a + 4 ≤ lo ∨ hi ≤ a) :
    readWord (clearRange m lo hi) a = readWord m a :=
  readWord_congr fun b h1 h2 => by rw [readByte_clearRange, if_neg (by omega)]

/-- Equal reads are equal memories: what the canonical form is for. -/
theorem Memory.ext_of_wf {m m' : Memory} (h : m.wf) (h' : m'.wf) (heq : ∀ a, readByte m a = readByte m' a) : m = m' := by
  induction m generalizing m' with
  | nil =>
    cases m' with
    | nil => rfl
    | cons d m' =>
      have := heq d.1
      simp [readByte] at this
      exact absurd this.symm (h'.2 d (by simp))
  | cons c m ih =>
    have low : ∀ (l : Memory) (y : Nat), (∀ e ∈ l, y < e.1) → readByte l y = background := by
      intro l y hl
      induction l with
      | nil => rfl
      | cons e l ihl =>
        have he := hl e (by simp)
        simp only [readByte]
        rw [if_neg (by omega)]
        exact ihl (fun x hx => hl x (List.mem_cons_of_mem _ hx))
    have hc : ∀ e ∈ m, c.1 < e.1 := (List.pairwise_cons.1 h.1).1
    have hm : Memory.wf m := ⟨(List.pairwise_cons.1 h.1).2, fun e he => h.2 e (List.mem_cons_of_mem _ he)⟩
    cases m' with
    | nil =>
      have := heq c.1
      simp [readByte] at this
      exact absurd this (h.2 c (by simp))
    | cons d m' =>
      have hd : ∀ e ∈ m', d.1 < e.1 := (List.pairwise_cons.1 h'.1).1
      have hm' : Memory.wf m' := ⟨(List.pairwise_cons.1 h'.1).2, fun e he => h'.2 e (List.mem_cons_of_mem _ he)⟩
      have hk : c.1 = d.1 := by
        rcases lt_trichotomy c.1 d.1 with hlt | heq' | hlt
        · have := heq c.1
          rw [low (d :: m') c.1 (by
            intro e he
            rcases List.mem_cons.1 he with rfl | he
            · exact hlt
            · exact lt_trans hlt (hd e he))] at this
          simp [readByte] at this
          exact absurd this (h.2 c (by simp))
        · exact heq'
        · have := heq d.1
          rw [low (c :: m) d.1 (by
            intro e he
            rcases List.mem_cons.1 he with rfl | he
            · exact hlt
            · exact lt_trans hlt (hc e he))] at this
          simp [readByte] at this
          exact absurd this.symm (h'.2 d (by simp))
      have hv : c.2 = d.2 := by
        have := heq c.1
        simpa [readByte, hk] using this
      have hrest : m = m' := ih hm hm' fun a => by
        by_cases ha : a = c.1
        · subst ha
          rw [low m c.1 hc, low m' c.1 (by rw [hk]; exact hd)]
        · have := heq a
          simp only [readByte] at this
          rwa [if_neg (Ne.symm ha), if_neg (by rw [← hk]; exact Ne.symm ha)] at this
      rw [show c = d from Prod.ext hk hv, hrest]

end Sys2Proof.Machine
end

