-- ==== Sys2Proof/Laws/State.lean ====
section
/-! SUPPORT. What each update of the state does to each field: one lemma per field per update. -/

namespace Sys2Proof.Machine

@[simp] theorem setIn_hw (c i : Nat) (w : Word) (s : State) : (setIn c i w s).hw = s.hw := rfl
@[simp] theorem setIn_arg0 (c i : Nat) (w : Word) (s : State) : (setIn c i w s).arg0 = s.arg0 := rfl
@[simp] theorem setIn_arg1 (c i : Nat) (w : Word) (s : State) : (setIn c i w s).arg1 = s.arg1 := rfl
@[simp] theorem setIn_configured (c i : Nat) (w : Word) (s : State) : (setIn c i w s).configured = s.configured := rfl
@[simp] theorem setIn_ch (c i : Nat) (w : Word) (s : State) : (setIn c i w s).ch = s.ch := rfl
@[simp] theorem setIn_cap (c i : Nat) (w : Word) (s : State) : (setIn c i w s).cap = s.cap := rfl
@[simp] theorem setIn_sr (c i : Nat) (w : Word) (s : State) : (setIn c i w s).sr = s.sr := rfl
@[simp] theorem setIn_maxdly (c i : Nat) (w : Word) (s : State) : (setIn c i w s).maxdly = s.maxdly := rfl
@[simp] theorem setIn_spm (c i : Nat) (w : Word) (s : State) : (setIn c i w s).spm = s.spm := rfl
@[simp] theorem setIn_mem (c i : Nat) (w : Word) (s : State) : (setIn c i w s).mem = writeWord s.mem (inAddr s.hw c i) w := rfl
@[simp] theorem setIn_cursors (c i : Nat) (w : Word) (s : State) : (setIn c i w s).cursors = s.cursors := rfl
@[simp] theorem setIn_phase (c i : Nat) (w : Word) (s : State) : (setIn c i w s).phase = s.phase := rfl
@[simp] theorem setIn_inc (c i : Nat) (w : Word) (s : State) : (setIn c i w s).inc = s.inc := rfl
@[simp] theorem setIn_smoothers (c i : Nat) (w : Word) (s : State) : (setIn c i w s).smoothers = s.smoothers := rfl
@[simp] theorem setIn_negfb (c i : Nat) (w : Word) (s : State) : (setIn c i w s).negfb = s.negfb := rfl
@[simp] theorem setIn_odd90 (c i : Nat) (w : Word) (s : State) : (setIn c i w s).odd90 = s.odd90 := rfl
@[simp] theorem setIn_errCmd (c i : Nat) (w : Word) (s : State) : (setIn c i w s).errCmd = s.errCmd := rfl
@[simp] theorem setIn_errCfg (c i : Nat) (w : Word) (s : State) : (setIn c i w s).errCfg = s.errCfg := rfl
@[simp] theorem setIn_errParam (c i : Nat) (w : Word) (s : State) : (setIn c i w s).errParam = s.errParam := rfl
@[simp] theorem setIn_errRender (c i : Nat) (w : Word) (s : State) : (setIn c i w s).errRender = s.errRender := rfl
@[simp] theorem setIn_errBus (c i : Nat) (w : Word) (s : State) : (setIn c i w s).errBus = s.errBus := rfl
@[simp] theorem setIn_bus (c i : Nat) (w : Word) (s : State) : (setIn c i w s).bus = s.bus := rfl
@[simp] theorem setIn_reads (c i : Nat) (w : Word) (s : State) : (setIn c i w s).reads = s.reads := rfl

@[simp] theorem setOut_hw (c i : Nat) (v : F32) (s : State) : (setOut c i v s).hw = s.hw := rfl
@[simp] theorem setOut_arg0 (c i : Nat) (v : F32) (s : State) : (setOut c i v s).arg0 = s.arg0 := rfl
@[simp] theorem setOut_arg1 (c i : Nat) (v : F32) (s : State) : (setOut c i v s).arg1 = s.arg1 := rfl
@[simp] theorem setOut_configured (c i : Nat) (v : F32) (s : State) : (setOut c i v s).configured = s.configured := rfl
@[simp] theorem setOut_ch (c i : Nat) (v : F32) (s : State) : (setOut c i v s).ch = s.ch := rfl
@[simp] theorem setOut_cap (c i : Nat) (v : F32) (s : State) : (setOut c i v s).cap = s.cap := rfl
@[simp] theorem setOut_sr (c i : Nat) (v : F32) (s : State) : (setOut c i v s).sr = s.sr := rfl
@[simp] theorem setOut_maxdly (c i : Nat) (v : F32) (s : State) : (setOut c i v s).maxdly = s.maxdly := rfl
@[simp] theorem setOut_spm (c i : Nat) (v : F32) (s : State) : (setOut c i v s).spm = s.spm := rfl
@[simp] theorem setOut_mem (c i : Nat) (v : F32) (s : State) : (setOut c i v s).mem = writeWord s.mem (outAddr s.hw c i) v := rfl
@[simp] theorem setOut_cursors (c i : Nat) (v : F32) (s : State) : (setOut c i v s).cursors = s.cursors := rfl
@[simp] theorem setOut_phase (c i : Nat) (v : F32) (s : State) : (setOut c i v s).phase = s.phase := rfl
@[simp] theorem setOut_inc (c i : Nat) (v : F32) (s : State) : (setOut c i v s).inc = s.inc := rfl
@[simp] theorem setOut_smoothers (c i : Nat) (v : F32) (s : State) : (setOut c i v s).smoothers = s.smoothers := rfl
@[simp] theorem setOut_negfb (c i : Nat) (v : F32) (s : State) : (setOut c i v s).negfb = s.negfb := rfl
@[simp] theorem setOut_odd90 (c i : Nat) (v : F32) (s : State) : (setOut c i v s).odd90 = s.odd90 := rfl
@[simp] theorem setOut_errCmd (c i : Nat) (v : F32) (s : State) : (setOut c i v s).errCmd = s.errCmd := rfl
@[simp] theorem setOut_errCfg (c i : Nat) (v : F32) (s : State) : (setOut c i v s).errCfg = s.errCfg := rfl
@[simp] theorem setOut_errParam (c i : Nat) (v : F32) (s : State) : (setOut c i v s).errParam = s.errParam := rfl
@[simp] theorem setOut_errRender (c i : Nat) (v : F32) (s : State) : (setOut c i v s).errRender = s.errRender := rfl
@[simp] theorem setOut_errBus (c i : Nat) (v : F32) (s : State) : (setOut c i v s).errBus = s.errBus := rfl
@[simp] theorem setOut_bus (c i : Nat) (v : F32) (s : State) : (setOut c i v s).bus = s.bus := rfl
@[simp] theorem setOut_reads (c i : Nat) (v : F32) (s : State) : (setOut c i v s).reads = s.reads := rfl

@[simp] theorem setDl_hw (c j : Nat) (v : F32) (s : State) : (setDl c j v s).hw = s.hw := rfl
@[simp] theorem setDl_arg0 (c j : Nat) (v : F32) (s : State) : (setDl c j v s).arg0 = s.arg0 := rfl
@[simp] theorem setDl_arg1 (c j : Nat) (v : F32) (s : State) : (setDl c j v s).arg1 = s.arg1 := rfl
@[simp] theorem setDl_configured (c j : Nat) (v : F32) (s : State) : (setDl c j v s).configured = s.configured := rfl
@[simp] theorem setDl_ch (c j : Nat) (v : F32) (s : State) : (setDl c j v s).ch = s.ch := rfl
@[simp] theorem setDl_cap (c j : Nat) (v : F32) (s : State) : (setDl c j v s).cap = s.cap := rfl
@[simp] theorem setDl_sr (c j : Nat) (v : F32) (s : State) : (setDl c j v s).sr = s.sr := rfl
@[simp] theorem setDl_maxdly (c j : Nat) (v : F32) (s : State) : (setDl c j v s).maxdly = s.maxdly := rfl
@[simp] theorem setDl_spm (c j : Nat) (v : F32) (s : State) : (setDl c j v s).spm = s.spm := rfl
@[simp] theorem setDl_mem (c j : Nat) (v : F32) (s : State) : (setDl c j v s).mem = writeWord s.mem (dlAddr s.hw c j) v := rfl
@[simp] theorem setDl_cursors (c j : Nat) (v : F32) (s : State) : (setDl c j v s).cursors = s.cursors := rfl
@[simp] theorem setDl_phase (c j : Nat) (v : F32) (s : State) : (setDl c j v s).phase = s.phase := rfl
@[simp] theorem setDl_inc (c j : Nat) (v : F32) (s : State) : (setDl c j v s).inc = s.inc := rfl
@[simp] theorem setDl_smoothers (c j : Nat) (v : F32) (s : State) : (setDl c j v s).smoothers = s.smoothers := rfl
@[simp] theorem setDl_negfb (c j : Nat) (v : F32) (s : State) : (setDl c j v s).negfb = s.negfb := rfl
@[simp] theorem setDl_odd90 (c j : Nat) (v : F32) (s : State) : (setDl c j v s).odd90 = s.odd90 := rfl
@[simp] theorem setDl_errCmd (c j : Nat) (v : F32) (s : State) : (setDl c j v s).errCmd = s.errCmd := rfl
@[simp] theorem setDl_errCfg (c j : Nat) (v : F32) (s : State) : (setDl c j v s).errCfg = s.errCfg := rfl
@[simp] theorem setDl_errParam (c j : Nat) (v : F32) (s : State) : (setDl c j v s).errParam = s.errParam := rfl
@[simp] theorem setDl_errRender (c j : Nat) (v : F32) (s : State) : (setDl c j v s).errRender = s.errRender := rfl
@[simp] theorem setDl_errBus (c j : Nat) (v : F32) (s : State) : (setDl c j v s).errBus = s.errBus := rfl
@[simp] theorem setDl_bus (c j : Nat) (v : F32) (s : State) : (setDl c j v s).bus = s.bus := rfl
@[simp] theorem setDl_reads (c j : Nat) (v : F32) (s : State) : (setDl c j v s).reads = s.reads := rfl

@[simp] theorem setCursor_hw (c n : Nat) (s : State) : (setCursor c n s).hw = s.hw := rfl
@[simp] theorem setCursor_arg0 (c n : Nat) (s : State) : (setCursor c n s).arg0 = s.arg0 := rfl
@[simp] theorem setCursor_arg1 (c n : Nat) (s : State) : (setCursor c n s).arg1 = s.arg1 := rfl
@[simp] theorem setCursor_configured (c n : Nat) (s : State) : (setCursor c n s).configured = s.configured := rfl
@[simp] theorem setCursor_ch (c n : Nat) (s : State) : (setCursor c n s).ch = s.ch := rfl
@[simp] theorem setCursor_cap (c n : Nat) (s : State) : (setCursor c n s).cap = s.cap := rfl
@[simp] theorem setCursor_sr (c n : Nat) (s : State) : (setCursor c n s).sr = s.sr := rfl
@[simp] theorem setCursor_maxdly (c n : Nat) (s : State) : (setCursor c n s).maxdly = s.maxdly := rfl
@[simp] theorem setCursor_spm (c n : Nat) (s : State) : (setCursor c n s).spm = s.spm := rfl
@[simp] theorem setCursor_mem (c n : Nat) (s : State) : (setCursor c n s).mem = s.mem := rfl
@[simp] theorem setCursor_cursors (c n : Nat) (s : State) : (setCursor c n s).cursors = s.cursors.set c n := rfl
@[simp] theorem setCursor_phase (c n : Nat) (s : State) : (setCursor c n s).phase = s.phase := rfl
@[simp] theorem setCursor_inc (c n : Nat) (s : State) : (setCursor c n s).inc = s.inc := rfl
@[simp] theorem setCursor_smoothers (c n : Nat) (s : State) : (setCursor c n s).smoothers = s.smoothers := rfl
@[simp] theorem setCursor_negfb (c n : Nat) (s : State) : (setCursor c n s).negfb = s.negfb := rfl
@[simp] theorem setCursor_odd90 (c n : Nat) (s : State) : (setCursor c n s).odd90 = s.odd90 := rfl
@[simp] theorem setCursor_errCmd (c n : Nat) (s : State) : (setCursor c n s).errCmd = s.errCmd := rfl
@[simp] theorem setCursor_errCfg (c n : Nat) (s : State) : (setCursor c n s).errCfg = s.errCfg := rfl
@[simp] theorem setCursor_errParam (c n : Nat) (s : State) : (setCursor c n s).errParam = s.errParam := rfl
@[simp] theorem setCursor_errRender (c n : Nat) (s : State) : (setCursor c n s).errRender = s.errRender := rfl
@[simp] theorem setCursor_errBus (c n : Nat) (s : State) : (setCursor c n s).errBus = s.errBus := rfl
@[simp] theorem setCursor_bus (c n : Nat) (s : State) : (setCursor c n s).bus = s.bus := rfl
@[simp] theorem setCursor_reads (c n : Nat) (s : State) : (setCursor c n s).reads = s.reads := rfl

@[simp] theorem setSmoother_hw (k : ScalarId) (sm : Smoother) (s : State) : (setSmoother k sm s).hw = s.hw := rfl
@[simp] theorem setSmoother_arg0 (k : ScalarId) (sm : Smoother) (s : State) : (setSmoother k sm s).arg0 = s.arg0 := rfl
@[simp] theorem setSmoother_arg1 (k : ScalarId) (sm : Smoother) (s : State) : (setSmoother k sm s).arg1 = s.arg1 := rfl
@[simp] theorem setSmoother_configured (k : ScalarId) (sm : Smoother) (s : State) : (setSmoother k sm s).configured = s.configured := rfl
@[simp] theorem setSmoother_ch (k : ScalarId) (sm : Smoother) (s : State) : (setSmoother k sm s).ch = s.ch := rfl
@[simp] theorem setSmoother_cap (k : ScalarId) (sm : Smoother) (s : State) : (setSmoother k sm s).cap = s.cap := rfl
@[simp] theorem setSmoother_sr (k : ScalarId) (sm : Smoother) (s : State) : (setSmoother k sm s).sr = s.sr := rfl
@[simp] theorem setSmoother_maxdly (k : ScalarId) (sm : Smoother) (s : State) : (setSmoother k sm s).maxdly = s.maxdly := rfl
@[simp] theorem setSmoother_spm (k : ScalarId) (sm : Smoother) (s : State) : (setSmoother k sm s).spm = s.spm := rfl
@[simp] theorem setSmoother_mem (k : ScalarId) (sm : Smoother) (s : State) : (setSmoother k sm s).mem = s.mem := rfl
@[simp] theorem setSmoother_cursors (k : ScalarId) (sm : Smoother) (s : State) : (setSmoother k sm s).cursors = s.cursors := rfl
@[simp] theorem setSmoother_phase (k : ScalarId) (sm : Smoother) (s : State) : (setSmoother k sm s).phase = s.phase := rfl
@[simp] theorem setSmoother_inc (k : ScalarId) (sm : Smoother) (s : State) : (setSmoother k sm s).inc = s.inc := rfl
@[simp] theorem setSmoother_smoothers (k : ScalarId) (sm : Smoother) (s : State) : (setSmoother k sm s).smoothers = putSmoother s.smoothers k sm := rfl
@[simp] theorem setSmoother_negfb (k : ScalarId) (sm : Smoother) (s : State) : (setSmoother k sm s).negfb = s.negfb := rfl
@[simp] theorem setSmoother_odd90 (k : ScalarId) (sm : Smoother) (s : State) : (setSmoother k sm s).odd90 = s.odd90 := rfl
@[simp] theorem setSmoother_errCmd (k : ScalarId) (sm : Smoother) (s : State) : (setSmoother k sm s).errCmd = s.errCmd := rfl
@[simp] theorem setSmoother_errCfg (k : ScalarId) (sm : Smoother) (s : State) : (setSmoother k sm s).errCfg = s.errCfg := rfl
@[simp] theorem setSmoother_errParam (k : ScalarId) (sm : Smoother) (s : State) : (setSmoother k sm s).errParam = s.errParam := rfl
@[simp] theorem setSmoother_errRender (k : ScalarId) (sm : Smoother) (s : State) : (setSmoother k sm s).errRender = s.errRender := rfl
@[simp] theorem setSmoother_errBus (k : ScalarId) (sm : Smoother) (s : State) : (setSmoother k sm s).errBus = s.errBus := rfl
@[simp] theorem setSmoother_bus (k : ScalarId) (sm : Smoother) (s : State) : (setSmoother k sm s).bus = s.bus := rfl
@[simp] theorem setSmoother_reads (k : ScalarId) (sm : Smoother) (s : State) : (setSmoother k sm s).reads = s.reads := rfl

@[simp] theorem lfoSetRate_hw (rate : F32) (s : State) : (lfoSetRate rate s).hw = s.hw := by unfold lfoSetRate; rfl
@[simp] theorem lfoSetRate_arg0 (rate : F32) (s : State) : (lfoSetRate rate s).arg0 = s.arg0 := by unfold lfoSetRate; rfl
@[simp] theorem lfoSetRate_arg1 (rate : F32) (s : State) : (lfoSetRate rate s).arg1 = s.arg1 := by unfold lfoSetRate; rfl
@[simp] theorem lfoSetRate_configured (rate : F32) (s : State) : (lfoSetRate rate s).configured = s.configured := by unfold lfoSetRate; rfl
@[simp] theorem lfoSetRate_ch (rate : F32) (s : State) : (lfoSetRate rate s).ch = s.ch := by unfold lfoSetRate; rfl
@[simp] theorem lfoSetRate_cap (rate : F32) (s : State) : (lfoSetRate rate s).cap = s.cap := by unfold lfoSetRate; rfl
@[simp] theorem lfoSetRate_sr (rate : F32) (s : State) : (lfoSetRate rate s).sr = s.sr := by unfold lfoSetRate; rfl
@[simp] theorem lfoSetRate_maxdly (rate : F32) (s : State) : (lfoSetRate rate s).maxdly = s.maxdly := by unfold lfoSetRate; rfl
@[simp] theorem lfoSetRate_spm (rate : F32) (s : State) : (lfoSetRate rate s).spm = s.spm := by unfold lfoSetRate; rfl
@[simp] theorem lfoSetRate_mem (rate : F32) (s : State) : (lfoSetRate rate s).mem = s.mem := by unfold lfoSetRate; rfl
@[simp] theorem lfoSetRate_cursors (rate : F32) (s : State) : (lfoSetRate rate s).cursors = s.cursors := by unfold lfoSetRate; rfl
@[simp] theorem lfoSetRate_phase (rate : F32) (s : State) : (lfoSetRate rate s).phase = s.phase := by unfold lfoSetRate; rfl
@[simp] theorem lfoSetRate_inc (rate : F32) (s : State) : (lfoSetRate rate s).inc = lfoRateInc rate s.sr := by unfold lfoSetRate; rfl
@[simp] theorem lfoSetRate_smoothers (rate : F32) (s : State) : (lfoSetRate rate s).smoothers = s.smoothers := by unfold lfoSetRate; rfl
@[simp] theorem lfoSetRate_negfb (rate : F32) (s : State) : (lfoSetRate rate s).negfb = s.negfb := by unfold lfoSetRate; rfl
@[simp] theorem lfoSetRate_odd90 (rate : F32) (s : State) : (lfoSetRate rate s).odd90 = s.odd90 := by unfold lfoSetRate; rfl
@[simp] theorem lfoSetRate_errCmd (rate : F32) (s : State) : (lfoSetRate rate s).errCmd = s.errCmd := by unfold lfoSetRate; rfl
@[simp] theorem lfoSetRate_errCfg (rate : F32) (s : State) : (lfoSetRate rate s).errCfg = s.errCfg := by unfold lfoSetRate; rfl
@[simp] theorem lfoSetRate_errParam (rate : F32) (s : State) : (lfoSetRate rate s).errParam = s.errParam := by unfold lfoSetRate; rfl
@[simp] theorem lfoSetRate_errRender (rate : F32) (s : State) : (lfoSetRate rate s).errRender = s.errRender := by unfold lfoSetRate; rfl
@[simp] theorem lfoSetRate_errBus (rate : F32) (s : State) : (lfoSetRate rate s).errBus = s.errBus := by unfold lfoSetRate; rfl
@[simp] theorem lfoSetRate_bus (rate : F32) (s : State) : (lfoSetRate rate s).bus = s.bus := by unfold lfoSetRate; rfl
@[simp] theorem lfoSetRate_reads (rate : F32) (s : State) : (lfoSetRate rate s).reads = s.reads := by unfold lfoSetRate; rfl

@[simp] theorem lfoIncrement_hw (s : State) : (lfoIncrement s).hw = s.hw := by unfold lfoIncrement; rfl
@[simp] theorem lfoIncrement_arg0 (s : State) : (lfoIncrement s).arg0 = s.arg0 := by unfold lfoIncrement; rfl
@[simp] theorem lfoIncrement_arg1 (s : State) : (lfoIncrement s).arg1 = s.arg1 := by unfold lfoIncrement; rfl
@[simp] theorem lfoIncrement_configured (s : State) : (lfoIncrement s).configured = s.configured := by unfold lfoIncrement; rfl
@[simp] theorem lfoIncrement_ch (s : State) : (lfoIncrement s).ch = s.ch := by unfold lfoIncrement; rfl
@[simp] theorem lfoIncrement_cap (s : State) : (lfoIncrement s).cap = s.cap := by unfold lfoIncrement; rfl
@[simp] theorem lfoIncrement_sr (s : State) : (lfoIncrement s).sr = s.sr := by unfold lfoIncrement; rfl
@[simp] theorem lfoIncrement_maxdly (s : State) : (lfoIncrement s).maxdly = s.maxdly := by unfold lfoIncrement; rfl
@[simp] theorem lfoIncrement_spm (s : State) : (lfoIncrement s).spm = s.spm := by unfold lfoIncrement; rfl
@[simp] theorem lfoIncrement_mem (s : State) : (lfoIncrement s).mem = s.mem := by unfold lfoIncrement; rfl
@[simp] theorem lfoIncrement_cursors (s : State) : (lfoIncrement s).cursors = s.cursors := by unfold lfoIncrement; rfl
@[simp] theorem lfoIncrement_phase (s : State) : (lfoIncrement s).phase = nextPhase s.phase s.inc := by unfold lfoIncrement; rfl
@[simp] theorem lfoIncrement_inc (s : State) : (lfoIncrement s).inc = s.inc := by unfold lfoIncrement; rfl
@[simp] theorem lfoIncrement_smoothers (s : State) : (lfoIncrement s).smoothers = s.smoothers := by unfold lfoIncrement; rfl
@[simp] theorem lfoIncrement_negfb (s : State) : (lfoIncrement s).negfb = s.negfb := by unfold lfoIncrement; rfl
@[simp] theorem lfoIncrement_odd90 (s : State) : (lfoIncrement s).odd90 = s.odd90 := by unfold lfoIncrement; rfl
@[simp] theorem lfoIncrement_errCmd (s : State) : (lfoIncrement s).errCmd = s.errCmd := by unfold lfoIncrement; rfl
@[simp] theorem lfoIncrement_errCfg (s : State) : (lfoIncrement s).errCfg = s.errCfg := by unfold lfoIncrement; rfl
@[simp] theorem lfoIncrement_errParam (s : State) : (lfoIncrement s).errParam = s.errParam := by unfold lfoIncrement; rfl
@[simp] theorem lfoIncrement_errRender (s : State) : (lfoIncrement s).errRender = s.errRender := by unfold lfoIncrement; rfl
@[simp] theorem lfoIncrement_errBus (s : State) : (lfoIncrement s).errBus = s.errBus := by unfold lfoIncrement; rfl
@[simp] theorem lfoIncrement_bus (s : State) : (lfoIncrement s).bus = s.bus := by unfold lfoIncrement; rfl
@[simp] theorem lfoIncrement_reads (s : State) : (lfoIncrement s).reads = s.reads := by unfold lfoIncrement; rfl

@[simp] theorem lfoReset_hw (s : State) : (lfoReset s).hw = s.hw := rfl
@[simp] theorem lfoReset_arg0 (s : State) : (lfoReset s).arg0 = s.arg0 := rfl
@[simp] theorem lfoReset_arg1 (s : State) : (lfoReset s).arg1 = s.arg1 := rfl
@[simp] theorem lfoReset_configured (s : State) : (lfoReset s).configured = s.configured := rfl
@[simp] theorem lfoReset_ch (s : State) : (lfoReset s).ch = s.ch := rfl
@[simp] theorem lfoReset_cap (s : State) : (lfoReset s).cap = s.cap := rfl
@[simp] theorem lfoReset_sr (s : State) : (lfoReset s).sr = s.sr := rfl
@[simp] theorem lfoReset_maxdly (s : State) : (lfoReset s).maxdly = s.maxdly := rfl
@[simp] theorem lfoReset_spm (s : State) : (lfoReset s).spm = s.spm := rfl
@[simp] theorem lfoReset_mem (s : State) : (lfoReset s).mem = s.mem := rfl
@[simp] theorem lfoReset_cursors (s : State) : (lfoReset s).cursors = s.cursors := rfl
@[simp] theorem lfoReset_phase (s : State) : (lfoReset s).phase = zero64 := rfl
@[simp] theorem lfoReset_inc (s : State) : (lfoReset s).inc = zero64 := rfl
@[simp] theorem lfoReset_smoothers (s : State) : (lfoReset s).smoothers = s.smoothers := rfl
@[simp] theorem lfoReset_negfb (s : State) : (lfoReset s).negfb = s.negfb := rfl
@[simp] theorem lfoReset_odd90 (s : State) : (lfoReset s).odd90 = s.odd90 := rfl
@[simp] theorem lfoReset_errCmd (s : State) : (lfoReset s).errCmd = s.errCmd := rfl
@[simp] theorem lfoReset_errCfg (s : State) : (lfoReset s).errCfg = s.errCfg := rfl
@[simp] theorem lfoReset_errParam (s : State) : (lfoReset s).errParam = s.errParam := rfl
@[simp] theorem lfoReset_errRender (s : State) : (lfoReset s).errRender = s.errRender := rfl
@[simp] theorem lfoReset_errBus (s : State) : (lfoReset s).errBus = s.errBus := rfl
@[simp] theorem lfoReset_bus (s : State) : (lfoReset s).bus = s.bus := rfl
@[simp] theorem lfoReset_reads (s : State) : (lfoReset s).reads = s.reads := rfl

@[simp] theorem dlClear_hw (s : State) : (dlClear s).hw = s.hw := rfl
@[simp] theorem dlClear_arg0 (s : State) : (dlClear s).arg0 = s.arg0 := rfl
@[simp] theorem dlClear_arg1 (s : State) : (dlClear s).arg1 = s.arg1 := rfl
@[simp] theorem dlClear_configured (s : State) : (dlClear s).configured = s.configured := rfl
@[simp] theorem dlClear_ch (s : State) : (dlClear s).ch = s.ch := rfl
@[simp] theorem dlClear_cap (s : State) : (dlClear s).cap = s.cap := rfl
@[simp] theorem dlClear_sr (s : State) : (dlClear s).sr = s.sr := rfl
@[simp] theorem dlClear_maxdly (s : State) : (dlClear s).maxdly = s.maxdly := rfl
@[simp] theorem dlClear_spm (s : State) : (dlClear s).spm = s.spm := rfl
@[simp] theorem dlClear_mem (s : State) : (dlClear s).mem = clearRange s.mem dlBase (dlBase + 4 * (s.hw.maxChannels * s.hw.maxCapacity)) := rfl
@[simp] theorem dlClear_cursors (s : State) : (dlClear s).cursors = List.replicate s.hw.maxChannels 0 := rfl
@[simp] theorem dlClear_phase (s : State) : (dlClear s).phase = s.phase := rfl
@[simp] theorem dlClear_inc (s : State) : (dlClear s).inc = s.inc := rfl
@[simp] theorem dlClear_smoothers (s : State) : (dlClear s).smoothers = s.smoothers := rfl
@[simp] theorem dlClear_negfb (s : State) : (dlClear s).negfb = s.negfb := rfl
@[simp] theorem dlClear_odd90 (s : State) : (dlClear s).odd90 = s.odd90 := rfl
@[simp] theorem dlClear_errCmd (s : State) : (dlClear s).errCmd = s.errCmd := rfl
@[simp] theorem dlClear_errCfg (s : State) : (dlClear s).errCfg = s.errCfg := rfl
@[simp] theorem dlClear_errParam (s : State) : (dlClear s).errParam = s.errParam := rfl
@[simp] theorem dlClear_errRender (s : State) : (dlClear s).errRender = s.errRender := rfl
@[simp] theorem dlClear_errBus (s : State) : (dlClear s).errBus = s.errBus := rfl
@[simp] theorem dlClear_bus (s : State) : (dlClear s).bus = s.bus := rfl
@[simp] theorem dlClear_reads (s : State) : (dlClear s).reads = s.reads := rfl

@[simp] theorem clearErrors_hw (s : State) : (clearErrors s).hw = s.hw := rfl
@[simp] theorem clearErrors_arg0 (s : State) : (clearErrors s).arg0 = s.arg0 := rfl
@[simp] theorem clearErrors_arg1 (s : State) : (clearErrors s).arg1 = s.arg1 := rfl
@[simp] theorem clearErrors_configured (s : State) : (clearErrors s).configured = s.configured := rfl
@[simp] theorem clearErrors_ch (s : State) : (clearErrors s).ch = s.ch := rfl
@[simp] theorem clearErrors_cap (s : State) : (clearErrors s).cap = s.cap := rfl
@[simp] theorem clearErrors_sr (s : State) : (clearErrors s).sr = s.sr := rfl
@[simp] theorem clearErrors_maxdly (s : State) : (clearErrors s).maxdly = s.maxdly := rfl
@[simp] theorem clearErrors_spm (s : State) : (clearErrors s).spm = s.spm := rfl
@[simp] theorem clearErrors_mem (s : State) : (clearErrors s).mem = s.mem := rfl
@[simp] theorem clearErrors_cursors (s : State) : (clearErrors s).cursors = s.cursors := rfl
@[simp] theorem clearErrors_phase (s : State) : (clearErrors s).phase = s.phase := rfl
@[simp] theorem clearErrors_inc (s : State) : (clearErrors s).inc = s.inc := rfl
@[simp] theorem clearErrors_smoothers (s : State) : (clearErrors s).smoothers = s.smoothers := rfl
@[simp] theorem clearErrors_negfb (s : State) : (clearErrors s).negfb = s.negfb := rfl
@[simp] theorem clearErrors_odd90 (s : State) : (clearErrors s).odd90 = s.odd90 := rfl
@[simp] theorem clearErrors_errCmd (s : State) : (clearErrors s).errCmd = false := rfl
@[simp] theorem clearErrors_errCfg (s : State) : (clearErrors s).errCfg = false := rfl
@[simp] theorem clearErrors_errParam (s : State) : (clearErrors s).errParam = false := rfl
@[simp] theorem clearErrors_errRender (s : State) : (clearErrors s).errRender = false := rfl
@[simp] theorem clearErrors_errBus (s : State) : (clearErrors s).errBus = false := rfl
@[simp] theorem clearErrors_bus (s : State) : (clearErrors s).bus = s.bus := rfl
@[simp] theorem clearErrors_reads (s : State) : (clearErrors s).reads = s.reads := rfl

@[simp] theorem raiseError_hw (e : ErrFlag) (s : State) : (raiseError e s).hw = s.hw := by cases e <;> rfl
@[simp] theorem raiseError_arg0 (e : ErrFlag) (s : State) : (raiseError e s).arg0 = s.arg0 := by cases e <;> rfl
@[simp] theorem raiseError_arg1 (e : ErrFlag) (s : State) : (raiseError e s).arg1 = s.arg1 := by cases e <;> rfl
@[simp] theorem raiseError_configured (e : ErrFlag) (s : State) : (raiseError e s).configured = s.configured := by cases e <;> rfl
@[simp] theorem raiseError_ch (e : ErrFlag) (s : State) : (raiseError e s).ch = s.ch := by cases e <;> rfl
@[simp] theorem raiseError_cap (e : ErrFlag) (s : State) : (raiseError e s).cap = s.cap := by cases e <;> rfl
@[simp] theorem raiseError_sr (e : ErrFlag) (s : State) : (raiseError e s).sr = s.sr := by cases e <;> rfl
@[simp] theorem raiseError_maxdly (e : ErrFlag) (s : State) : (raiseError e s).maxdly = s.maxdly := by cases e <;> rfl
@[simp] theorem raiseError_spm (e : ErrFlag) (s : State) : (raiseError e s).spm = s.spm := by cases e <;> rfl
@[simp] theorem raiseError_mem (e : ErrFlag) (s : State) : (raiseError e s).mem = s.mem := by cases e <;> rfl
@[simp] theorem raiseError_cursors (e : ErrFlag) (s : State) : (raiseError e s).cursors = s.cursors := by cases e <;> rfl
@[simp] theorem raiseError_phase (e : ErrFlag) (s : State) : (raiseError e s).phase = s.phase := by cases e <;> rfl
@[simp] theorem raiseError_inc (e : ErrFlag) (s : State) : (raiseError e s).inc = s.inc := by cases e <;> rfl
@[simp] theorem raiseError_smoothers (e : ErrFlag) (s : State) : (raiseError e s).smoothers = s.smoothers := by cases e <;> rfl
@[simp] theorem raiseError_negfb (e : ErrFlag) (s : State) : (raiseError e s).negfb = s.negfb := by cases e <;> rfl
@[simp] theorem raiseError_odd90 (e : ErrFlag) (s : State) : (raiseError e s).odd90 = s.odd90 := by cases e <;> rfl
@[simp] theorem raiseError_errCmd (e : ErrFlag) (s : State) :
    (raiseError e s).errCmd = (decide (e = .cmd) || s.errCmd) := by cases e <;> rfl
@[simp] theorem raiseError_errCfg (e : ErrFlag) (s : State) :
    (raiseError e s).errCfg = (decide (e = .cfg) || s.errCfg) := by cases e <;> rfl
@[simp] theorem raiseError_errParam (e : ErrFlag) (s : State) :
    (raiseError e s).errParam = (decide (e = .param) || s.errParam) := by cases e <;> rfl
@[simp] theorem raiseError_errRender (e : ErrFlag) (s : State) :
    (raiseError e s).errRender = (decide (e = .render) || s.errRender) := by cases e <;> rfl
@[simp] theorem raiseError_errBus (e : ErrFlag) (s : State) :
    (raiseError e s).errBus = (decide (e = .bus) || s.errBus) := by cases e <;> rfl
@[simp] theorem raiseError_bus (e : ErrFlag) (s : State) : (raiseError e s).bus = s.bus := by cases e <;> rfl
@[simp] theorem raiseError_reads (e : ErrFlag) (s : State) : (raiseError e s).reads = s.reads := by cases e <;> rfl

@[simp] theorem setBool_hw (b : BoolId) (v : Bool) (s : State) : (setBool b v s).hw = s.hw := by cases b <;> rfl
@[simp] theorem setBool_arg0 (b : BoolId) (v : Bool) (s : State) : (setBool b v s).arg0 = s.arg0 := by cases b <;> rfl
@[simp] theorem setBool_arg1 (b : BoolId) (v : Bool) (s : State) : (setBool b v s).arg1 = s.arg1 := by cases b <;> rfl
@[simp] theorem setBool_configured (b : BoolId) (v : Bool) (s : State) : (setBool b v s).configured = s.configured := by cases b <;> rfl
@[simp] theorem setBool_ch (b : BoolId) (v : Bool) (s : State) : (setBool b v s).ch = s.ch := by cases b <;> rfl
@[simp] theorem setBool_cap (b : BoolId) (v : Bool) (s : State) : (setBool b v s).cap = s.cap := by cases b <;> rfl
@[simp] theorem setBool_sr (b : BoolId) (v : Bool) (s : State) : (setBool b v s).sr = s.sr := by cases b <;> rfl
@[simp] theorem setBool_maxdly (b : BoolId) (v : Bool) (s : State) : (setBool b v s).maxdly = s.maxdly := by cases b <;> rfl
@[simp] theorem setBool_spm (b : BoolId) (v : Bool) (s : State) : (setBool b v s).spm = s.spm := by cases b <;> rfl
@[simp] theorem setBool_mem (b : BoolId) (v : Bool) (s : State) : (setBool b v s).mem = s.mem := by cases b <;> rfl
@[simp] theorem setBool_cursors (b : BoolId) (v : Bool) (s : State) : (setBool b v s).cursors = s.cursors := by cases b <;> rfl
@[simp] theorem setBool_phase (b : BoolId) (v : Bool) (s : State) : (setBool b v s).phase = s.phase := by cases b <;> rfl
@[simp] theorem setBool_inc (b : BoolId) (v : Bool) (s : State) : (setBool b v s).inc = s.inc := by cases b <;> rfl
@[simp] theorem setBool_smoothers (b : BoolId) (v : Bool) (s : State) : (setBool b v s).smoothers = s.smoothers := by cases b <;> rfl
@[simp] theorem setBool_negfb (b : BoolId) (v : Bool) (s : State) :
    (setBool b v s).negfb = (if b = .negativeFeedback then v else s.negfb) := by cases b <;> rfl
@[simp] theorem setBool_odd90 (b : BoolId) (v : Bool) (s : State) :
    (setBool b v s).odd90 = (if b = .odd90 then v else s.odd90) := by cases b <;> rfl
@[simp] theorem setBool_errCmd (b : BoolId) (v : Bool) (s : State) : (setBool b v s).errCmd = s.errCmd := by cases b <;> rfl
@[simp] theorem setBool_errCfg (b : BoolId) (v : Bool) (s : State) : (setBool b v s).errCfg = s.errCfg := by cases b <;> rfl
@[simp] theorem setBool_errParam (b : BoolId) (v : Bool) (s : State) : (setBool b v s).errParam = s.errParam := by cases b <;> rfl
@[simp] theorem setBool_errRender (b : BoolId) (v : Bool) (s : State) : (setBool b v s).errRender = s.errRender := by cases b <;> rfl
@[simp] theorem setBool_errBus (b : BoolId) (v : Bool) (s : State) : (setBool b v s).errBus = s.errBus := by cases b <;> rfl
@[simp] theorem setBool_bus (b : BoolId) (v : Bool) (s : State) : (setBool b v s).bus = s.bus := by cases b <;> rfl
@[simp] theorem setBool_reads (b : BoolId) (v : Bool) (s : State) : (setBool b v s).reads = s.reads := by cases b <;> rfl

@[simp] theorem getSmoother_putSmoother_same (ss : Smoothers) (k : ScalarId) (sm : Smoother) :
    getSmoother (putSmoother ss k sm) k = sm := by cases k <;> rfl

theorem getSmoother_putSmoother (ss : Smoothers) (k j : ScalarId) (sm : Smoother) :
    getSmoother (putSmoother ss k sm) j = if j = k then sm else getSmoother ss j := by cases k <;> cases j <;> rfl

@[simp] theorem putSmoother_getSmoother (ss : Smoothers) (k : ScalarId) : putSmoother ss k (getSmoother ss k) = ss := by
  cases k <;> rfl

/-- The six smoothers are what `getSmoother` shows of them. -/
theorem Smoothers.ext_of_get {a b : Smoothers} (h : ∀ k, getSmoother a k = getSmoother b k) : a = b := by
  cases a; cases b
  have h0 := h .rate; have h1 := h .delay; have h2 := h .depth
  have h3 := h .feedback; have h4 := h .dryMix; have h5 := h .wetMix
  simp only [getSmoother] at *
  subst_vars
  rfl

theorem smoother_setSmoother (k j : ScalarId) (sm : Smoother) (s : State) :
    smoother (setSmoother k sm s) j = if j = k then sm else smoother s j := by
  simp [smoother, getSmoother_putSmoother]

/-- Raising an error changes one flag: every flag after it. -/
theorem flag_raiseError (e e' : ErrFlag) (s : State) :
    flag (raiseError e s) e' = (decide (e = e') || flag s e') := by
  cases e <;> cases e' <;> simp [flag, raiseError]

end Sys2Proof.Machine
end

