-- ==== Sys2Proof/Laws/Render.lean ====
section
/-! SUPPORT. What the loops of a render can do: one lemma per operation says everything it may change. -/

namespace Sys2Proof.Machine

/-- A loop keeps what its body keeps. -/
theorem forUpTo_induct {P : Nat → State → Prop} {loopBody : Nat → State → State} {n : Nat} {s : State}
    (h0 : P 0 s) (hs : ∀ i t, i < n → P i t → P (i + 1) (loopBody i t)) : P n (forUpTo n loopBody s) := by
  have : ∀ m, m ≤ n → P m (forUpTo m loopBody s) := by
    intro m
    induction m with
    | zero => intro _; exact h0
    | succ m ih => intro hm; exact hs m _ (by omega) (ih (by omega))
  exact this n le_rfl

@[simp] theorem forUpTo_zero (loopBody : Nat → State → State) (s : State) : forUpTo 0 loopBody s = s := rfl

theorem forUpTo_succ (n : Nat) (loopBody : Nat → State → State) (s : State) :
    forUpTo (n + 1) loopBody s = loopBody n (forUpTo n loopBody s) := rfl

/-- DL_WRITE changes DL and W only. -/
theorem dlWrite_shape (c : Nat) (v : F32) (s : State) :
    dlWrite c v s = { s with mem := writeWord s.mem (dlAddr s.hw c (cursor s c)) v,
                             cursors := s.cursors.set c ((cursor s c + 1) % s.cap) } := rfl

/-- CHANNEL_STEP changes DL, OUT and W only: the two words it stores and the cursor. -/
theorem channelStep_shape (c i : Nat) (t sfb dry wet : F32) (s : State) :
    channelStep c i t sfb dry wet s =
      { s with
        mem := writeWord (writeWord s.mem (dlAddr s.hw c (cursor s c)) (mixWrite (inWord s c i) (dlRead c t s) sfb))
          (outAddr s.hw c i) (mixOut (inWord s c i) (dlRead c t s) dry wet)
        cursors := s.cursors.set c ((cursor s c + 1) % s.cap) } := rfl

theorem channelStep_withoutStorage (c i : Nat) (t sfb dry wet : F32) (s : State) :
    withoutStorage (channelStep c i t sfb dry wet s) = withoutStorage s := rfl

theorem forUpTo_withoutStorage {loopBody : Nat → State → State}
    (h : ∀ i t, withoutStorage (loopBody i t) = withoutStorage t) (n : Nat) (s : State) :
    withoutStorage (forUpTo n loopBody s) = withoutStorage s :=
  forUpTo_induct (P := fun _ t => withoutStorage t = withoutStorage s) rfl fun i t _ ht => (h i t).trans ht

/-- What a state without its storage still shows. -/
theorem withoutFrame_of_withoutStorage {s t : State} (h : withoutStorage t = withoutStorage s) :
    withoutFrame t = withoutFrame s := congrArg (fun u : State => { u with phase := 0#64 }) h

theorem withoutRender_of_withoutFrame {s t : State} (h : withoutFrame t = withoutFrame s) :
    withoutRender t = withoutRender s :=
  congrArg (fun u : State => { u with inc := 0#64, smoothers := (State.resetWith u.hw).smoothers }) h

/-- The loop over the channels of a frame changes IN, OUT, DL and the cursors only. -/
theorem frameStep_inner (ctr var fb dry wet : F32) (odd : Bool) (i : Nat) (s : State) :
    withoutStorage (frameStep ctr var fb dry wet odd i s) = withoutStorage (lfoIncrement s) := by
  unfold frameStep
  exact forUpTo_withoutStorage (fun c t => channelStep_withoutStorage ..) _ _

/-- FRAME_STEP changes IN, OUT, DL, the cursors and the phase only. -/
theorem frameStep_withoutFrame (ctr var fb dry wet : F32) (odd : Bool) (i : Nat) (s : State) :
    withoutFrame (frameStep ctr var fb dry wet odd i s) = withoutFrame s := by
  rw [withoutFrame_of_withoutStorage (frameStep_inner ctr var fb dry wet odd i s)]
  unfold withoutFrame
  simp

/-- FRAME_STEP advances the phase once (44_render_engine.md R203). -/
theorem frameStep_phase (ctr var fb dry wet : F32) (odd : Bool) (i : Nat) (s : State) :
    (frameStep ctr var fb dry wet odd i s).phase = nextPhase s.phase s.inc := by
  have h := congrArg State.phase (frameStep_inner ctr var fb dry wet odd i s)
  simp only [withoutStorage, lfoIncrement_phase] at h
  exact h

/-- The frames of a render change IN, OUT, DL, the cursors and the phase only, once the rate is set. -/
theorem renderFrames_withoutFrame (n : Nat) (k : Controls) (odd : Bool) (s : State) :
    withoutFrame (renderFrames n k odd s) = withoutFrame (lfoSetRate k.rate s) := by
  unfold renderFrames
  exact forUpTo_induct (P := fun _ t => withoutFrame t = withoutFrame (lfoSetRate k.rate s)) rfl
    fun i t _ ht => (frameStep_withoutFrame ..).trans ht

/-- The increment during and after a render (41_lfo.md R153). -/
theorem renderFrames_inc (n : Nat) (k : Controls) (odd : Bool) (s : State) :
    (renderFrames n k odd s).inc = lfoRateInc k.rate s.sr := by
  have h := congrArg State.inc (renderFrames_withoutFrame n k odd s)
  simp only [withoutFrame, lfoSetRate_inc] at h
  exact h

/-- The phase of a render of n frames: n increments (44_render_engine.md R207). -/
theorem renderFrames_phase (n : Nat) (k : Controls) (odd : Bool) (s : State) :
    (renderFrames n k odd s).phase = (fun p => nextPhase p (lfoRateInc k.rate s.sr))^[n] s.phase := by
  unfold renderFrames
  dsimp only
  have := forUpTo_induct (n := n) (s := lfoSetRate k.rate s)
    (loopBody := frameStep (cvDerive s.maxdly k.delay k.depth).1 (cvDerive s.maxdly k.delay k.depth).2
      k.feedback k.dryMix k.wetMix odd)
    (P := fun i t => t.inc = lfoRateInc k.rate s.sr ∧
      t.phase = (fun p => nextPhase p (lfoRateInc k.rate s.sr))^[i] s.phase)
    ⟨by simp, by simp⟩ (by
      rintro i t _ ⟨h1, h2⟩
      refine ⟨?_, ?_⟩
      · have h := congrArg State.inc (frameStep_withoutFrame (cvDerive s.maxdly k.delay k.depth).1
          (cvDerive s.maxdly k.delay k.depth).2 k.feedback k.dryMix k.wetMix odd i t)
        simp only [withoutFrame] at h
        rw [h, h1]
      · rw [frameStep_phase, h1, h2, Function.iterate_succ_apply'])
  exact this.2

/-- READ_PARAMS with SM_FRAME: each smoother takes one step, and each value is the new CUR (44_render_engine.md R201). -/
theorem readParams_smFrame (s : State) :
    let t := { s with smoothers :=
      { rate := smootherFrame .rate (smoother s .rate), delay := smootherFrame .delay (smoother s .delay),
        depth := smootherFrame .depth (smoother s .depth), feedback := smootherFrame .feedback (smoother s .feedback),
        dryMix := smootherFrame .dryMix (smoother s .dryMix), wetMix := smootherFrame .wetMix (smoother s .wetMix) } }
    readParams smFrame s =
      ({ rate := (smoother t .rate).cur, delay := (smoother t .delay).cur, depth := (smoother t .depth).cur,
         feedback := (smoother t .feedback).cur, dryMix := (smoother t .dryMix).cur, wetMix := (smoother t .wetMix).cur },
        t) := by
  simp only [readParams, smFrame, setSmoother, smoother, putSmoother, getSmoother]

/-- READ_PARAMS with SM_FINAL: each ramp is completed, and each value is TGT (44_render_engine.md R202). -/
theorem readParams_smFinal (s : State) :
    let t := { s with smoothers :=
      { rate := smootherFinal (smoother s .rate), delay := smootherFinal (smoother s .delay),
        depth := smootherFinal (smoother s .depth), feedback := smootherFinal (smoother s .feedback),
        dryMix := smootherFinal (smoother s .dryMix), wetMix := smootherFinal (smoother s .wetMix) } }
    readParams smFinal s =
      ({ rate := (smoother s .rate).tgt, delay := (smoother s .delay).tgt, depth := (smoother s .depth).tgt,
         feedback := (smoother s .feedback).tgt, dryMix := (smoother s .dryMix).tgt, wetMix := (smoother s .wetMix).tgt },
        t) := by
  simp only [readParams, smFinal, smootherFinal, setSmoother, smoother, putSmoother, getSmoother]

/-- Smoother k after the parameters are read. -/
theorem smoother_readControls (n : Nat) (s : State) (k : ScalarId) :
    smoother (readControls n s).2 k
      = if n = 1 then smootherFrame k (smoother s k) else smootherFinal (smoother s k) := by
  unfold readControls
  split
  · rw [readParams_smFrame]; cases k <;> simp only [smoother, getSmoother]
  · rw [readParams_smFinal]; cases k <;> simp only [smoother, getSmoother]

/-- Reading the parameters changes the smoothers only. -/
theorem readControls_shape (n : Nat) (s : State) :
    (readControls n s).2 = { s with smoothers := (readControls n s).2.smoothers } := by
  unfold readControls
  split
  · rw [readParams_smFrame]
  · rw [readParams_smFinal]

/-- The six values are the CUR of each smoother after the read. -/
theorem readControls_values (n : Nat) (s : State) :
    let t := (readControls n s).2
    (readControls n s).1 =
      { rate := (smoother t .rate).cur, delay := (smoother t .delay).cur, depth := (smoother t .depth).cur,
        feedback := (smoother t .feedback).cur, dryMix := (smoother t .dryMix).cur, wetMix := (smoother t .wetMix).cur } := by
  unfold readControls
  split
  · rw [readParams_smFrame]
  · rw [readParams_smFinal]
    simp only [smoother, getSmoother, smootherFinal]

/-- RENDER_CORE changes IN, OUT, DL, the cursors, the phase, the increment and the smoothers only. -/
theorem renderCore_withoutRender (n : Nat) (s : State) : withoutRender (renderCore n s) = withoutRender s := by
  unfold renderCore
  rw [withoutRender_of_withoutFrame (renderFrames_withoutFrame n _ _ _)]
  generalize hr : readControls n s = r
  have h2 := readControls_shape n s
  rw [hr] at h2
  unfold withoutRender
  simp only [lfoSetRate_hw, lfoSetRate_arg0, lfoSetRate_arg1, lfoSetRate_configured, lfoSetRate_ch, lfoSetRate_cap,
    lfoSetRate_sr, lfoSetRate_maxdly, lfoSetRate_spm, lfoSetRate_negfb, lfoSetRate_odd90, lfoSetRate_errCmd,
    lfoSetRate_errCfg, lfoSetRate_errParam, lfoSetRate_errRender, lfoSetRate_errBus, lfoSetRate_bus, lfoSetRate_reads]
  rw [h2]

/-- The smoothers after a render are those after the parameters are read (44_render_engine.md R201, R202). -/
theorem renderCore_smoothers (n : Nat) (s : State) : (renderCore n s).smoothers = (readControls n s).2.smoothers := by
  have h := congrArg State.smoothers
    (renderFrames_withoutFrame n (readControls n s).1 s.odd90 (readControls n s).2)
  simp only [withoutFrame, lfoSetRate_smoothers] at h
  exact h

end Sys2Proof.Machine
end

