-- ==== Sys2Proof/Laws/Fields.lean ====
section
/-! SUPPORT. Field by field: what the views of Safety.lean show, and what a frame and a render leave unchanged. -/

namespace Sys2Proof.Machine

@[simp] theorem withoutStorage_hw (s : State) : (withoutStorage s).hw = s.hw := by cases s; rfl
@[simp] theorem withoutStorage_arg0 (s : State) : (withoutStorage s).arg0 = s.arg0 := by cases s; rfl
@[simp] theorem withoutStorage_arg1 (s : State) : (withoutStorage s).arg1 = s.arg1 := by cases s; rfl
@[simp] theorem withoutStorage_configured (s : State) : (withoutStorage s).configured = s.configured := by cases s; rfl
@[simp] theorem withoutStorage_ch (s : State) : (withoutStorage s).ch = s.ch := by cases s; rfl
@[simp] theorem withoutStorage_cap (s : State) : (withoutStorage s).cap = s.cap := by cases s; rfl
@[simp] theorem withoutStorage_sr (s : State) : (withoutStorage s).sr = s.sr := by cases s; rfl
@[simp] theorem withoutStorage_maxdly (s : State) : (withoutStorage s).maxdly = s.maxdly := by cases s; rfl
@[simp] theorem withoutStorage_spm (s : State) : (withoutStorage s).spm = s.spm := by cases s; rfl
@[simp] theorem withoutStorage_phase (s : State) : (withoutStorage s).phase = s.phase := by cases s; rfl
@[simp] theorem withoutStorage_inc (s : State) : (withoutStorage s).inc = s.inc := by cases s; rfl
@[simp] theorem withoutStorage_smoothers (s : State) : (withoutStorage s).smoothers = s.smoothers := by cases s; rfl
@[simp] theorem withoutStorage_negfb (s : State) : (withoutStorage s).negfb = s.negfb := by cases s; rfl
@[simp] theorem withoutStorage_odd90 (s : State) : (withoutStorage s).odd90 = s.odd90 := by cases s; rfl
@[simp] theorem withoutStorage_errCmd (s : State) : (withoutStorage s).errCmd = s.errCmd := by cases s; rfl
@[simp] theorem withoutStorage_errCfg (s : State) : (withoutStorage s).errCfg = s.errCfg := by cases s; rfl
@[simp] theorem withoutStorage_errParam (s : State) : (withoutStorage s).errParam = s.errParam := by cases s; rfl
@[simp] theorem withoutStorage_errRender (s : State) : (withoutStorage s).errRender = s.errRender := by cases s; rfl
@[simp] theorem withoutStorage_errBus (s : State) : (withoutStorage s).errBus = s.errBus := by cases s; rfl
@[simp] theorem withoutStorage_bus (s : State) : (withoutStorage s).bus = s.bus := by cases s; rfl
@[simp] theorem withoutStorage_reads (s : State) : (withoutStorage s).reads = s.reads := by cases s; rfl

@[simp] theorem withoutFrame_hw (s : State) : (withoutFrame s).hw = s.hw := by cases s; rfl
@[simp] theorem withoutFrame_arg0 (s : State) : (withoutFrame s).arg0 = s.arg0 := by cases s; rfl
@[simp] theorem withoutFrame_arg1 (s : State) : (withoutFrame s).arg1 = s.arg1 := by cases s; rfl
@[simp] theorem withoutFrame_configured (s : State) : (withoutFrame s).configured = s.configured := by cases s; rfl
@[simp] theorem withoutFrame_ch (s : State) : (withoutFrame s).ch = s.ch := by cases s; rfl
@[simp] theorem withoutFrame_cap (s : State) : (withoutFrame s).cap = s.cap := by cases s; rfl
@[simp] theorem withoutFrame_sr (s : State) : (withoutFrame s).sr = s.sr := by cases s; rfl
@[simp] theorem withoutFrame_maxdly (s : State) : (withoutFrame s).maxdly = s.maxdly := by cases s; rfl
@[simp] theorem withoutFrame_spm (s : State) : (withoutFrame s).spm = s.spm := by cases s; rfl
@[simp] theorem withoutFrame_inc (s : State) : (withoutFrame s).inc = s.inc := by cases s; rfl
@[simp] theorem withoutFrame_smoothers (s : State) : (withoutFrame s).smoothers = s.smoothers := by cases s; rfl
@[simp] theorem withoutFrame_negfb (s : State) : (withoutFrame s).negfb = s.negfb := by cases s; rfl
@[simp] theorem withoutFrame_odd90 (s : State) : (withoutFrame s).odd90 = s.odd90 := by cases s; rfl
@[simp] theorem withoutFrame_errCmd (s : State) : (withoutFrame s).errCmd = s.errCmd := by cases s; rfl
@[simp] theorem withoutFrame_errCfg (s : State) : (withoutFrame s).errCfg = s.errCfg := by cases s; rfl
@[simp] theorem withoutFrame_errParam (s : State) : (withoutFrame s).errParam = s.errParam := by cases s; rfl
@[simp] theorem withoutFrame_errRender (s : State) : (withoutFrame s).errRender = s.errRender := by cases s; rfl
@[simp] theorem withoutFrame_errBus (s : State) : (withoutFrame s).errBus = s.errBus := by cases s; rfl
@[simp] theorem withoutFrame_bus (s : State) : (withoutFrame s).bus = s.bus := by cases s; rfl
@[simp] theorem withoutFrame_reads (s : State) : (withoutFrame s).reads = s.reads := by cases s; rfl

@[simp] theorem withoutRender_hw (s : State) : (withoutRender s).hw = s.hw := by cases s; rfl
@[simp] theorem withoutRender_arg0 (s : State) : (withoutRender s).arg0 = s.arg0 := by cases s; rfl
@[simp] theorem withoutRender_arg1 (s : State) : (withoutRender s).arg1 = s.arg1 := by cases s; rfl
@[simp] theorem withoutRender_configured (s : State) : (withoutRender s).configured = s.configured := by cases s; rfl
@[simp] theorem withoutRender_ch (s : State) : (withoutRender s).ch = s.ch := by cases s; rfl
@[simp] theorem withoutRender_cap (s : State) : (withoutRender s).cap = s.cap := by cases s; rfl
@[simp] theorem withoutRender_sr (s : State) : (withoutRender s).sr = s.sr := by cases s; rfl
@[simp] theorem withoutRender_maxdly (s : State) : (withoutRender s).maxdly = s.maxdly := by cases s; rfl
@[simp] theorem withoutRender_spm (s : State) : (withoutRender s).spm = s.spm := by cases s; rfl
@[simp] theorem withoutRender_negfb (s : State) : (withoutRender s).negfb = s.negfb := by cases s; rfl
@[simp] theorem withoutRender_odd90 (s : State) : (withoutRender s).odd90 = s.odd90 := by cases s; rfl
@[simp] theorem withoutRender_errCmd (s : State) : (withoutRender s).errCmd = s.errCmd := by cases s; rfl
@[simp] theorem withoutRender_errCfg (s : State) : (withoutRender s).errCfg = s.errCfg := by cases s; rfl
@[simp] theorem withoutRender_errParam (s : State) : (withoutRender s).errParam = s.errParam := by cases s; rfl
@[simp] theorem withoutRender_errRender (s : State) : (withoutRender s).errRender = s.errRender := by cases s; rfl
@[simp] theorem withoutRender_errBus (s : State) : (withoutRender s).errBus = s.errBus := by cases s; rfl
@[simp] theorem withoutRender_bus (s : State) : (withoutRender s).bus = s.bus := by cases s; rfl
@[simp] theorem withoutRender_reads (s : State) : (withoutRender s).reads = s.reads := by cases s; rfl

@[simp] theorem frameStep_hw (ctr var fb dry wet : F32) (odd : Bool) (i : Nat) (s : State) :
    (frameStep ctr var fb dry wet odd i s).hw = s.hw := by
  simpa only [withoutFrame_hw] using congrArg State.hw (frameStep_withoutFrame ctr var fb dry wet odd i s)
@[simp] theorem frameStep_arg0 (ctr var fb dry wet : F32) (odd : Bool) (i : Nat) (s : State) :
    (frameStep ctr var fb dry wet odd i s).arg0 = s.arg0 := by
  simpa only [withoutFrame_arg0] using congrArg State.arg0 (frameStep_withoutFrame ctr var fb dry wet odd i s)
@[simp] theorem frameStep_arg1 (ctr var fb dry wet : F32) (odd : Bool) (i : Nat) (s : State) :
    (frameStep ctr var fb dry wet odd i s).arg1 = s.arg1 := by
  simpa only [withoutFrame_arg1] using congrArg State.arg1 (frameStep_withoutFrame ctr var fb dry wet odd i s)
@[simp] theorem frameStep_configured (ctr var fb dry wet : F32) (odd : Bool) (i : Nat) (s : State) :
    (frameStep ctr var fb dry wet odd i s).configured = s.configured := by
  simpa only [withoutFrame_configured] using congrArg State.configured (frameStep_withoutFrame ctr var fb dry wet odd i s)
@[simp] theorem frameStep_ch (ctr var fb dry wet : F32) (odd : Bool) (i : Nat) (s : State) :
    (frameStep ctr var fb dry wet odd i s).ch = s.ch := by
  simpa only [withoutFrame_ch] using congrArg State.ch (frameStep_withoutFrame ctr var fb dry wet odd i s)
@[simp] theorem frameStep_cap (ctr var fb dry wet : F32) (odd : Bool) (i : Nat) (s : State) :
    (frameStep ctr var fb dry wet odd i s).cap = s.cap := by
  simpa only [withoutFrame_cap] using congrArg State.cap (frameStep_withoutFrame ctr var fb dry wet odd i s)
@[simp] theorem frameStep_sr (ctr var fb dry wet : F32) (odd : Bool) (i : Nat) (s : State) :
    (frameStep ctr var fb dry wet odd i s).sr = s.sr := by
  simpa only [withoutFrame_sr] using congrArg State.sr (frameStep_withoutFrame ctr var fb dry wet odd i s)
@[simp] theorem frameStep_maxdly (ctr var fb dry wet : F32) (odd : Bool) (i : Nat) (s : State) :
    (frameStep ctr var fb dry wet odd i s).maxdly = s.maxdly := by
  simpa only [withoutFrame_maxdly] using congrArg State.maxdly (frameStep_withoutFrame ctr var fb dry wet odd i s)
@[simp] theorem frameStep_spm (ctr var fb dry wet : F32) (odd : Bool) (i : Nat) (s : State) :
    (frameStep ctr var fb dry wet odd i s).spm = s.spm := by
  simpa only [withoutFrame_spm] using congrArg State.spm (frameStep_withoutFrame ctr var fb dry wet odd i s)
@[simp] theorem frameStep_inc (ctr var fb dry wet : F32) (odd : Bool) (i : Nat) (s : State) :
    (frameStep ctr var fb dry wet odd i s).inc = s.inc := by
  simpa only [withoutFrame_inc] using congrArg State.inc (frameStep_withoutFrame ctr var fb dry wet odd i s)
@[simp] theorem frameStep_smoothers (ctr var fb dry wet : F32) (odd : Bool) (i : Nat) (s : State) :
    (frameStep ctr var fb dry wet odd i s).smoothers = s.smoothers := by
  simpa only [withoutFrame_smoothers] using congrArg State.smoothers (frameStep_withoutFrame ctr var fb dry wet odd i s)
@[simp] theorem frameStep_negfb (ctr var fb dry wet : F32) (odd : Bool) (i : Nat) (s : State) :
    (frameStep ctr var fb dry wet odd i s).negfb = s.negfb := by
  simpa only [withoutFrame_negfb] using congrArg State.negfb (frameStep_withoutFrame ctr var fb dry wet odd i s)
@[simp] theorem frameStep_odd90 (ctr var fb dry wet : F32) (odd : Bool) (i : Nat) (s : State) :
    (frameStep ctr var fb dry wet odd i s).odd90 = s.odd90 := by
  simpa only [withoutFrame_odd90] using congrArg State.odd90 (frameStep_withoutFrame ctr var fb dry wet odd i s)
@[simp] theorem frameStep_errCmd (ctr var fb dry wet : F32) (odd : Bool) (i : Nat) (s : State) :
    (frameStep ctr var fb dry wet odd i s).errCmd = s.errCmd := by
  simpa only [withoutFrame_errCmd] using congrArg State.errCmd (frameStep_withoutFrame ctr var fb dry wet odd i s)
@[simp] theorem frameStep_errCfg (ctr var fb dry wet : F32) (odd : Bool) (i : Nat) (s : State) :
    (frameStep ctr var fb dry wet odd i s).errCfg = s.errCfg := by
  simpa only [withoutFrame_errCfg] using congrArg State.errCfg (frameStep_withoutFrame ctr var fb dry wet odd i s)
@[simp] theorem frameStep_errParam (ctr var fb dry wet : F32) (odd : Bool) (i : Nat) (s : State) :
    (frameStep ctr var fb dry wet odd i s).errParam = s.errParam := by
  simpa only [withoutFrame_errParam] using congrArg State.errParam (frameStep_withoutFrame ctr var fb dry wet odd i s)
@[simp] theorem frameStep_errRender (ctr var fb dry wet : F32) (odd : Bool) (i : Nat) (s : State) :
    (frameStep ctr var fb dry wet odd i s).errRender = s.errRender := by
  simpa only [withoutFrame_errRender] using congrArg State.errRender (frameStep_withoutFrame ctr var fb dry wet odd i s)
@[simp] theorem frameStep_errBus (ctr var fb dry wet : F32) (odd : Bool) (i : Nat) (s : State) :
    (frameStep ctr var fb dry wet odd i s).errBus = s.errBus := by
  simpa only [withoutFrame_errBus] using congrArg State.errBus (frameStep_withoutFrame ctr var fb dry wet odd i s)
@[simp] theorem frameStep_bus (ctr var fb dry wet : F32) (odd : Bool) (i : Nat) (s : State) :
    (frameStep ctr var fb dry wet odd i s).bus = s.bus := by
  simpa only [withoutFrame_bus] using congrArg State.bus (frameStep_withoutFrame ctr var fb dry wet odd i s)
@[simp] theorem frameStep_reads (ctr var fb dry wet : F32) (odd : Bool) (i : Nat) (s : State) :
    (frameStep ctr var fb dry wet odd i s).reads = s.reads := by
  simpa only [withoutFrame_reads] using congrArg State.reads (frameStep_withoutFrame ctr var fb dry wet odd i s)

@[simp] theorem renderFrames_hw (n : Nat) (k : Controls) (odd : Bool) (s : State) :
    (renderFrames n k odd s).hw = s.hw := by
  simpa only [withoutFrame_hw, lfoSetRate_hw] using congrArg State.hw (renderFrames_withoutFrame n k odd s)
@[simp] theorem renderFrames_arg0 (n : Nat) (k : Controls) (odd : Bool) (s : State) :
    (renderFrames n k odd s).arg0 = s.arg0 := by
  simpa only [withoutFrame_arg0, lfoSetRate_arg0] using congrArg State.arg0 (renderFrames_withoutFrame n k odd s)
@[simp] theorem renderFrames_arg1 (n : Nat) (k : Controls) (odd : Bool) (s : State) :
    (renderFrames n k odd s).arg1 = s.arg1 := by
  simpa only [withoutFrame_arg1, lfoSetRate_arg1] using congrArg State.arg1 (renderFrames_withoutFrame n k odd s)
@[simp] theorem renderFrames_configured (n : Nat) (k : Controls) (odd : Bool) (s : State) :
    (renderFrames n k odd s).configured = s.configured := by
  simpa only [withoutFrame_configured, lfoSetRate_configured] using congrArg State.configured (renderFrames_withoutFrame n k odd s)
@[simp] theorem renderFrames_ch (n : Nat) (k : Controls) (odd : Bool) (s : State) :
    (renderFrames n k odd s).ch = s.ch := by
  simpa only [withoutFrame_ch, lfoSetRate_ch] using congrArg State.ch (renderFrames_withoutFrame n k odd s)
@[simp] theorem renderFrames_cap (n : Nat) (k : Controls) (odd : Bool) (s : State) :
    (renderFrames n k odd s).cap = s.cap := by
  simpa only [withoutFrame_cap, lfoSetRate_cap] using congrArg State.cap (renderFrames_withoutFrame n k odd s)
@[simp] theorem renderFrames_sr (n : Nat) (k : Controls) (odd : Bool) (s : State) :
    (renderFrames n k odd s).sr = s.sr := by
  simpa only [withoutFrame_sr, lfoSetRate_sr] using congrArg State.sr (renderFrames_withoutFrame n k odd s)
@[simp] theorem renderFrames_maxdly (n : Nat) (k : Controls) (odd : Bool) (s : State) :
    (renderFrames n k odd s).maxdly = s.maxdly := by
  simpa only [withoutFrame_maxdly, lfoSetRate_maxdly] using congrArg State.maxdly (renderFrames_withoutFrame n k odd s)
@[simp] theorem renderFrames_spm (n : Nat) (k : Controls) (odd : Bool) (s : State) :
    (renderFrames n k odd s).spm = s.spm := by
  simpa only [withoutFrame_spm, lfoSetRate_spm] using congrArg State.spm (renderFrames_withoutFrame n k odd s)
@[simp] theorem renderFrames_smoothers (n : Nat) (k : Controls) (odd : Bool) (s : State) :
    (renderFrames n k odd s).smoothers = s.smoothers := by
  simpa only [withoutFrame_smoothers, lfoSetRate_smoothers] using congrArg State.smoothers (renderFrames_withoutFrame n k odd s)
@[simp] theorem renderFrames_negfb (n : Nat) (k : Controls) (odd : Bool) (s : State) :
    (renderFrames n k odd s).negfb = s.negfb := by
  simpa only [withoutFrame_negfb, lfoSetRate_negfb] using congrArg State.negfb (renderFrames_withoutFrame n k odd s)
@[simp] theorem renderFrames_odd90 (n : Nat) (k : Controls) (odd : Bool) (s : State) :
    (renderFrames n k odd s).odd90 = s.odd90 := by
  simpa only [withoutFrame_odd90, lfoSetRate_odd90] using congrArg State.odd90 (renderFrames_withoutFrame n k odd s)
@[simp] theorem renderFrames_errCmd (n : Nat) (k : Controls) (odd : Bool) (s : State) :
    (renderFrames n k odd s).errCmd = s.errCmd := by
  simpa only [withoutFrame_errCmd, lfoSetRate_errCmd] using congrArg State.errCmd (renderFrames_withoutFrame n k odd s)
@[simp] theorem renderFrames_errCfg (n : Nat) (k : Controls) (odd : Bool) (s : State) :
    (renderFrames n k odd s).errCfg = s.errCfg := by
  simpa only [withoutFrame_errCfg, lfoSetRate_errCfg] using congrArg State.errCfg (renderFrames_withoutFrame n k odd s)
@[simp] theorem renderFrames_errParam (n : Nat) (k : Controls) (odd : Bool) (s : State) :
    (renderFrames n k odd s).errParam = s.errParam := by
  simpa only [withoutFrame_errParam, lfoSetRate_errParam] using congrArg State.errParam (renderFrames_withoutFrame n k odd s)
@[simp] theorem renderFrames_errRender (n : Nat) (k : Controls) (odd : Bool) (s : State) :
    (renderFrames n k odd s).errRender = s.errRender := by
  simpa only [withoutFrame_errRender, lfoSetRate_errRender] using congrArg State.errRender (renderFrames_withoutFrame n k odd s)
@[simp] theorem renderFrames_errBus (n : Nat) (k : Controls) (odd : Bool) (s : State) :
    (renderFrames n k odd s).errBus = s.errBus := by
  simpa only [withoutFrame_errBus, lfoSetRate_errBus] using congrArg State.errBus (renderFrames_withoutFrame n k odd s)
@[simp] theorem renderFrames_bus (n : Nat) (k : Controls) (odd : Bool) (s : State) :
    (renderFrames n k odd s).bus = s.bus := by
  simpa only [withoutFrame_bus, lfoSetRate_bus] using congrArg State.bus (renderFrames_withoutFrame n k odd s)
@[simp] theorem renderFrames_reads (n : Nat) (k : Controls) (odd : Bool) (s : State) :
    (renderFrames n k odd s).reads = s.reads := by
  simpa only [withoutFrame_reads, lfoSetRate_reads] using congrArg State.reads (renderFrames_withoutFrame n k odd s)

@[simp] theorem readControls_hw (n : Nat) (s : State) : (readControls n s).2.hw = s.hw := by
  rw [readControls_shape]
@[simp] theorem readControls_arg0 (n : Nat) (s : State) : (readControls n s).2.arg0 = s.arg0 := by
  rw [readControls_shape]
@[simp] theorem readControls_arg1 (n : Nat) (s : State) : (readControls n s).2.arg1 = s.arg1 := by
  rw [readControls_shape]
@[simp] theorem readControls_configured (n : Nat) (s : State) : (readControls n s).2.configured = s.configured := by
  rw [readControls_shape]
@[simp] theorem readControls_ch (n : Nat) (s : State) : (readControls n s).2.ch = s.ch := by
  rw [readControls_shape]
@[simp] theorem readControls_cap (n : Nat) (s : State) : (readControls n s).2.cap = s.cap := by
  rw [readControls_shape]
@[simp] theorem readControls_sr (n : Nat) (s : State) : (readControls n s).2.sr = s.sr := by
  rw [readControls_shape]
@[simp] theorem readControls_maxdly (n : Nat) (s : State) : (readControls n s).2.maxdly = s.maxdly := by
  rw [readControls_shape]
@[simp] theorem readControls_spm (n : Nat) (s : State) : (readControls n s).2.spm = s.spm := by
  rw [readControls_shape]
@[simp] theorem readControls_mem (n : Nat) (s : State) : (readControls n s).2.mem = s.mem := by
  rw [readControls_shape]
@[simp] theorem readControls_cursors (n : Nat) (s : State) : (readControls n s).2.cursors = s.cursors := by
  rw [readControls_shape]
@[simp] theorem readControls_phase (n : Nat) (s : State) : (readControls n s).2.phase = s.phase := by
  rw [readControls_shape]
@[simp] theorem readControls_inc (n : Nat) (s : State) : (readControls n s).2.inc = s.inc := by
  rw [readControls_shape]
@[simp] theorem readControls_negfb (n : Nat) (s : State) : (readControls n s).2.negfb = s.negfb := by
  rw [readControls_shape]
@[simp] theorem readControls_odd90 (n : Nat) (s : State) : (readControls n s).2.odd90 = s.odd90 := by
  rw [readControls_shape]
@[simp] theorem readControls_errCmd (n : Nat) (s : State) : (readControls n s).2.errCmd = s.errCmd := by
  rw [readControls_shape]
@[simp] theorem readControls_errCfg (n : Nat) (s : State) : (readControls n s).2.errCfg = s.errCfg := by
  rw [readControls_shape]
@[simp] theorem readControls_errParam (n : Nat) (s : State) : (readControls n s).2.errParam = s.errParam := by
  rw [readControls_shape]
@[simp] theorem readControls_errRender (n : Nat) (s : State) : (readControls n s).2.errRender = s.errRender := by
  rw [readControls_shape]
@[simp] theorem readControls_errBus (n : Nat) (s : State) : (readControls n s).2.errBus = s.errBus := by
  rw [readControls_shape]
@[simp] theorem readControls_bus (n : Nat) (s : State) : (readControls n s).2.bus = s.bus := by
  rw [readControls_shape]
@[simp] theorem readControls_reads (n : Nat) (s : State) : (readControls n s).2.reads = s.reads := by
  rw [readControls_shape]

@[simp] theorem renderCore_hw (n : Nat) (s : State) : (renderCore n s).hw = s.hw := by
  simpa only [withoutRender_hw] using congrArg State.hw (renderCore_withoutRender n s)
@[simp] theorem renderCore_arg0 (n : Nat) (s : State) : (renderCore n s).arg0 = s.arg0 := by
  simpa only [withoutRender_arg0] using congrArg State.arg0 (renderCore_withoutRender n s)
@[simp] theorem renderCore_arg1 (n : Nat) (s : State) : (renderCore n s).arg1 = s.arg1 := by
  simpa only [withoutRender_arg1] using congrArg State.arg1 (renderCore_withoutRender n s)
@[simp] theorem renderCore_configured (n : Nat) (s : State) : (renderCore n s).configured = s.configured := by
  simpa only [withoutRender_configured] using congrArg State.configured (renderCore_withoutRender n s)
@[simp] theorem renderCore_ch (n : Nat) (s : State) : (renderCore n s).ch = s.ch := by
  simpa only [withoutRender_ch] using congrArg State.ch (renderCore_withoutRender n s)
@[simp] theorem renderCore_cap (n : Nat) (s : State) : (renderCore n s).cap = s.cap := by
  simpa only [withoutRender_cap] using congrArg State.cap (renderCore_withoutRender n s)
@[simp] theorem renderCore_sr (n : Nat) (s : State) : (renderCore n s).sr = s.sr := by
  simpa only [withoutRender_sr] using congrArg State.sr (renderCore_withoutRender n s)
@[simp] theorem renderCore_maxdly (n : Nat) (s : State) : (renderCore n s).maxdly = s.maxdly := by
  simpa only [withoutRender_maxdly] using congrArg State.maxdly (renderCore_withoutRender n s)
@[simp] theorem renderCore_spm (n : Nat) (s : State) : (renderCore n s).spm = s.spm := by
  simpa only [withoutRender_spm] using congrArg State.spm (renderCore_withoutRender n s)
@[simp] theorem renderCore_negfb (n : Nat) (s : State) : (renderCore n s).negfb = s.negfb := by
  simpa only [withoutRender_negfb] using congrArg State.negfb (renderCore_withoutRender n s)
@[simp] theorem renderCore_odd90 (n : Nat) (s : State) : (renderCore n s).odd90 = s.odd90 := by
  simpa only [withoutRender_odd90] using congrArg State.odd90 (renderCore_withoutRender n s)
@[simp] theorem renderCore_errCmd (n : Nat) (s : State) : (renderCore n s).errCmd = s.errCmd := by
  simpa only [withoutRender_errCmd] using congrArg State.errCmd (renderCore_withoutRender n s)
@[simp] theorem renderCore_errCfg (n : Nat) (s : State) : (renderCore n s).errCfg = s.errCfg := by
  simpa only [withoutRender_errCfg] using congrArg State.errCfg (renderCore_withoutRender n s)
@[simp] theorem renderCore_errParam (n : Nat) (s : State) : (renderCore n s).errParam = s.errParam := by
  simpa only [withoutRender_errParam] using congrArg State.errParam (renderCore_withoutRender n s)
@[simp] theorem renderCore_errRender (n : Nat) (s : State) : (renderCore n s).errRender = s.errRender := by
  simpa only [withoutRender_errRender] using congrArg State.errRender (renderCore_withoutRender n s)
@[simp] theorem renderCore_errBus (n : Nat) (s : State) : (renderCore n s).errBus = s.errBus := by
  simpa only [withoutRender_errBus] using congrArg State.errBus (renderCore_withoutRender n s)
@[simp] theorem renderCore_bus (n : Nat) (s : State) : (renderCore n s).bus = s.bus := by
  simpa only [withoutRender_bus] using congrArg State.bus (renderCore_withoutRender n s)
@[simp] theorem renderCore_reads (n : Nat) (s : State) : (renderCore n s).reads = s.reads := by
  simpa only [withoutRender_reads] using congrArg State.reads (renderCore_withoutRender n s)

/-! A change of the phase or of the increment leaves what the buffers, the rings and the cursors show. -/

@[simp] theorem inWord_lfoIncrement (s : State) (c i : Nat) : inWord (lfoIncrement s) c i = inWord s c i := by
  simp only [inWord, lfoIncrement_mem, lfoIncrement_hw]
@[simp] theorem outWord_lfoIncrement (s : State) (c i : Nat) : outWord (lfoIncrement s) c i = outWord s c i := by
  simp only [outWord, lfoIncrement_mem, lfoIncrement_hw]
@[simp] theorem dlWord_lfoIncrement (s : State) (c i : Nat) : dlWord (lfoIncrement s) c i = dlWord s c i := by
  simp only [dlWord, lfoIncrement_mem, lfoIncrement_hw]
@[simp] theorem cursor_lfoIncrement (s : State) (c : Nat) : cursor (lfoIncrement s) c = cursor s c := by
  simp only [cursor, lfoIncrement_cursors]
@[simp] theorem inWord_lfoSetRate (rate : F32) (s : State) (c i : Nat) : inWord (lfoSetRate rate s) c i = inWord s c i := by
  simp only [inWord, lfoSetRate_mem, lfoSetRate_hw]
@[simp] theorem outWord_lfoSetRate (rate : F32) (s : State) (c i : Nat) : outWord (lfoSetRate rate s) c i = outWord s c i := by
  simp only [outWord, lfoSetRate_mem, lfoSetRate_hw]
@[simp] theorem dlWord_lfoSetRate (rate : F32) (s : State) (c i : Nat) : dlWord (lfoSetRate rate s) c i = dlWord s c i := by
  simp only [dlWord, lfoSetRate_mem, lfoSetRate_hw]
@[simp] theorem cursor_lfoSetRate (rate : F32) (s : State) (c : Nat) : cursor (lfoSetRate rate s) c = cursor s c := by
  simp only [cursor, lfoSetRate_cursors]
@[simp] theorem inWord_readControls (n : Nat) (s : State) (c i : Nat) : inWord (readControls n s).2 c i = inWord s c i := by
  simp only [inWord, readControls_mem, readControls_hw]
@[simp] theorem outWord_readControls (n : Nat) (s : State) (c i : Nat) : outWord (readControls n s).2 c i = outWord s c i := by
  simp only [outWord, readControls_mem, readControls_hw]
@[simp] theorem dlWord_readControls (n : Nat) (s : State) (c i : Nat) : dlWord (readControls n s).2 c i = dlWord s c i := by
  simp only [dlWord, readControls_mem, readControls_hw]
@[simp] theorem cursor_readControls (n : Nat) (s : State) (c : Nat) : cursor (readControls n s).2 c = cursor s c := by
  simp only [cursor, readControls_cursors]

/-- The delayed sample does not depend on the phase, the increment or the parameters. -/
@[simp] theorem dlRead_lfoSetRate (rate : F32) (s : State) (c : Nat) (t : F32) :
    dlRead c t (lfoSetRate rate s) = dlRead c t s := by
  simp only [dlRead, dlWord_lfoSetRate, cursor_lfoSetRate, lfoSetRate_cap]

@[simp] theorem dlRead_readControls (n : Nat) (s : State) (c : Nat) (t : F32) :
    dlRead c t (readControls n s).2 = dlRead c t s := by
  simp only [dlRead, dlWord_readControls, cursor_readControls, readControls_cap]

end Sys2Proof.Machine
end

