-- ==== Sys2Proof/Laws/Storage.lean ====
section
/-! SUPPORT. What a channel step and a frame store, word by word. -/

namespace Sys2Proof.Machine

/-- The rings and the buffers fit the memory map, and the memory is canonical: what the stores of a render rest on. -/
structure StorageOk (s : State) : Prop where
  hw_legal : s.hw.Legal
  mem_wf : s.mem.wf
  ch_le : s.ch ≤ s.hw.maxChannels
  cap_le : s.cap ≤ s.hw.maxCapacity
  cursors_length : s.cursors.length = s.hw.maxChannels
  cursor_lt : ∀ c, cursor s c < s.cap

theorem State.Inv.storageOk {s : State} (h : s.Inv) (hc : s.configured = true) : StorageOk s :=
  let k := h.config hc
  ⟨h.hw_legal, h.mem_wf, k.ch_le, k.cap_le, h.cursors_length, k.cursor_lt⟩

/-! ## Addresses -/

section Addresses

variable {hw : Params} {c i c' i' : Nat}

theorem inAddr_range (h : hw.Legal) (hc : c < hw.maxChannels) (hi : i < hw.maxFrames) :
    inBase ≤ inAddr hw c i ∧ inAddr hw c i + 4 ≤ inBase + 4 * (hw.maxChannels * hw.maxFrames) ∧
      inBase + 4 * (hw.maxChannels * hw.maxFrames) ≤ outBase := by
  have hlt : c * hw.maxFrames + i < hw.maxChannels * hw.maxFrames := by nlinarith
  have hm := h.2.2.2.2.2.2.1
  rw [inAddr, inBase, outBase]; omega

theorem outAddr_range (h : hw.Legal) (hc : c < hw.maxChannels) (hi : i < hw.maxFrames) :
    outBase ≤ outAddr hw c i ∧ outAddr hw c i + 4 ≤ outBase + 4 * (hw.maxChannels * hw.maxFrames) ∧
      outBase + 4 * (hw.maxChannels * hw.maxFrames) ≤ dlBase := by
  have hlt : c * hw.maxFrames + i < hw.maxChannels * hw.maxFrames := by nlinarith
  have hm := h.2.2.2.2.2.2.1
  rw [outAddr, outBase, dlBase]; omega

theorem dlAddr_range (hc : c < hw.maxChannels) (hi : i < hw.maxCapacity) :
    dlBase ≤ dlAddr hw c i ∧ dlAddr hw c i + 4 ≤ dlBase + 4 * (hw.maxChannels * hw.maxCapacity) := by
  have hlt : c * hw.maxCapacity + i < hw.maxChannels * hw.maxCapacity := by nlinarith
  rw [dlAddr, dlBase]; omega

theorem inAddr_disjoint (hi : i < hw.maxFrames) (hi' : i' < hw.maxFrames) (h : ¬ (c = c' ∧ i = i')) :
    inAddr hw c i + 4 ≤ inAddr hw c' i' ∨ inAddr hw c' i' + 4 ≤ inAddr hw c i := by
  have := rows_disjoint hi hi' h
  rw [inAddr, inAddr]; omega

theorem outAddr_disjoint (hi : i < hw.maxFrames) (hi' : i' < hw.maxFrames) (h : ¬ (c = c' ∧ i = i')) :
    outAddr hw c i + 4 ≤ outAddr hw c' i' ∨ outAddr hw c' i' + 4 ≤ outAddr hw c i := by
  have := rows_disjoint hi hi' h
  rw [outAddr, outAddr]; omega

theorem dlAddr_disjoint (hi : i < hw.maxCapacity) (hi' : i' < hw.maxCapacity) (h : ¬ (c = c' ∧ i = i')) :
    dlAddr hw c i + 4 ≤ dlAddr hw c' i' ∨ dlAddr hw c' i' + 4 ≤ dlAddr hw c i := by
  have := rows_disjoint hi hi' h
  rw [dlAddr, dlAddr]; omega

end Addresses

/-! ## One store -/

section Stores

variable {s : State} {c i c' i' : Nat} {v : Word}

theorem inWord_setOut (h : s.hw.Legal) (hw : s.mem.wf) (hc : c < s.hw.maxChannels) (hi : i < s.hw.maxFrames)
    (hc' : c' < s.hw.maxChannels) (hi' : i' < s.hw.maxFrames) : inWord (setOut c i v s) c' i' = inWord s c' i' := by
  have h1 := outAddr_range h hc hi
  have h2 := inAddr_range h hc' hi'
  exact readWord_writeWord_disjoint _ _ _ _ hw (by dsimp only [setOut]; omega)

theorem outWord_setOut (hw : s.mem.wf) (hi : i < s.hw.maxFrames) (hi' : i' < s.hw.maxFrames) :
    outWord (setOut c i v s) c' i' = if c' = c ∧ i' = i then v else outWord s c' i' := by
  split
  · rename_i h; rw [h.1, h.2]; exact readWord_writeWord_same _ _ _ hw
  · rename_i h
    have := outAddr_disjoint (c := c) (c' := c') hi hi' (fun e => h ⟨e.1.symm, e.2.symm⟩)
    exact readWord_writeWord_disjoint _ _ _ _ hw this

theorem dlWord_setOut (h : s.hw.Legal) (hw : s.mem.wf) (hc : c < s.hw.maxChannels) (hi : i < s.hw.maxFrames)
    (hc' : c' < s.hw.maxChannels) (hi' : i' < s.hw.maxCapacity) : dlWord (setOut c i v s) c' i' = dlWord s c' i' := by
  have h1 := outAddr_range h hc hi
  have h2 := dlAddr_range (hw := s.hw) hc' hi'
  exact readWord_writeWord_disjoint _ _ _ _ hw (by dsimp only [setOut]; omega)

theorem inWord_setDl (h : s.hw.Legal) (hw : s.mem.wf) (hc : c < s.hw.maxChannels) (hi : i < s.hw.maxCapacity)
    (hc' : c' < s.hw.maxChannels) (hi' : i' < s.hw.maxFrames) : inWord (setDl c i v s) c' i' = inWord s c' i' := by
  have h1 := dlAddr_range (hw := s.hw) hc hi
  have h2 := inAddr_range h hc' hi'
  have h3 : outBase ≤ dlBase := by decide
  exact readWord_writeWord_disjoint _ _ _ _ hw (by dsimp only [setDl]; omega)

theorem outWord_setDl (h : s.hw.Legal) (hw : s.mem.wf) (hc : c < s.hw.maxChannels) (hi : i < s.hw.maxCapacity)
    (hc' : c' < s.hw.maxChannels) (hi' : i' < s.hw.maxFrames) : outWord (setDl c i v s) c' i' = outWord s c' i' := by
  have h1 := dlAddr_range (hw := s.hw) hc hi
  have h2 := outAddr_range h hc' hi'
  exact readWord_writeWord_disjoint _ _ _ _ hw (by dsimp only [setDl]; omega)

theorem dlWord_setDl (hw : s.mem.wf) (hi : i < s.hw.maxCapacity) (hi' : i' < s.hw.maxCapacity) :
    dlWord (setDl c i v s) c' i' = if c' = c ∧ i' = i then v else dlWord s c' i' := by
  split
  · rename_i h; rw [h.1, h.2]; exact readWord_writeWord_same _ _ _ hw
  · rename_i h
    have := dlAddr_disjoint (c := c) (c' := c') hi hi' (fun e => h ⟨e.1.symm, e.2.symm⟩)
    exact readWord_writeWord_disjoint _ _ _ _ hw this

theorem inWord_setIn (hw : s.mem.wf) (hi : i < s.hw.maxFrames) (hi' : i' < s.hw.maxFrames) :
    inWord (setIn c i v s) c' i' = if c' = c ∧ i' = i then v else inWord s c' i' := by
  split
  · rename_i h; rw [h.1, h.2]; exact readWord_writeWord_same _ _ _ hw
  · rename_i h
    have := inAddr_disjoint (c := c) (c' := c') hi hi' (fun e => h ⟨e.1.symm, e.2.symm⟩)
    exact readWord_writeWord_disjoint _ _ _ _ hw this

theorem outWord_setIn (h : s.hw.Legal) (hw : s.mem.wf) (hc : c < s.hw.maxChannels) (hi : i < s.hw.maxFrames)
    (hc' : c' < s.hw.maxChannels) (hi' : i' < s.hw.maxFrames) : outWord (setIn c i v s) c' i' = outWord s c' i' := by
  have h1 := inAddr_range h hc hi
  have h2 := outAddr_range h hc' hi'
  exact readWord_writeWord_disjoint _ _ _ _ hw (by dsimp only [setIn]; omega)

theorem dlWord_setIn (h : s.hw.Legal) (hw : s.mem.wf) (hc : c < s.hw.maxChannels) (hi : i < s.hw.maxFrames)
    (hc' : c' < s.hw.maxChannels) (hi' : i' < s.hw.maxCapacity) : dlWord (setIn c i v s) c' i' = dlWord s c' i' := by
  have h1 := inAddr_range h hc hi
  have h2 := dlAddr_range (hw := s.hw) hc' hi'
  have h3 : outBase ≤ dlBase := by decide
  exact readWord_writeWord_disjoint _ _ _ _ hw (by dsimp only [setIn]; omega)

end Stores

/-- `W[c] <- n` for a cursor that exists. -/
theorem cursor_setCursor (c n c' : Nat) (s : State) (h : c < s.cursors.length) :
    cursor (setCursor c n s) c' = if c' = c then n else cursor s c' := by
  unfold cursor setCursor
  simp only [List.getD_eq_getElem?_getD, List.getElem?_set]
  by_cases e : c = c'
  · rw [if_pos e, if_pos (e ▸ h), if_pos e.symm]; rfl
  · rw [if_neg e, if_neg (fun h' => e h'.symm)]

/-! ## One channel step -/

/-- The slots DL_READ looks at are slots of the ring. -/
theorem slotBehind_lt {cap : Nat} (w n : Nat) (h : 0 < cap) : slotBehind cap w n < cap := by
  unfold slotBehind
  have h1 := Int.emod_nonneg ((w : Int) - n) (b := (cap : Int)) (by omega)
  have h2 := Int.emod_lt_of_pos ((w : Int) - n) (b := (cap : Int)) (by omega)
  omega

/-- DL_READ reads the ring of its channel, its cursor and N, and nothing else. -/
theorem dlRead_congr {s t : State} {c : Nat} (tap : F32) (hpos : 0 < s.cap) (hcap : t.cap = s.cap)
    (hcur : cursor t c = cursor s c) (h : ∀ j, j < s.cap → dlWord t c j = dlWord s c j) :
    dlRead c tap t = dlRead c tap s := by
  unfold dlRead
  dsimp only
  rw [hcap, hcur, h _ (slotBehind_lt _ _ hpos), h _ (slotBehind_lt _ _ hpos)]

/-- The two stores of a channel step: v to the ring under the cursor, o to OUT. All that they change, word by word. -/
theorem stores_effect {s : State} {c i : Nat} (o v : Word) (h : StorageOk s) (hc : c < s.ch) (hi : i < s.hw.maxFrames) :
    StorageOk (setOut c i o (dlWrite c v s)) ∧
    (∀ c' i', c' < s.hw.maxChannels → i' < s.hw.maxFrames →
      inWord (setOut c i o (dlWrite c v s)) c' i' = inWord s c' i') ∧
    (∀ c' i', c' < s.hw.maxChannels → i' < s.hw.maxFrames →
      outWord (setOut c i o (dlWrite c v s)) c' i' = if c' = c ∧ i' = i then o else outWord s c' i') ∧
    (∀ c' j, c' < s.hw.maxChannels → j < s.hw.maxCapacity →
      dlWord (setOut c i o (dlWrite c v s)) c' j = if c' = c ∧ j = cursor s c then v else dlWord s c' j) ∧
    (∀ c', cursor (setOut c i o (dlWrite c v s)) c' = if c' = c then (cursor s c + 1) % s.cap else cursor s c') ∧
    (∀ a, ¬ (outAddr s.hw c i ≤ a ∧ a < outAddr s.hw c i + 4) →
      ¬ (dlAddr s.hw c (cursor s c) ≤ a ∧ a < dlAddr s.hw c (cursor s c) + 4) →
      readByte (setOut c i o (dlWrite c v s)).mem a = readByte s.mem a) := by
  obtain ⟨hl, hw, hch, hcap, hlen, hcur⟩ := h
  have hcm : c < s.hw.maxChannels := by omega
  have hj : cursor s c < s.hw.maxCapacity := by have := hcur c; omega
  have hpos : 0 < s.cap := by have := hcur c; omega
  have hw1 : (setDl c (cursor s c) v s).mem.wf := wf_writeWord _ _ _ hw
  have hcurs : ∀ c', cursor (setOut c i o (dlWrite c v s)) c' =
      if c' = c then (cursor s c + 1) % s.cap else cursor s c' := fun c' =>
    cursor_setCursor c ((cursor s c + 1) % s.cap) c' (setDl c (cursor s c) v s) (by
      show c < s.cursors.length
      rw [hlen]; exact hcm)
  refine ⟨⟨hl, wf_writeWord _ _ _ hw1, hch, hcap, ?_, ?_⟩, ?_, ?_, ?_, hcurs, ?_⟩
  · show (s.cursors.set c _).length = s.hw.maxChannels
    rw [List.length_set, hlen]
  · intro c'
    rw [hcurs]
    split
    · exact Nat.mod_lt _ hpos
    · exact hcur c'
  · intro c' i' hc' hi'
    exact (inWord_setOut (s := setDl c (cursor s c) v s) hl hw1 hcm hi hc' hi').trans (inWord_setDl hl hw hcm hj hc' hi')
  · intro c' i' hc' hi'
    refine (outWord_setOut (s := setDl c (cursor s c) v s) hw1 hi hi').trans ?_
    rw [outWord_setDl hl hw hcm hj hc' hi']
  · intro c' j hc' hj'
    exact (dlWord_setOut (s := setDl c (cursor s c) v s) hl hw1 hcm hi hc' hj').trans (dlWord_setDl hw hj hj')
  · intro a h1 h2
    show readByte (writeWord (writeWord s.mem (dlAddr s.hw c (cursor s c)) v) (outAddr s.hw c i) o) a = _
    rw [readByte_writeWord _ _ a _ (wf_writeWord _ _ _ hw), if_neg h1, readByte_writeWord _ _ a _ hw, if_neg h2]

/-- CHANNEL_STEP is its two stores. -/
theorem channelStep_stores (c i : Nat) (tap sfb dry wet : F32) (s : State) :
    channelStep c i tap sfb dry wet s =
      setOut c i (mixOut (inWord s c i) (dlRead c tap s) dry wet)
        (dlWrite c (mixWrite (inWord s c i) (dlRead c tap s) sfb) s) := rfl

/-! ## One frame -/

theorem StorageOk.of_fields {s t : State} (h : StorageOk s) (hhw : t.hw = s.hw) (hmem : t.mem = s.mem) (hch : t.ch = s.ch)
    (hcap : t.cap = s.cap) (hcur : t.cursors = s.cursors) : StorageOk t where
  hw_legal := hhw ▸ h.hw_legal
  mem_wf := hmem ▸ h.mem_wf
  ch_le := by rw [hhw, hch]; exact h.ch_le
  cap_le := by rw [hhw, hcap]; exact h.cap_le
  cursors_length := by rw [hhw, hcur]; exact h.cursors_length
  cursor_lt c := by unfold cursor; rw [hcur, hcap]; exact h.cursor_lt c

/-- What a frame stores for channel c: the mix of the input with the delayed sample read at the channel's tap. -/
theorem frameStep_effect {s : State} {i : Nat} (ctr var fb dry wet : F32) (odd : Bool) (h : StorageOk s)
    (hi : i < s.hw.maxFrames) :
    let t := frameStep ctr var fb dry wet odd i s
    let d := fun c => dlRead c
      (tapOfChannel (tapPair s.spm ctr var (lfoValue s.phase) (lfoQuad s.phase) odd) c) s
    StorageOk t ∧
    (∀ c i', c < s.hw.maxChannels → i' < s.hw.maxFrames → inWord t c i' = inWord s c i') ∧
    (∀ c i', c < s.hw.maxChannels → i' < s.hw.maxFrames →
      outWord t c i' = if c < s.ch ∧ i' = i then mixOut (inWord s c i) (d c) dry wet else outWord s c i') ∧
    (∀ c j, c < s.hw.maxChannels → j < s.hw.maxCapacity →
      dlWord t c j =
        if c < s.ch ∧ j = cursor s c then mixWrite (inWord s c i) (d c) (signedFeedback s.negfb fb) else dlWord s c j) ∧
    (∀ c, cursor t c = if c < s.ch then (cursor s c + 1) % s.cap else cursor s c) ∧
    (∀ a, (∀ c, c < s.ch → ¬ (outAddr s.hw c i ≤ a ∧ a < outAddr s.hw c i + 4)) →
      (∀ c, c < s.ch → ¬ (dlAddr s.hw c (cursor s c) ≤ a ∧ a < dlAddr s.hw c (cursor s c) + 4)) →
      readByte t.mem a = readByte s.mem a) := by
  intro t d
  let s0 := lfoIncrement s
  have key := forUpTo_induct (n := s.ch) (s := s0)
    (loopBody := fun c => channelStep c i
      (tapOfChannel (tapPair s.spm ctr var (lfoValue s.phase) (lfoQuad s.phase) odd) c) (signedFeedback s.negfb fb) dry wet)
    (P := fun m t => StorageOk t ∧ t.hw = s.hw ∧ t.ch = s.ch ∧ t.cap = s.cap ∧
      (∀ c i', c < s.hw.maxChannels → i' < s.hw.maxFrames → inWord t c i' = inWord s c i') ∧
      (∀ c i', c < s.hw.maxChannels → i' < s.hw.maxFrames →
        outWord t c i' = if c < m ∧ i' = i then mixOut (inWord s c i) (d c) dry wet else outWord s c i') ∧
      (∀ c j, c < s.hw.maxChannels → j < s.hw.maxCapacity →
        dlWord t c j =
          if c < m ∧ j = cursor s c then mixWrite (inWord s c i) (d c) (signedFeedback s.negfb fb) else dlWord s c j) ∧
      (∀ c, cursor t c = if c < m then (cursor s c + 1) % s.cap else cursor s c) ∧
      (∀ a, (∀ c, c < s.ch → ¬ (outAddr s.hw c i ≤ a ∧ a < outAddr s.hw c i + 4)) →
        (∀ c, c < s.ch → ¬ (dlAddr s.hw c (cursor s c) ≤ a ∧ a < dlAddr s.hw c (cursor s c) + 4)) →
        readByte t.mem a = readByte s.mem a))
    ?_ ?_
  · obtain ⟨h1, -, -, -, h2⟩ := key
    exact ⟨h1, h2⟩
  · exact ⟨h.of_fields (by simp [s0]) (by simp [s0]) (by simp [s0]) (by simp [s0]) (by simp [s0]),
      by simp [s0], by simp [s0], by simp [s0], by simp [s0], by simp [s0], by simp [s0], by simp [s0], by simp [s0]⟩
  · rintro m t hm ⟨ok, ehw, ech, ecap, hin, hout, hdl, hcur, hby⟩
    have hpos : 0 < s.cap := by have := h.cursor_lt 0; omega
    have hmc : m < s.hw.maxChannels := by have := h.ch_le; omega
    have hcap := h.cap_le
    have hd : dlRead m (tapOfChannel (tapPair s.spm ctr var (lfoValue s.phase) (lfoQuad s.phase) odd) m) t = d m := by
      refine dlRead_congr _ hpos ecap ?_ ?_
      · rw [hcur, if_neg (by omega)]
      · intro j hj; rw [hdl m j hmc (by omega), if_neg (by omega)]
    have hx : inWord t m i = inWord s m i := hin m i hmc hi
    have hcm : cursor t m = cursor s m := by rw [hcur, if_neg (by omega)]
    rw [channelStep_stores, hd, hx]
    obtain ⟨e1, e2, e3, e4, e5, e6⟩ := stores_effect (mixOut (inWord s m i) (d m) dry wet)
      (mixWrite (inWord s m i) (d m) (signedFeedback s.negfb fb)) ok (ech ▸ hm) (ehw ▸ hi)
    rw [ehw] at e2 e3 e4 e6
    refine ⟨e1, ehw, ech, ecap, ?_, ?_, ?_, ?_, ?_⟩
    · intro c i' hc hi'; rw [e2 c i' hc hi', hin c i' hc hi']
    · intro c i' hc hi'
      rw [e3 c i' hc hi', hout c i' hc hi']
      by_cases e : c = m ∧ i' = i
      · rw [if_pos e, if_pos (by omega), e.1]
      · rw [if_neg e]
        by_cases e' : c < m ∧ i' = i
        · rw [if_pos e', if_pos (by omega)]
        · rw [if_neg e', if_neg (by omega)]
    · intro c j hc hj
      rw [e4 c j hc hj, hdl c j hc hj, hcm]
      by_cases e : c = m ∧ j = cursor s m
      · obtain ⟨rfl, rfl⟩ := e
        rw [if_pos ⟨rfl, rfl⟩, if_pos ⟨by omega, rfl⟩]
      · rw [if_neg e]
        by_cases e' : c < m ∧ j = cursor s c
        · rw [if_pos e', if_pos ⟨by omega, e'.2⟩]
        · rw [if_neg e', if_neg]
          rintro ⟨h1, h2⟩
          rcases Nat.lt_succ_iff_lt_or_eq.1 h1 with h3 | rfl
          · exact e' ⟨h3, h2⟩
          · exact e ⟨rfl, h2⟩
    · intro c
      rw [e5 c, hcur c, hcm, ecap]
      by_cases e : c = m
      · subst e; rw [if_pos rfl, if_pos (by omega)]
      · rw [if_neg e]
        by_cases e' : c < m
        · rw [if_pos e', if_pos (by omega)]
        · rw [if_neg e', if_neg (by omega)]
    · intro a h1 h2
      rw [e6 a (h1 m hm) (by rw [hcm]; exact h2 m hm), hby a h1 h2]

/-! ## The frames of a render -/

/-- What the frames of a render store: nothing of IN, and of the rest OUT[c][i] and the rings of the channels c < CH; each of
those channels' cursors advances by n. -/
theorem renderFrames_effect {s : State} {n : Nat} (k : Controls) (odd : Bool) (h : StorageOk s) (hn : n ≤ s.hw.maxFrames) :
    StorageOk (renderFrames n k odd s) ∧
    (∀ c i, c < s.hw.maxChannels → i < s.hw.maxFrames → inWord (renderFrames n k odd s) c i = inWord s c i) ∧
    (∀ c, cursor (renderFrames n k odd s) c = if c < s.ch then (cursor s c + n) % s.cap else cursor s c) ∧
    (∀ a, (∀ c i, c < s.ch → i < n → ¬ (outAddr s.hw c i ≤ a ∧ a < outAddr s.hw c i + 4)) →
      (∀ c j, c < s.ch → j < s.cap → ¬ (dlAddr s.hw c j ≤ a ∧ a < dlAddr s.hw c j + 4)) →
      readByte (renderFrames n k odd s).mem a = readByte s.mem a) := by
  have key : let t := renderFrames n k odd s
      StorageOk t ∧ t.hw = s.hw ∧ t.ch = s.ch ∧ t.cap = s.cap ∧
      (∀ c i, c < s.hw.maxChannels → i < s.hw.maxFrames → inWord t c i = inWord s c i) ∧
      (∀ c, cursor t c = if c < s.ch then (cursor s c + n) % s.cap else cursor s c) ∧
      (n ≤ n → ∀ a, (∀ c i, c < s.ch → i < n → ¬ (outAddr s.hw c i ≤ a ∧ a < outAddr s.hw c i + 4)) →
        (∀ c j, c < s.ch → j < s.cap → ¬ (dlAddr s.hw c j ≤ a ∧ a < dlAddr s.hw c j + 4)) →
        readByte t.mem a = readByte s.mem a) := by
    unfold renderFrames
    refine forUpTo_induct (n := n) (s := lfoSetRate k.rate s)
      (P := fun m t => StorageOk t ∧ t.hw = s.hw ∧ t.ch = s.ch ∧ t.cap = s.cap ∧
        (∀ c i, c < s.hw.maxChannels → i < s.hw.maxFrames → inWord t c i = inWord s c i) ∧
        (∀ c, cursor t c = if c < s.ch then (cursor s c + m) % s.cap else cursor s c) ∧
        (m ≤ n → ∀ a, (∀ c i, c < s.ch → i < n → ¬ (outAddr s.hw c i ≤ a ∧ a < outAddr s.hw c i + 4)) →
          (∀ c j, c < s.ch → j < s.cap → ¬ (dlAddr s.hw c j ≤ a ∧ a < dlAddr s.hw c j + 4)) →
          readByte t.mem a = readByte s.mem a)) ?_ ?_
    · refine ⟨h.of_fields (by simp) (by simp) (by simp) (by simp) (by simp), by simp, by simp, by simp, by simp, ?_,
        by simp⟩
      intro c
      rw [cursor_lfoSetRate, Nat.add_zero, Nat.mod_eq_of_lt (h.cursor_lt c), ite_self]
    · rintro m t hm ⟨ok, ehw, ech, ecap, hin, hcur, hby⟩
      obtain ⟨e1, e2, e3, e4, e5, e6⟩ := frameStep_effect (cvDerive s.maxdly k.delay k.depth).1
        (cvDerive s.maxdly k.delay k.depth).2 k.feedback k.dryMix k.wetMix odd ok (i := m) (by rw [ehw]; omega)
      rw [ehw] at e2 e6
      refine ⟨e1, by simp [ehw], by simp [ech], by simp [ecap],
        fun c i hc hi => (e2 c i hc hi).trans (hin c i hc hi), ?_, ?_⟩
      · intro c
        rw [e5, hcur, ech, ecap]
        split
        · rw [Nat.mod_add_mod, Nat.add_assoc]
        · rfl
      · intro hmn a h1 h2
        rw [ech] at e6
        rw [e6 a (fun c hc => h1 c m hc hm)
          (fun c hc => h2 c _ hc (by have := ok.cursor_lt c; omega))]
        exact hby (by omega) a h1 h2
  exact ⟨key.1, key.2.2.2.2.1, key.2.2.2.2.2.1, key.2.2.2.2.2.2 le_rfl⟩

end Sys2Proof.Machine
end

