-- ==== Sys2Proof/Laws/Invariant.lean ====
section
/-! SUPPORT. What the invariant depends on, what a render and a CONFIGURE leave, and the fraction of a tap. -/

namespace Sys2Proof.Machine

/-- The invariant is about the configuration, the storage, the phase and the smoothers. -/
theorem State.Inv.congr {s t : State} (h : s.Inv) (h1 : t.hw = s.hw) (h2 : t.configured = s.configured) (h3 : t.ch = s.ch)
    (h4 : t.cap = s.cap) (h5 : t.sr = s.sr) (h6 : t.maxdly = s.maxdly) (h7 : t.spm = s.spm) (h8 : t.mem = s.mem)
    (h9 : t.cursors = s.cursors) (h10 : t.phase = s.phase) (h11 : t.smoothers = s.smoothers) : t.Inv := by
  cases s; cases t
  simp only at *
  subst_vars
  exact ⟨h.hw_legal, h.mem_wf, h.mem_mapped, h.cursors_length, h.unconfigured, fun e => let k := h.config e; ⟨k.ch_pos,
      k.ch_le, k.cap_pos, k.cap_le, k.sr_ok, k.maxdly_ok, k.spm_eq, k.prod_finite, k.cap_eq, k.cursor_lt⟩,
      h.cursors_equal, h.cursors_idle, h.dl_idle, h.phase_unit, h.smoothers_ok⟩

/-- A listed byte is what its address reads. -/
theorem readByte_of_mem {m : Memory} (h : m.wf) {cell : Host.Cell} (hc : cell ∈ m) : readByte m cell.1 = cell.2 := by
  induction m with
  | nil => cases hc
  | cons d m ih =>
    obtain ⟨k, b⟩ := d
    have hw : Memory.wf m := ⟨(List.pairwise_cons.1 h.1).2, fun c hc => h.2 c (List.mem_cons_of_mem _ hc)⟩
    unfold readByte
    rcases List.mem_cons.1 hc with rfl | hc
    · simp
    · have := (List.pairwise_cons.1 h.1).1 cell hc
      rw [if_neg (by dsimp only at this ⊢; omega)]
      exact ih hw hc

/-- An address that reads another byte than the background is listed. -/
theorem mem_of_readByte {m : Memory} {a : Nat} (hc : readByte m a ≠ background) : ∃ cell ∈ m, cell.1 = a := by
  induction m with
  | nil => simp at hc
  | cons d m ih =>
    obtain ⟨k, b⟩ := d
    unfold readByte at hc
    split at hc
    · rename_i h; exact ⟨(k, b), by simp, h⟩
    · obtain ⟨c, h1, h2⟩ := ih hc; exact ⟨c, by simp [h1], h2⟩

/-- A canonical memory lists mapped addresses only, exactly when every other address reads the background. -/
theorem mapped_iff_readByte {m : Memory} {hw} (h : m.wf) : (∀ cell ∈ m, mappedByte hw cell.1) ↔ ∀ a, ¬ mappedByte hw a →
    readByte m a = background := by
  constructor
  · intro h1 a ha
    by_contra hne
    obtain ⟨c, h2, rfl⟩ := mem_of_readByte hne
    exact ha (h1 c h2)
  · intro h1 c hc
    by_contra hne
    have := h1 _ hne
    rw [readByte_of_mem h hc] at this
    exact h.2 c hc this

/-- Equal memories show equal words. -/
theorem words_congr {s t : State} (h1 : t.hw = s.hw) (h2 : t.mem = s.mem) : (∀ c i, inWord t c i = inWord s c i) ∧ (∀ c i,
    outWord t c i = outWord s c i) ∧ (∀ c i, dlWord t c i = dlWord s c i) := by
  unfold inWord outWord dlWord; simp [h1, h2]

/-- An accepted CONFIGURE zeroes the rings and leaves IN and OUT. -/
theorem applyConfig_words {s : State} (hl : s.hw.Legal) {c a b d n} : (∀ c' i, c' < s.hw.maxChannels →
    i < s.hw.maxFrames → inWord (applyConfig c a b d n s) c' i = inWord s c' i) ∧ (∀ c' i, c' < s.hw.maxChannels →
    i < s.hw.maxFrames → outWord (applyConfig c a b d n s) c' i = outWord s c' i) ∧ (∀ c' j, c' < s.hw.maxChannels →
    j < s.hw.maxCapacity → dlWord (applyConfig c a b d n s) c' j = zero32) := by
  refine ⟨?_, ?_, ?_⟩
  · intro c' i h1 h2
    have := inAddr_range hl h1 h2
    have h3 : outBase ≤ dlBase := by decide
    exact readWord_clearRange_outside _ _ _ _ (.inl (by show inAddr s.hw c' i + 4 ≤ dlBase; omega))
  · intro c' i h1 h2
    have := outAddr_range hl h1 h2
    exact readWord_clearRange_outside _ _ _ _ (.inl (by show outAddr s.hw c' i + 4 ≤ dlBase; omega))
  · intro c' i h1 h2
    have := dlAddr_range (hw := s.hw) h1 h2
    exact readWord_clearRange_inside _ _ _ _ this.1 this.2

/-- What a render stores, as `renderFrames_effect`. -/
theorem renderCore_effect {s : State} {n} (h : StorageOk s) (hn : n ≤ s.hw.maxFrames) :
   StorageOk (renderCore n s) ∧
    (∀ c i, c < s.hw.maxChannels → i < s.hw.maxFrames → inWord (renderCore n s) c i = inWord s c i) ∧
    (∀ c, cursor (renderCore n s) c = if c < s.ch then (cursor s c + n) % s.cap else cursor s c) ∧
    (∀ a, (∀ c i, c < s.ch → i < n → ¬ (outAddr s.hw c i ≤ a ∧ a < outAddr s.hw c i + 4)) →
      (∀ c j, c < s.ch → j < s.cap → ¬ (dlAddr s.hw c j ≤ a ∧ a < dlAddr s.hw c j + 4)) →
      readByte (renderCore n s).mem a = readByte s.mem a) := by
  have ok : StorageOk (readControls n s).2 := h.of_fields (by simp) (by simp) (by simp) (by simp) (by simp)
  have := renderFrames_effect (n := n) (readControls n s).1 s.odd90 ok (by simpa using hn)
  unfold renderCore
  simpa only [readControls_hw, readControls_ch, readControls_cap, inWord_readControls, cursor_readControls,
      readControls_mem] using this

/-- Frame i of a render of n frames from state s, on the state it meets. -/
abbrev coreFrame (n : Nat) (s : State) (i : Nat) (t : State) : State :=
  frameStep (center s.maxdly (readControls n s).1.delay (readControls n s).1.depth)
    (variance s.maxdly (readControls n s).1.delay (readControls n s).1.depth)
    (readControls n s).1.feedback (readControls n s).1.dryMix (readControls n s).1.wetMix s.odd90 i t

/-- A render is its frames, from the state with the parameters read and the increment set. -/
theorem renderCore_frames (n : Nat) (s : State) :
    renderCore n s = forUpTo n (coreFrame n s) (lfoSetRate (readControls n s).1.rate (readControls n s).2) := by
  unfold renderCore renderFrames
  dsimp only
  rw [readControls_maxdly]
  rfl

/-- Induction over the frames of a render. -/
theorem renderCore_induct {s : State} {n : Nat} (h : StorageOk s) (hn : n ≤ s.hw.maxFrames) (Q : Nat → State → Prop)
    (h0 : Q 0 (lfoSetRate (readControls n s).1.rate (readControls n s).2))
    (hs : ∀ m t, m < n → StorageOk t → t.hw = s.hw → t.ch = s.ch → t.cap = s.cap → t.maxdly = s.maxdly →
      t.spm = s.spm → t.negfb = s.negfb → Q m t → Q (m + 1) (coreFrame n s m t)) :
    Q n (renderCore n s) := by
  let F : State → Prop := fun t =>
    StorageOk t ∧ t.hw = s.hw ∧ t.ch = s.ch ∧ t.cap = s.cap ∧ t.maxdly = s.maxdly ∧ t.spm = s.spm ∧ t.negfb = s.negfb
  have : F (renderCore n s) ∧ Q n (renderCore n s) := by
    rw [renderCore_frames]
    refine forUpTo_induct (P := fun m t => F t ∧ Q m t) ?_ ?_
    · exact ⟨⟨h.of_fields (by simp) (by simp) (by simp) (by simp) (by simp),
        by simp, by simp, by simp, by simp, by simp, by simp⟩, h0⟩
    · rintro m t hm ⟨⟨ok, e1, e2, e3, e4, e5, e6⟩, hq⟩
      have ok' : StorageOk (coreFrame n s m t) := (frameStep_effect _ _ _ _ _ _ ok (by rw [e1]; omega)).1
      exact ⟨⟨ok', by simp [e1], by simp [e2], by simp [e3], by simp [e4], by simp [e5], by simp [e6]⟩,
        hs m t hm ok e1 e2 e3 e4 e5 e6 hq⟩
  exact this.2

/-- The phase after a render. -/
theorem renderCore_phase (n) (s : State) : (renderCore n s).phase =
    (fun p => nextPhase p (lfoRateInc (readControls n s).1.rate s.sr))^[n] s.phase := by
  unfold renderCore; rw [renderFrames_phase]; simp only [readControls_sr, readControls_phase]

/-- The rate a render reads. -/
theorem readControls_rate (n) (s : State) : (readControls n s).1.rate =
    if n = 1 then (smootherFrame .rate (smoother s .rate)).cur else (smoother s .rate).tgt := by
  rw [readControls_values]; dsimp only; rw [smoother_readControls]; split <;> rfl

/-- The slot n behind the cursor, in naturals. -/
theorem slotBehind_eq {cap w d : Nat} (_ : w < cap) (hd : d ≤ cap) : slotBehind cap w d = (w + cap - d) % cap := by
  unfold slotBehind
  have : ((w : Int) - (d : Int)) % (cap : Int) = (((w + cap - d : Nat) : Int)) % (cap : Int) := by
    rw [Int.ofNat_sub (by omega)]; push_cast
    rw [show (w : Int) + cap - d = (w - d) + cap by ring, Int.add_emod_right]
  rw [this]; norm_cast

/-- The clamped tap is finite, not below +0 and at most N-1. -/
theorem clampTap_range {cap : Nat} (hc : cap ≤ 2^24) (t : F32) : isFinite32 (clampTap cap t) = true ∧
    (clampTap cap t).msb = false ∧ mag32 (clampTap cap t) ≤ mag32 (toF32 (cap - 1)) := by
  unfold clampTap
  obtain ⟨h1, h2, h3⟩ := toF32_exact (n := cap - 1) (by omega)
  split
  · exact ⟨zero32_finite, zero32_msb, by rw [mag_zero32]; omega⟩
  · rename_i hn
    simp only [Bool.or_eq_true, not_or, Bool.not_eq_true] at hn
    obtain ⟨m1, m2⟩ := pos_of_not_le_zero hn.2 hn.1
    split
    · exact ⟨h3, h2, le_rfl⟩
    · rename_i h
      rw [le32_nonneg h2 m1 (toF32_not_nan _) hn.1] at h
      have := (finite32_iff _).1 h3
      exact ⟨by rw [finite32_iff]; omega, m1, by omega⟩

/-- The fraction of a value below 2^24 lies in [0, 1]. -/
theorem fraction_unit {x : F32} (hf : isFinite32 x = true) (hm : x.msb = false)
    (hb : magUnits binary32 (mag32 x) ≤ 2^24 * 2^149) :
   isFinite32 (sub32 x (toF32 (floorNat x))) = true ∧ (sub32 x (toF32 (floorNat x))).msb = false ∧
       mag32 (sub32 x (toF32 (floorNat x))) ≤ mag32 one32 := by
  have hfl : floorNat x = magUnits binary32 (mag32 x) / 2^149 := by
    unfold floorNat; rw [datum32_finite hf]; simp only [hm, Bool.false_eq_true, false_and, ↓reduceIte]; rfl
  have hp := Nat.two_pow_pos 149
  have hn : floorNat x ≤ 2^24 := by rw [hfl]; exact Nat.div_le_of_le_mul (by rw [Nat.mul_comm]; exact hb)
  obtain ⟨t1, t2, t3⟩ := toF32_exact hn
  rw [hfl] at t1
  have ou := units_one32
  have hd := Nat.div_add_mod (magUnits binary32 (mag32 x)) (2^149)
  have hlt := Nat.mod_lt (magUnits binary32 (mag32 x)) hp
  rw [Nat.mul_comm] at hd
  rw [← hfl] at t1 hd
  generalize 2^149 = A at *
  have hord : order32 x - order32 (toF32 (floorNat x)) = ((magUnits binary32 (mag32 x) % A : Nat) : Int) := by
    rw [order32_nonneg hm, order32_nonneg t2, t1]
    omega
  obtain ⟨a, b⟩ := sub32_le hf t3 (g := mag32 one32) (by rw [mag_one32, infMag32]; omega) (by rw [hord, ou]; omega)
  refine ⟨a, ?_, b⟩
  rw [sub32_finite hf t3]; split
  · rw [msb_pack32 _ _ (by omega), hm, Bool.false_and]
  · rw [msb_round32]; simp only [roundExact, decide_eq_false_iff_not, not_lt]; rw [hord]; omega

/-- The fraction of a clamped tap lies in [0, 1]. -/
theorem tapFraction_unit {cap : Nat} (hc : cap ≤ 2^24) (t : F32) :
   let tc := clampTap cap t
   isFinite32 (sub32 tc (toF32 (floorNat tc))) = true ∧ (sub32 tc (toF32 (floorNat tc))).msb = false ∧
       mag32 (sub32 tc (toF32 (floorNat tc))) ≤ mag32 one32 := by
  obtain ⟨a, b, c⟩ := clampTap_range hc t
  refine fraction_unit a b ?_
  have := (magUnits_le_iff binary32).2 c
  rw [(toF32_exact (by omega)).1] at this
  exact this.trans (Nat.mul_le_mul_right _ (by omega))

/-- The complement of a fraction lies in [-1, 1]. -/
theorem one_sub_unit {f : F32} (h1 : isFinite32 f = true) (h2 : f.msb = false) (h3 : mag32 f ≤ mag32 one32) :
    isFinite32 (sub32 one32 f) = true ∧ mag32 (sub32 one32 f) ≤ mag32 one32 := by
  obtain ⟨a, b, c⟩ := sub32_nonneg one32_finite h1 one32_msb h2 h3
  exact ⟨a, c⟩

end Sys2Proof.Machine
end

