-- ==== Sys2Proof/Laws/PerInstr.lean ====
section
/-! SUPPORT. What holds of every command as syntax, one lemma per constructor. -/

namespace Sys2Proof.Laws.EncodedOpcode

/-- The encoded word of a well-formed command carries the command's opcode, and zeros in the ignored bits
(30_encoding.md R101, R110, R113). -/
def Statement (i : Instr) : Prop :=
  i.WellFormed → opcodeOf (encode i) = opcode i ∧ encode i &&& ~~~ meaningfulBits i = 0#32

theorem nop : Statement .nop := by unfold Statement; decide

theorem configure (chn : Nat) : Statement (.configure chn) := by
  intro h
  simp only [Instr.WellFormed, Instr.check, decide_eq_true_eq] at h
  have key : ∀ c : Fin (2 ^ 8), opcodeOf (encode (.configure c)) = 1 ∧
      encode (.configure c) &&& ~~~ meaningfulBits (.configure c) = 0#32 := by decide +kernel
  exact key ⟨chn, h⟩

theorem setp (pid ramp : Nat) : Statement (.setp pid ramp) := by
  intro h
  simp only [Instr.WellFormed, Instr.check, Bool.and_eq_true, decide_eq_true_eq] at h
  refine ⟨?_, by simp [meaningfulBits]⟩
  simp only [opcodeOf, field, encode, opcode, body, BitVec.toNat_ofNat]
  omega

theorem render (nfr bus : Nat) : Statement (.render nfr bus) := by
  intro h
  simp only [Instr.WellFormed, Instr.check, Bool.and_eq_true, decide_eq_true_eq] at h
  refine ⟨?_, by simp [meaningfulBits]⟩
  simp only [opcodeOf, field, encode, opcode, body, BitVec.toNat_ofNat]
  omega

theorem clrerr : Statement .clrerr := by unfold Statement; decide

theorem reset : Statement .reset := by unfold Statement; decide

end Sys2Proof.Laws.EncodedOpcode
end

