-- ==== Sys2Proof/Laws/Phase.lean ====
section
/-! SUPPORT. Bounds and exact cases of the F64 operations. -/

namespace Sys2Proof.Machine

set_option Elab.async false

theorem zero64_msb : zero64.msb = false := by decide +kernel
theorem mag_zero64 : mag64 zero64 = 0 := by decide +kernel
theorem zero64_not_nan : isNaN64 zero64 = false := by decide +kernel
theorem one64_msb : one64.msb = false := by decide +kernel
theorem mag_one64 : mag64 one64 = 0x3FF0000000000000 := by decide +kernel
theorem one64_not_nan : isNaN64 one64 = false := by decide +kernel
theorem units_one64 : magUnits binary64 (mag64 one64) = 2 ^ 1074 := by decide +kernel

/-- [0, 1) by the encoding. -/
theorem phaseInUnit_iff (p : F64) : phaseInUnit p ↔ p.msb = false ∧ mag64 p < 0x3FF0000000000000 := by
  constructor
  · rintro ⟨h1, h2, h3⟩
    have hn : isNaN64 p = false := ((lt64_iff _ _).1 h2).1
    have := (lt64_nonneg h3 one64_msb hn one64_not_nan).1 h2
    exact ⟨h3, by rw [← mag_one64]; exact this⟩
  · rintro ⟨h3, h2⟩
    have hn : isNaN64 p = false := by rw [not_nan64_iff, infMag64]; omega
    refine ⟨(le64_nonneg zero64_msb h3 zero64_not_nan hn).2 (by rw [mag_zero64]; omega),
        (lt64_nonneg h3 one64_msb hn one64_not_nan).2 (by rw [mag_one64]; exact h2), h3⟩

/-- Every magnitude is a significand times a power of two. -/
theorem magUnits_split (f : FloatFormat) (g : Nat) : ∃ a j, a < 2^(f.fracBits+1) ∧ magUnits f g = a * 2^j := by
  by_cases h : g < 2^f.fracBits
  · exact ⟨g, 0, by rw [pow_succ]; omega, by rw [magUnits_small h]; simp⟩
  · refine ⟨2^f.fracBits + g % 2^f.fracBits, _, ?_, magUnits_large (by omega)⟩
    have := Nat.mod_lt g (Nat.two_pow_pos f.fracBits)
    rw [pow_succ]; omega

/-- The whole and the fractional part of a magnitude are magnitudes. -/
theorem magUnits_floor_frac (g : Nat) : ∃ gf gr, magUnits binary64 gf = magUnits binary64 g / 2^1074 * 2^1074 ∧
    magUnits binary64 gr = magUnits binary64 g % 2^1074 := by
  obtain ⟨a, j, ha, he⟩ := magUnits_split binary64 g
  rw [he]
  by_cases hj : 1074 ≤ j
  · obtain ⟨k, rfl⟩ := Nat.exists_eq_add_of_le hj
    have e : a * 2^(1074+k) = (a * 2^k) * 2^1074 := by rw [pow_add]; ring
    rw [e]
    refine ⟨g, 0, ?_, ?_⟩
    · rw [Nat.mul_div_cancel _ (Nat.two_pow_pos _), he, e]
    · rw [Nat.mul_mod_left]; simp
  · obtain ⟨k, hk⟩ := Nat.exists_eq_add_of_le (Nat.le_of_lt (not_le.1 hj))
    have e : 2^1074 = 2^k * 2^j := by rw [hk, pow_add]; ring
    obtain ⟨gf, h1⟩ := exists_mag binary64 (a / 2^k) 1074 (le_trans (Nat.div_le_self _ _) ha.le)
    obtain ⟨gr, h2⟩ := exists_mag binary64 (a % 2^k) j (le_trans (Nat.mod_le _ _) ha.le)
    refine ⟨gf, gr, ?_, ?_⟩
    · rw [h1, e, Nat.mul_div_mul_right _ _ (Nat.two_pow_pos _)]
    · rw [h2, e, Nat.mul_mod_mul_right]

theorem mag_pack_zero64 (s : Bool) : mag64 (pack64 (s, 0)) = 0 := mag_pack64 _ _ (by omega)
theorem msb_pack_zero64 (s : Bool) : (pack64 (s, 0)).msb = s := msb_pack64 _ _ (by omega)

/-- A magnitude that is representable and finite bounds the rounding of everything below it. -/
theorem round64_le {s n d} (hd : 0 < d) {g} (hg : g < infMag binary64) (h : n ≤ magUnits binary64 g * d) :
    isFinite64 (round64 (.ratio s n d)) = true ∧ mag64 (round64 (.ratio s n d)) ≤ g := by
  have h1 : mag64 (round64 (.ratio s n d)) ≤ g := by rw [mag_round64]; exact roundMag_le binary64 n d g hd hg.le h
  exact ⟨(finite64_iff _).2 (by omega), h1⟩

/-- A bound on the exact sum bounds the rounded one. -/
theorem add64_le {x y : F64} (hx : isFinite64 x = true) (hy : isFinite64 y = true) {g} (hg : g < infMag binary64)
   (h : (order64 x + order64 y).natAbs ≤ magUnits binary64 g) : isFinite64 (add64 x y) = true ∧ mag64 (add64 x y) ≤ g := by
  rw [add64_finite hx hy]
  split
  · have := mag_pack_zero64 (x.msb && y.msb); exact ⟨by rw [finite64_iff, this, infMag64]; omega, by omega⟩
  · exact round64_le one_pos hg (by simpa using h)

/-- A bound on the exact difference bounds the rounded one. -/
theorem sub64_le {x y : F64} (hx : isFinite64 x = true) (hy : isFinite64 y = true) {g} (hg : g < infMag binary64)
   (h : (order64 x - order64 y).natAbs ≤ magUnits binary64 g) : isFinite64 (sub64 x y) = true ∧ mag64 (sub64 x y) ≤ g := by
  rw [sub64_finite hx hy]
  split
  · have := mag_pack_zero64 (x.msb && !y.msb); exact ⟨by rw [finite64_iff, this, infMag64]; omega, by omega⟩
  · exact round64_le one_pos hg (by simpa using h)

/-- A bound on the exact product bounds the rounded one. -/
theorem mul64_le {x y : F64} (hx : isFinite64 x = true) (hy : isFinite64 y = true) {g} (hg : g < infMag binary64) 
   (h : magUnits binary64 (mag64 x) * magUnits binary64 (mag64 y) ≤ magUnits binary64 g * 2^1074) :
       isFinite64 (mul64 x y) = true ∧ mag64 (mul64 x y) ≤ g := by
  rw [mul64_finite hx hy]; exact round64_le (Nat.two_pow_pos 1074) hg h

/-- `abs64` keeps the magnitude and clears the sign. -/
theorem abs64_mag (x : F64) : mag64 (abs64 x) = mag64 x ∧ (abs64 x).msb = false := by
  constructor
  · unfold mag64 abs64
    apply Nat.eq_of_testBit_eq
    intro i
    rw [Nat.testBit_mod_two_pow, Nat.testBit_mod_two_pow, BitVec.toNat_and, Nat.testBit_and]
    by_cases h : i < 63
    · have : ((0x7FFFFFFFFFFFFFFF#64).toNat.testBit i) = true := by
        rw [show (0x7FFFFFFFFFFFFFFF#64).toNat = 2^63 - 1 from rfl, Nat.testBit_two_pow_sub_one]; simpa using h
      rw [this]; simp [h]
    · simp [h]
  · unfold abs64; rw [BitVec.msb_and, show (0x7FFFFFFFFFFFFFFF#64).msb = false from by decide]; simp

/-- `cvt32_64` is exact. -/
theorem cvt32To64_exact {x : F32} (hf : isFinite32 x = true) : magUnits binary64 (mag64 (cvt32To64 x)) =
    magUnits binary32 (mag32 x) * 2^925 ∧ (cvt32To64 x).msb = x.msb ∧ isFinite64 (cvt32To64 x) = true := by
  obtain ⟨a, j, ha, he⟩ := magUnits_split binary32 (mag32 x)
  obtain ⟨g, hg⟩ := exists_mag binary64 a (j + 925) (le_trans ha.le (by decide))
  have e : magUnits binary32 (mag32 x) * 2^925 = magUnits binary64 g := by rw [hg, he, pow_add]; ring
  have hgi : g < infMag binary64 := by
    rw [← not_le, ← magUnits_le_iff binary64, ← e, not_le]
    have h1 := (finite32_iff x).1 hf
    have h2 := (magUnits_le_iff binary32).2 (show mag32 x ≤ infMag binary32 - 1 by omega)
    rw [units_max32] at h2
    refine lt_of_le_of_lt (Nat.mul_le_mul_right _ h2) ?_
    decide +kernel
  have : cvt32To64 x = pack64 (x.msb, g) := by
    unfold cvt32To64
    rw [datum32_finite hf]
    unfold widen
    dsimp only
    rw [show binary64.unitExp - binary32.unitExp = 925 from rfl, e]; exact round64_exact_one _ _ hgi.le
  have hlt : g < 2^63 := by rw [infMag64] at hgi; omega
  rw [this, mag_pack64 _ _ hlt, msb_pack64 _ _ hlt, finite64_iff, mag_pack64 _ _ hlt]
  exact ⟨e.symm, rfl, hgi⟩

end Sys2Proof.Machine
end

