-- ==== Sys2Proof/Tests/Slice0.lean ====
section
/-! SUPPORT. The model's own tests: expected values are those of spec/ (95_test_vectors.md unless said otherwise), and for
every obligation with hypotheses a state and operands that meet them. -/

namespace Sys2Proof.Tests

set_option Elab.async false

open Sys2Proof Sys2Proof.Machine

/-! ## States and runs -/

/-- The state of a result; the block gives no other kind of result. -/
def after (o : Host.Outcome State Fault Refusal) : State :=
  match o with
  | .next s => s
  | .fault _ => State.reset
  | .refused _ => State.reset

/-- s with the host's transactions t pending. -/
def pending (t : List Txn) (s : State) : State := { s with bus := t }

/-- Configured as `configure 2` with sampleRate 1000.0 and maxDelay 4.0: N = 5, SPM = 1.0. -/
def ready : State :=
  { State.reset with
    configured := true, ch := 2, cap := 5, sr := 0x447A0000#32, maxdly := 0x40800000#32, spm := 0x3F800000#32 }

/-- A parameter at rest. -/
def rest (v : F32) : Smoother := { tgt := v, cur := v, step := 0#32, rem := 0 }

/-- `ready` with dryMix 1, all else 0. -/
def dryState : State := setSmoother .dryMix (rest 0x3F800000#32) ready

/-- `ready` with delay 2.0 and wetMix 1, all else 0, and an impulse at IN[0][0]. -/
def delayState : State :=
  setIn 0 0 0x3F800000#32 (setSmoother .delay (rest 0x40000000#32) (setSmoother .wetMix (rest 0x3F800000#32) ready))

/-- `ready` with dryMix ramping to 1 over four frames (T-SM-6). -/
def rampState : State := smSet .dryMix 0x3F800000#32 4 ready

/-- The start state of the T-DL vectors, in a block of one channel. -/
def ringState : State :=
  setCursor 0 2 (setDl 0 4 0x42480000#32 (setDl 0 3 0x42200000#32 (setDl 0 2 0x41F00000#32 (setDl 0 1 0x41A00000#32
    (setDl 0 0 0x41200000#32 { State.reset with configured := true, ch := 1, cap := 5 })))))

/-! ## Well-formedness: an ill-formed term for each check -/

theorem test_wf_configure : Instr.check (.configure 255) = true ∧ Instr.check (.configure 256) = false := by decide
theorem test_wf_setp_pid : Instr.check (.setp 15 0) = true ∧ Instr.check (.setp 16 0) = false := by decide
theorem test_wf_setp_ramp : Instr.check (.setp 0 1048575) = true ∧ Instr.check (.setp 0 1048576) = false := by decide
theorem test_wf_render_frames : Instr.check (.render 65535 0) = true ∧ Instr.check (.render 65536 0) = false := by decide
theorem test_wf_render_bus : Instr.check (.render 0 255) = true ∧ Instr.check (.render 0 256) = false := by decide

/-! ## Decoding: words written out from the encodings of 30_encoding.md R100 to R106, opcode first -/

theorem test_decode_nop : decode 0b00000000_101010111100110111101111#32 = .command .nop := by decide
theorem test_decode_configure : decode 0b00000001_0000000000000000_00000010#32 = .command (.configure 2) := by decide
theorem test_decode_configure_ignored : decode 0b00000001_1111111111111111_00001000#32 = .command (.configure 8) := by decide
theorem test_decode_setp : decode 0b00000010_00000000000000000100_0100#32 = .command (.setp 4 4) := by decide
theorem test_decode_setp_ramp : decode 0b00000010_11111111111111111111_0111#32 = .command (.setp 7 1048575) := by decide
theorem test_decode_render : decode 0b00000011_11111111_0000000000001000#32 = .command (.render 8 255) := by decide
theorem test_decode_clrerr : decode 0b00000100_000000000000000000000000#32 = .command .clrerr := by decide
theorem test_decode_reset : decode 0b00000101_000000000000000000000001#32 = .command .reset := by decide
theorem test_decode_reserved : decode 0b00000110_000000000000000000000000#32 = .reserved 6 := by decide
theorem test_decode_table_word : decodeTableWord 32 0x03002001 = some (.render 0x2001 0) := by decide

/-- The assembler lines of PR1 and PR4 (30_encoding.md R113, R114). -/
theorem test_assemble : assemble Params.default ["setp 4, 4"] = some [(.write cmdAddr 0x02000044#32, none)] ∧
    assemble Params.default ["wr 0x00100000, 0x3F800000"] = some [(.write 0x00100000#32 0x3F800000#32, none)] := by decide +kernel

/-! ## Commands -/

/-- T-CMD-20. -/
theorem test_nop : (after (step (State.reset.withFetchWord 32 0x00ABCDEF))) = State.reset := by decide +kernel

/-- T-CMD-5: N = 883, SPM = 0x42306666. -/
theorem test_configure :
    let t := after (exec (.configure 1) { State.reset with arg0 := 0x472C4400#32, arg1 := 0x41A00000#32 })
    t.ch = 1 ∧ t.cap = 883 ∧ t.spm = 0x42306666#32 ∧ statusWord t = 0x01#32 := by decide +kernel

/-- T-CMD-14: the capacity formula is evaluated in F32. -/
theorem test_configure_capacity :
    (after (exec (.configure 1) { State.reset with arg0 := 0x47FD0033#32, arg1 := 0x438C1E72#32 })).cap = 36302 := by
  decide +kernel

/-- T-CMD-10: the product is infinite. -/
theorem test_configure_rejected :
    statusWord (after (exec (.configure 1) { State.reset with arg0 := 0x447A0000#32, arg1 := 0x7F7FFFFF#32 })) = 0x04#32 := by
  decide +kernel

/-- T-CMD-22: a ramp of four frames, read back through the P_* registers. -/
theorem test_setp_ramp :
    let t := after (exec (.setp 4 4) { State.reset with arg0 := 0x3F800000#32 })
    [0x0C0#32, 0x0C4#32, 0x0C8#32, 0x0CC#32].map (fun a => (hostRead a t).1)
      = [0x3F800000#32, 0x00000000#32, 0x3E800000#32, 0x00000004#32] := by decide +kernel

/-- T-CMD-26: a boolean takes bit 0 only. -/
theorem test_setp_boolean : (after (exec (.setp 7 0) { State.reset with arg0 := 0x00000002#32 })).odd90 = false ∧
    (after (exec (.setp 7 1048575) { State.reset with arg0 := 0x00000001#32 })).odd90 = true := by decide +kernel

/-- T-CMD-23, T-CMD-25. -/
theorem test_setp_rejected :
    statusWord (after (exec (.setp 3 0) { State.reset with arg0 := 0x7F800000#32 })) = 0x08#32 ∧
    statusWord (after (exec (.setp 8 0) State.reset)) = 0x08#32 := by decide +kernel

/-- T-CMD-28 to T-CMD-30. -/
theorem test_render_rejected : statusWord (after (exec (.render 64 0) State.reset)) = 0x10#32 ∧
    statusWord (after (exec (.render 0 0) State.reset)) = 0x00#32 ∧
    statusWord (after (exec (.render 8193 0) ready)) = 0x11#32 := by decide +kernel

/-- PR4: the first single-frame render gives 0.25 times the input, and leaves three frames of the ramp. -/
theorem test_render_ramp :
    let t := after (exec (.render 1 0) (setIn 0 0 0x3F800000#32 rampState))
    outWord t 0 0 = 0x3E800000#32 ∧ (smoother t .dryMix).rem = 3 ∧ cursor t 0 = 1 ∧ cursor t 1 = 1 ∧
    dlWord t 0 0 = 0x3F800000#32 := by decide +kernel

/-- S2 in small: the impulse comes out two frames later, and not earlier (90_conflicts.md C1). -/
theorem test_render_delay :
    let t := after (exec (.render 4 0) delayState)
    [0, 1, 2, 3].map (outWord t 0) = [0#32, 0#32, 0x3F800000#32, 0#32] := by decide +kernel

/-- T-CMD-32. -/
theorem test_clrerr :
    statusWord (after (exec .clrerr
      { ready with errCmd := true, errCfg := true, errParam := true, errRender := true, errBus := true })) = 0x01#32 := by
  decide +kernel

/-- T-CMD-33. -/
theorem test_reset : after (exec .reset (after (exec (.render 2 0) delayState))) = State.reset := by decide +kernel

/-- T-CMD-18. -/
theorem test_reserved_opcode : statusWord (after (step (State.reset.withFetchWord 32 0x06000000))) = 0x02#32 := by
  decide +kernel

/-! ## Host bus -/

/-- T-BUS-1 to T-BUS-3. -/
theorem test_bus_reads :
    [0x000#32, 0x038#32, 0x03C#32, 0x040#32, 0x008#32].map (fun a => (hostRead a ready).1)
      = [0x464C4E47#32, 0x8#32, 0x2000#32, 0x10000#32, 0x0#32] := by decide +kernel

/-- T-BUS-4 to T-BUS-7: every one of these reads 0 and sets ERR_BUS. -/
theorem test_bus_bad_reads :
    [0x002#32, 0x044#32, 0x100#32, 0x420#32, 0xFF0#32, 0x1000#32, 0x300000#32, 0x800000#32, 0x140000#32, 0x600000#32].all
      (fun a => (hostRead a ready).1 = 0#32 && (hostRead a ready).2.errBus) = true := by decide +kernel

/-- T-BUS-8, T-BUS-9: ignored, but for ERR_BUS. -/
theorem test_bus_bad_writes :
    [0x000#32, 0x004#32, 0x014#32, 0xFFC#32, 0x200000#32, 0x400000#32, 0x002#32].all
      (fun a => after (hostWrite a 5#32 ready) = { ready with errBus := true }) = true := by decide +kernel

/-- T-BUS-11: IN keeps the raw word. -/
theorem test_bus_raw_input :
    (hostRead 0x100000#32 (after (hostWrite 0x100000#32 0x7FA00001#32 ready))).1 = 0x7FA00001#32 := by decide +kernel

/-! ## Delay line, LFO, smoother, tap, mixer -/

/-- T-DL-1, 4, 5, 6, 8, 10, 11, 13. -/
theorem test_dl_read :
    [0x00000000#32, 0x3FC00000#32, 0x40100000#32, 0x40700000#32, 0x40E00000#32, 0xC0400000#32, 0x7FC00000#32,
      0x3EAAAAAB#32].map (fun t => dlRead 0 t ringState)
      = [0x41F00000#32, 0x41700000#32, 0x41A00000#32, 0x422A0000#32, 0x42200000#32, 0x41F00000#32, 0x41F00000#32,
          0x41D55554#32] := by decide +kernel

/-- T-DL-14: an infinity with weight 0 gives a NaN. -/
theorem test_dl_read_infinity : dlRead 0 0x40800000#32 (setDl 0 2 0x7F800000#32 ringState) = 0x7FC00000#32 := by
  decide +kernel

/-- T-DL-17. -/
theorem test_dl_write : let t := dlWrite 0 0x42C60000#32 (setCursor 0 4 ringState)
    dlWord t 0 4 = 0x42C60000#32 ∧ cursor t 0 = 0 := by decide +kernel

/-- T-LFO-1, 3, 8, 9. -/
theorem test_lfo : [0x0000000000000000#64, 0x3FD0000000000000#64, 0x3FB999999999999A#64, 0x3FEFFFFFFFFFFFFF#64].map
      (fun p => (lfoValue p, lfoQuad p))
    = [(0xBF800000#32, 0x00000000#32), (0x00000000#32, 0x3F800000#32), (0xBF19999A#32, 0x3ECCCCCD#32),
        (0xBF800000#32, 0x00000000#32)] := by decide +kernel

/-- T-LFO-11, 12. -/
theorem test_lfo_increment : nextPhase 0x3FD0000000000000#64 0x400C000000000000#64 = 0x3FE8000000000000#64 ∧
    nextPhase 0x3FEFFFFFFFFFFFFF#64 0x3CA0000000000000#64 = 0x0000000000000000#64 := by decide +kernel

/-- T-LFO-15, 18. -/
theorem test_lfo_rate : lfoRateInc 0x41200000#32 0x473B8000#32 = 0x3F2B4E81B4E81B4F#64 ∧
    lfoRateInc 0x3F000000#32 0x472C4400#32 = 0x3EE7C6F8C751F177#64 := by decide +kernel

/-- T-SM-1 to 4. -/
theorem test_clamp : clampP .depth 0x3FC00000#32 = 0x3F800000#32 ∧ clampP .depth 0xBE800000#32 = 0x00000000#32 ∧
    clampP .feedback 0x80000000#32 = 0x00000000#32 ∧ clampP .rate 0x7149F2CA#32 = 0x7149F2CA#32 := by decide +kernel

/-- T-SM-8: the third step of 1/3 lands on 1. -/
theorem test_smoother : let s0 := smootherSet .depth 0x3F800000#32 3 (rest 0#32)
    [(smootherFrame .depth s0).cur, (smootherFrame .depth (smootherFrame .depth s0)).cur,
      (smootherFrame .depth (smootherFrame .depth (smootherFrame .depth s0))).cur]
      = [0x3EAAAAAB#32, 0x3F2AAAAB#32, 0x3F800000#32] := by decide +kernel

/-- T-TAP-7, l = 1, and T-TAP-4 (delay above MAXDLY), l = -1. -/
theorem test_tap :
    (let cv := cvDerive 0x41A00000#32 0x40E9999A#32 0x3F451EB8#32;
      cv = (0x41430831#32, 0x409C76C8#32) ∧ tap 0x42400000#32 cv.1 cv.2 0x3F800000#32 = 0x444CF2AF#32) ∧
    (let cv := cvDerive 0x41A00000#32 0x41C80000#32 0x3F000000#32;
      tap 0x42400000#32 cv.1 cv.2 0xBF800000#32 = 0x44700000#32) := by decide +kernel

/-- T-TAP-9. -/
theorem test_tap_pair :
    tapPair 0x42400000#32 0x410C0000#32 0x40700000#32 0xBF800000#32 0#32 true = (0x43700000#32, 0x43D20000#32) ∧
    tapPair 0x42400000#32 0x410C0000#32 0x40700000#32 0xBF800000#32 0#32 false = (0x43700000#32, 0x43700000#32) := by
  decide +kernel

/-- T-MIX-1, T-MIX-3 and T-MIX-6. -/
theorem test_mix : mixWrite 0x3F000000#32 0x3E800000#32 0x3F000000#32 = 0x3F200000#32 ∧
    mixOut 0x3F000000#32 0x3E800000#32 0x3F800000#32 0x3F800000#32 = 0x3F400000#32 ∧
    mixOut 0x80000000#32 0#32 0x3F800000#32 0#32 = 0#32 ∧
    mixOut 0x7FA00001#32 0#32 0x3F800000#32 0#32 = 0x7FC00000#32 := by decide +kernel

/-! ## The invariant has states in it -/

theorem cursor_zeros (n c : Nat) : (List.replicate n 0).getD c 0 = 0 := by
  rw [List.getD_eq_getElem?_getD, List.getElem?_replicate]
  split <;> rfl

theorem word_empty (a : Nat) : readWord [] a = 0#32 := by simp [readWord, background]

theorem rest_inv {k : ScalarId} {v : F32} (h : inRange k v) : SmootherInv k (rest v) :=
  ⟨h, h, zero32_finite, Nat.two_pow_pos 20, fun _ => ⟨rfl, rfl⟩⟩

theorem inv_of_smoothers {s : State} (h : s.Inv) (k : ScalarId) {sm : Smoother} (hk : SmootherInv k sm) :
    (setSmoother k sm s).Inv where
  hw_legal := h.hw_legal
  mem_wf := h.mem_wf
  mem_mapped := h.mem_mapped
  cursors_length := h.cursors_length
  unconfigured := h.unconfigured
  config e := let c := h.config e
    ⟨c.ch_pos, c.ch_le, c.cap_pos, c.cap_le, c.sr_ok, c.maxdly_ok, c.spm_eq, c.prod_finite, c.cap_eq, c.cursor_lt⟩
  cursors_equal := h.cursors_equal
  cursors_idle := h.cursors_idle
  dl_idle := h.dl_idle
  phase_unit := h.phase_unit
  smoothers_ok j := by
    rw [smoother_setSmoother]
    split
    · rename_i e; rw [e]; exact hk
    · exact h.smoothers_ok j

theorem test_ready_inv : ready.Inv where
  hw_legal := by decide
  mem_wf := wf_nil
  mem_mapped := by intro c hc; cases hc
  cursors_length := by decide
  unconfigured := by intro h; cases h
  config := fun _ =>
    { ch_pos := by decide, ch_le := by decide, cap_pos := by decide, cap_le := by decide
      sr_ok := by decide +kernel, maxdly_ok := by decide +kernel, spm_eq := by decide +kernel
      prod_finite := by decide +kernel, cap_eq := by decide +kernel
      cursor_lt := fun c => by rw [show cursor ready c = 0 from cursor_zeros 8 c]; decide }
  cursors_equal c _ := by rw [show cursor ready c = 0 from cursor_zeros 8 c, show cursor ready 0 = 0 from rfl]
  cursors_idle c _ := cursor_zeros 8 c
  dl_idle c j _ _ _ := word_empty _
  phase_unit := (phaseInUnit_iff _).2 (by decide +kernel)
  smoothers_ok k := by
    rw [show smoother ready k = rest 0#32 by cases k <;> rfl]
    exact rest_inv (inRange_zero k)

theorem test_dry_inv : dryState.Inv := inv_of_smoothers test_ready_inv _ (rest_inv (inRange_one _))

theorem test_ramp_inv : rampState.Inv := by
  refine inv_of_smoothers test_ready_inv _ ⟨inRange_one _, inRange_zero _, by decide +kernel, by decide +kernel, fun h => ?_⟩
  exact absurd h (by decide +kernel)

theorem test_delay_inv : delayState.Inv := by
  have h : (setSmoother .delay (rest 0x40000000#32) (setSmoother .wetMix (rest 0x3F800000#32) ready)).Inv :=
    inv_of_smoothers (inv_of_smoothers test_ready_inv _ (rest_inv (inRange_one _))) _
      (rest_inv ⟨by decide +kernel, by decide, by decide⟩)
  have hw : delayState.mem.wf := wf_writeWord _ _ _ wf_nil
  exact
    { hw_legal := h.hw_legal, mem_wf := hw
      mem_mapped := by decide +kernel
      cursors_length := h.cursors_length, unconfigured := h.unconfigured
      config := fun e => let c := h.config e
        ⟨c.ch_pos, c.ch_le, c.cap_pos, c.cap_le, c.sr_ok, c.maxdly_ok, c.spm_eq, c.prod_finite, c.cap_eq, c.cursor_lt⟩
      cursors_equal := h.cursors_equal, cursors_idle := h.cursors_idle
      dl_idle := fun c j hc hj ho => (dlWord_setIn h.hw_legal wf_nil (by decide) (by decide) hc hj).trans (h.dl_idle c j hc hj ho)
      phase_unit := h.phase_unit, smoothers_ok := h.smoothers_ok }

theorem noRamp_of {s : State} (h : ∀ k ∈ [ScalarId.rate, .delay, .depth, .feedback, .dryMix, .wetMix], (smoother s k).rem = 0) :
    noRamp s := by intro k; cases k <;> exact h _ (by decide)

theorem test_no_ramp : noRamp ready ∧ noRamp dryState ∧ noRamp delayState :=
  ⟨noRamp_of (by decide), noRamp_of (by decide), noRamp_of (by decide)⟩

/-! ## Every obligation with hypotheses has states and operands that meet them -/

theorem test_witness_DecodeOfEncode :
    Instr.WellFormed (.setp 15 1048575) ∧ Instr.WellFormed (.render 65535 255) ∧ Instr.WellFormed (.configure 255) ∧
    Instr.WellFormed .nop := by decide

theorem test_witness_EncodeOfDecode : decode 0x01ABCDFF#32 = .command (.configure 255) ∧
    decode 0x02FFFFFF#32 = .command (.setp 15 1048575) := by decide

theorem test_witness_DecodeByOpcodeAlone : (0x00FFFFFF#32 : Word).toNat / 2 ^ 24 = 0 ∧
    (0x01000000#32 : Word).toNat / 2 ^ 24 = 1 ∧ (0x02FFFFFF#32 : Word).toNat / 2 ^ 24 = 2 ∧
    (0x03000000#32 : Word).toNat / 2 ^ 24 = 3 ∧ (0x04FFFFFF#32 : Word).toNat / 2 ^ 24 = 4 ∧
    (0x05FFFFFF#32 : Word).toNat / 2 ^ 24 = 5 ∧ 6 ≤ (0x06000000#32 : Word).toNat / 2 ^ 24 ∧
    6 ≤ (0xFFFFFFFF#32 : Word).toNat / 2 ^ 24 := by decide

theorem test_witness_IgnoredBitsHaveNoEffect :
    0x01ABCD02#32 ≠ 0x01000002#32 ∧
    0x01ABCD02#32 &&& examinedBits ((0x01ABCD02#32 : Word).toNat / 2 ^ 24)
      = 0x01000002#32 &&& examinedBits ((0x01ABCD02#32 : Word).toNat / 2 ^ 24) ∧
    0x03FF0008#32 &&& examinedBits ((0x03FF0008#32 : Word).toNat / 2 ^ 24)
      = 0x03000008#32 &&& examinedBits ((0x03FF0008#32 : Word).toNat / 2 ^ 24) := by decide

theorem test_witness_AssembledCommandWords : (255 < 256) ∧ (15 < 16 ∧ 1048575 < 2 ^ 20) ∧ (65535 < 65536 ∧ 0 < 256) := by
  decide

theorem test_witness_StepRunsDecodedCommand :
    (pending [.write cmdAddr 0x04000001#32] ready).bus = .write cmdAddr 0x04000001#32 :: [] ∧
    decode 0x04000001#32 = .command .clrerr := by decide

theorem test_witness_ReservedOpcodeOnlySetsErrCmd :
    (pending [.write cmdAddr 0x06000000#32] ready).bus = .write cmdAddr 0x06000000#32 :: [] ∧
    6 ≤ (0x06000000#32 : Word).toNat / 2 ^ 24 := by decide

theorem test_witness_MisalignedTransaction : (0x005#32 : Word).toNat % 4 ≠ 0 ∧
    (pending [.read 0x005#32] ready).bus = .read 0x005#32 :: [] ∧
    (pending [.write 0x005#32 1#32] ready).bus = .write 0x005#32 1#32 :: [] := by decide

theorem test_witness_ReservedOffset :
    ∀ a ∈ [0x044#32, 0x07C#32, 0x100#32, 0x3FC#32, 0x420#32, 0xFFC#32], a.toNat % 4 = 0 ∧
      ((0x044 ≤ a.toNat ∧ a.toNat ≤ 0x07C) ∨ (0x100 ≤ a.toNat ∧ a.toNat ≤ 0x3FC) ∨
        (0x400 + 4 * ready.hw.maxChannels ≤ a.toNat ∧ a.toNat ≤ 0xFFC)) ∧
      (pending [.read a] ready).bus = .read a :: [] ∧ (pending [.write a 1#32] ready).bus = .write a 1#32 :: [] := by
  simp [pending, ready, State.reset, State.resetWith, Params.default]

theorem test_witness_UnmappedAddress :
    ∀ a ∈ [0x1000#32, 0xFFFFC#32, 0x140000#32, 0x1FFFFC#32, 0x240000#32, 0x300000#32, 0x600000#32, 0x800000#32, 0xFFFFFFFC#32],
      a.toNat % 4 = 0 ∧ 0x1000 ≤ a.toNat ∧ ¬ mappedByte ready.hw a.toNat ∧
      (pending [.read a] ready).bus = .read a :: [] ∧ (pending [.write a 1#32] ready).bus = .write a 1#32 :: [] := by
  simp [pending, ready, State.reset, State.resetWith, Params.default, mappedByte, inBase, outBase, dlBase]

theorem test_witness_WriteToReadOnlyTarget :
    ∀ a ∈ [0x000#32, 0x004#32, 0x014#32, 0x040#32, 0x080#32, 0x0FC#32, 0x400#32, 0x41C#32, 0x200000#32, 0x2FFFFC#32,
        0x400000#32, 0x7FFFFC#32], a.toNat % 4 = 0 ∧
      (a.toNat = 0x000 ∨ a.toNat = 0x004 ∨ (0x014 ≤ a.toNat ∧ a.toNat ≤ 0x040) ∨ (0x080 ≤ a.toNat ∧ a.toNat ≤ 0x0FC) ∨
        (0x400 ≤ a.toNat ∧ a.toNat < 0x400 + 4 * ready.hw.maxChannels ∧ a.toNat < 0x1000) ∨
        (0x00200000 ≤ a.toNat ∧ a.toNat < 0x00300000) ∨ (0x00400000 ≤ a.toNat ∧ a.toNat < 0x00800000)) ∧
      (pending [.write a 1#32] ready).bus = .write a 1#32 :: [] := by simp [pending, ready, State.reset, State.resetWith, Params.default]

theorem test_witness_DelayLineView : ready.hw.Legal ∧ 7 < ready.hw.maxChannels ∧ 65535 < ready.hw.maxCapacity ∧
    dlAddr ready.hw 7 65535 = 0x5FFFFC ∧ (pending [.read 0x5FFFFC#32] ready).bus = .read 0x5FFFFC#32 :: [] ∧
    (pending [.write 0x5FFFFC#32 1#32] ready).bus = .write 0x5FFFFC#32 1#32 :: [] := by decide +kernel

theorem test_witness_BufferReads : ready.hw.Legal ∧ 7 < ready.hw.maxChannels ∧ 8191 < ready.hw.maxFrames ∧
    inAddr ready.hw 7 8191 = 0x13FFFC ∧ outAddr ready.hw 7 8191 = 0x23FFFC ∧
    (pending [.read 0x13FFFC#32] ready).bus = .read 0x13FFFC#32 :: [] ∧
    (pending [.read 0x23FFFC#32] ready).bus = .read 0x23FFFC#32 :: [] := by decide +kernel

theorem test_witness_InputWriteStoresRawWord : ready.hw.Legal ∧ ready.mem.wf ∧ 7 < ready.hw.maxChannels ∧
    8191 < ready.hw.maxFrames ∧ inAddr ready.hw 7 8191 = 0x13FFFC ∧
    (pending [.write 0x13FFFC#32 0x7FA00001#32] ready).bus = .write 0x13FFFC#32 0x7FA00001#32 :: [] := by decide +kernel

theorem test_witness_ArgumentsReadBack :
    (pending [.write 0x00C#32 7#32, .read 0x00C#32] ready).bus = .write 0x00C#32 7#32 :: .read 0x00C#32 :: [] ∧
    (pending [.write 0x010#32 7#32, .read 0x010#32] ready).bus = .write 0x010#32 7#32 :: .read 0x010#32 :: [] := by decide

theorem test_witness_StatusRead : (pending [.read 0x004#32] ready).bus = .read 0x004#32 :: [] := by decide

theorem test_witness_FixedRegisterReads :
    ((0x000, 0x464C4E47#32) : Nat × Word) ∈ ([(0x000, 0x464C4E47#32), (0x008, 0#32)] : List (Nat × Word)) ∧
    (pending [.read (BitVec.ofNat 32 0x000)] ready).bus = .read (BitVec.ofNat 32 0x000) :: [] ∧
    (pending [.read (BitVec.ofNat 32 0x040)] ready).bus = .read (BitVec.ofNat 32 0x040) :: [] := by decide

theorem test_witness_ParameterRegisterReads :
    (pending [.read (BitVec.ofNat 32 (0x08C + 16 * 5))] ready).bus = .read (BitVec.ofNat 32 (0x08C + 16 * 5)) :: [] ∧
    (pending [.read (BitVec.ofNat 32 0x0FC)] ready).bus = .read (BitVec.ofNat 32 0x0FC) :: [] ∧
    (ready.hw.Legal ∧ 7 < ready.hw.maxChannels ∧
      (pending [.read (BitVec.ofNat 32 (0x400 + 4 * 7))] ready).bus = .read (BitVec.ofNat 32 (0x400 + 4 * 7)) :: []) := by
  decide

theorem test_witness_ReadsAreIdempotent :
    (pending [.read 0x006#32, .read 0x006#32] ready).bus = .read 0x006#32 :: .read 0x006#32 :: [] := by decide

theorem test_witness_NopChangesNothing :
    (pending [.write cmdAddr 0x00FFFFFF#32] ready).bus = .write cmdAddr 0x00FFFFFF#32 :: [] ∧
    (0x00FFFFFF#32 : Word).toNat < 2 ^ 24 := by decide

theorem test_witness_ResetGivesResetValues : rampState.hw = Params.default := by decide

/-- T-CMD-6 (CHN at its bound) and T-CMD-2 (maxDelay -0, N = 1). -/
theorem test_witness_ConfigureAccepted :
    ∀ x ∈ ([(8, 0x447A0000#32, 0x3F800000#32), (1, 0x447A0000#32, 0x80000000#32)] : List (Nat × F32 × F32)),
      let s := { State.reset with arg0 := x.2.1, arg1 := x.2.2 }
      let md := if eq32 s.arg1 zero32 = true then zero32 else s.arg1
      let spm := div32 s.arg0 thousand32
      1 ≤ x.1 ∧ x.1 ≤ s.hw.maxChannels ∧ isFinite32 s.arg0 = true ∧ lt32 zero32 s.arg0 = true ∧
      isFinite32 s.arg1 = true ∧ le32 zero32 s.arg1 = true ∧ isFinite32 (mul32 md spm) = true ∧
      ceilNat (mul32 md spm) + 1 ≤ s.hw.maxCapacity := by decide +kernel

/-- T-CMD-8, 7, 13, 11, 10, 9: each of the six ways to fail. -/
theorem test_witness_ConfigureRejected :
    0 < 1 ∧ State.reset.hw.maxChannels < 9 ∧ ¬ (isFinite32 0#32 = true ∧ lt32 zero32 0#32 = true) ∧
    ¬ (isFinite32 0xBF800000#32 = true ∧ le32 zero32 0xBF800000#32 = true) ∧
    isFinite32 (mul32 0x7F7FFFFF#32 (div32 0x447A0000#32 thousand32)) = true ∧
    isFinite32 (mul32 0x7F7FFFFF#32 (div32 0x44FA0000#32 thousand32)) = false ∧
    State.reset.hw.maxCapacity < ceilNat (mul32 0x44FA0000#32 (div32 0x473B8000#32 thousand32)) + 1 := by decide +kernel

theorem test_witness_SetScalarParameter :
    ((5, .wetMix) : Nat × ScalarId) ∈
      ([(0, .rate), (1, .delay), (2, .depth), (3, .feedback), (4, .dryMix), (5, .wetMix)] : List (Nat × ScalarId)) ∧
    isFinite32 (0x7F7FFFFF#32) = true := by decide +kernel

theorem test_witness_SetParameterRejected : 8 ≤ 8 ∧ 8 ≤ 15 ∧ (5 < 6 ∧ isFinite32 0x7F800000#32 = false) := by
  decide +kernel

theorem test_witness_RenderRejectedOrEmpty : ready.hw.maxFrames < 8193 ∧ (1 ≤ 1 ∧ State.reset.configured = false) := by
  decide

theorem test_witness_RenderFrame : rampState.Inv ∧ rampState.configured = true ∧ 1 ≤ 8192 ∧ 8192 ≤ rampState.hw.maxFrames :=
  ⟨test_ramp_inv, by decide, by decide, by decide⟩

theorem test_witness_RenderAdvancesPhaseAndCursors :
    ready.Inv ∧ ready.configured = true ∧ 1 ≤ 1 ∧ 1 ≤ 2 ∧ 2 ≤ ready.hw.maxFrames :=
  ⟨test_ready_inv, by decide, by decide, by decide, by decide⟩

theorem test_witness_RenderReadsParameters : rampState.configured = true ∧ 1 ≤ 1 ∧ 2 ≤ rampState.hw.maxFrames ∧
    (smoother rampState .rate).rem = 0 ∧ (smoother rampState .dryMix).rem = 4 ∧
    (smoother (smSet .rate 0#32 1 rampState) .rate).rem = 1 := by decide +kernel

theorem test_witness_BlockRenderCompletesRamps : 2 ≤ 2 ∧ rampState.configured = true ∧ 2 ≤ rampState.hw.maxFrames ∧
    smootherFinal rampState.smoothers.dryMix ≠ rampState.smoothers.dryMix := by decide +kernel

theorem test_witness_SingleFrameMix : delayState.Inv ∧ delayState.configured = true := ⟨test_delay_inv, by decide⟩

theorem exec_setp_feedback : exec (.setp 3 0) ready = .next (smSet .feedback 0#32 0 ready) := by
  show execSetp 3 0 ready = _
  simp only [execSetp, paramOfPid]
  rfl

theorem test_witness_IdempotentCommands : exec .clrerr ready = .next (after (exec .clrerr ready)) ∧
    exec (.configure 9) ready = .next (after (exec (.configure 9) ready)) ∧
    exec (.setp 3 0) ready = .next (after (exec (.setp 3 0) ready)) := by
  refine ⟨rfl, ?_, ?_⟩
  · obtain h | h := execConfigure_cases 9 ready
    · exact absurd h.2.1 (by decide)
    · rw [show exec (.configure 9) ready = _ from h.2]; rfl
  · rw [show exec (.setp 3 0) ready = .next (smSet .feedback 0#32 0 ready) from exec_setp_feedback]; rfl

theorem test_witness_DelayLineWrite : ready.mem.wf ∧ 7 < ready.cursors.length := ⟨wf_nil, by decide⟩

/-- The integer taps 0 and 4 of a ring of 5, and the last with an infinite y1. -/
theorem test_witness_TapInterpolatesTwoSlots : (∀ d ∈ [0, 4], ringState.cap ≤ 2 ^ 24 ∧ d < ringState.cap ∧
    cursor ringState 0 < ringState.cap ∧
    isNaN32 (dlWord ringState 0 ((cursor ringState 0 + ringState.cap - d) % ringState.cap)) = false ∧
    isFinite32 (dlWord ringState 0 ((cursor ringState 0 + ringState.cap - (d + 1)) % ringState.cap)) = true) ∧
    isFinite32 (dlWord (setDl 0 2 0x7F800000#32 ringState) 0 ((cursor ringState 0 + ringState.cap - 5) % ringState.cap)) = false := by
  decide +kernel

/-- The fractional taps 0 and 2.25 and the last tap, 4, of a ring of 5. -/
theorem test_witness_TapInterpolatesTwoSlots_fraction :
    ∀ p ∈ [(0, 0x00000000#32), (2, 0x40100000#32), (4, 0x40800000#32)], p.2.msb = false ∧ p.1 < ringState.cap ∧
      le32 (toF32 p.1) p.2 = true ∧ lt32 p.2 (toF32 (p.1 + 1)) = true ∧ le32 p.2 (toF32 (ringState.cap - 1)) = true := by
  decide +kernel

theorem test_witness_TapIsClampedToTheRing : isNaN32 0x7FC00000#32 = true ∧ le32 0x80000000#32 zero32 = true ∧
    le32 (toF32 (ringState.cap - 1)) 0x40800000#32 = true ∧ le32 (toF32 (ringState.cap - 1)) 0x7F800000#32 = true := by
  decide +kernel

/-- Each of the four parts of the cycle, at its first and its last phase. -/
theorem test_witness_LfoWaveform :
    (phaseInUnit 0x0000000000000000#64 ∧ phaseInUnit 0x3FDFFFFFFFFFFFFF#64 ∧ phaseInUnit 0x3FE0000000000000#64 ∧
      phaseInUnit 0x3FE7FFFFFFFFFFFF#64 ∧ phaseInUnit 0x3FE8000000000000#64 ∧ phaseInUnit 0x3FEFFFFFFFFFFFFF#64) ∧
    lt64 0x3FDFFFFFFFFFFFFF#64 half64 = true ∧ le64 half64 0x3FE0000000000000#64 = true ∧
    lt64 0x3FE7FFFFFFFFFFFF#64 0x3FE8000000000000#64 = true ∧ le64 0x3FE8000000000000#64 0x3FEFFFFFFFFFFFFF#64 = true := by
  refine ⟨⟨?_, ?_, ?_, ?_, ?_, ?_⟩, by decide +kernel, by decide +kernel, by decide +kernel, by decide +kernel⟩ <;>
    exact (phaseInUnit_iff _).2 (by decide +kernel)

theorem test_witness_IncrementKeepsPhaseInUnit : phaseInUnit 0x3FEFFFFFFFFFFFFF#64 ∧
    isFinite64 0x7FEFFFFFFFFFFFFF#64 = true ∧ BitVec.msb 0x7FEFFFFFFFFFFFFF#64 = false :=
  ⟨(phaseInUnit_iff _).2 (by decide +kernel), by decide +kernel, by decide⟩

theorem test_witness_ClampBringsIntoRange : isFinite32 0xFF7FFFFF#32 = true ∧ isFinite32 0x7F7FFFFF#32 = true ∧
    inRange .rate 0x7F7FFFFF#32 ∧ inRange .depth 0x3F800000#32 ∧ le32 0x80000000#32 zero32 = true ∧
    le32 one32 0x3F800000#32 = true ∧ lt32 zero32 0x00000001#32 = true := by decide +kernel

/-- A rate ramp from 0 to the largest finite value, over 8686 frames: the one of log entry 5. -/
theorem test_witness_RampStaysInRange : isFinite32 0x7F7FFFFF#32 = true ∧ inRange .rate (rest 0#32).cur ∧
    (smootherSet .rate 0x7F7FFFFF#32 8686 (rest 0#32)).rem = 8686 := ⟨by decide +kernel, inRange_zero _, by rw [smootherSet]; rfl⟩

theorem test_witness_RampLandsOnTarget : 1 ≤ 1 ∧ 1 ≤ 1048575 := by decide

theorem test_witness_NoAutomationEquivalence : dryState.Inv ∧ noRamp dryState := ⟨test_dry_inv, test_no_ramp.2.1⟩

/-- Both clauses, the second with an overflowed sum too. -/
theorem test_witness_TapIsNeverNegative : isFinite32 0x7F7FFFFF#32 = true ∧ BitVec.msb 0x7F7FFFFF#32 = false ∧
    isNaN32 0x7F800000#32 = false ∧ BitVec.msb 0x7F800000#32 = false ∧ inRange .depth one32 ∧
    le32 0xBF800000#32 0xBF800000#32 = true ∧ le32 0xBF800000#32 one32 = true ∧ le32 one32 one32 = true ∧
    (isFinite32 0x00000001#32 = true ∧ lt32 zero32 0x00000001#32 = true) ∧ (isFinite32 zero32 = true ∧ isZero32 zero32) := by
  decide +kernel

theorem test_witness_NoModulationWithoutDepth : isFinite32 0x41A00000#32 = true ∧ BitVec.msb 0x41A00000#32 = false ∧
    isNaN32 0x40000000#32 = false ∧ BitVec.msb 0x40000000#32 = false ∧ isFinite32 0xBF800000#32 = true := by decide +kernel

theorem test_witness_StepKeepsInvariant :
    State.Inv (pending [.write cmdAddr 0x00000000#32] ready) ∧
    step (pending [.write cmdAddr 0x00000000#32] ready) = .next (pending [] ready) :=
  ⟨test_ready_inv.congr rfl rfl rfl rfl rfl rfl rfl rfl rfl rfl rfl, rfl⟩

theorem test_witness_StepKeepsPhaseInUnit : ready.Inv ∧ incOk ready.inc ∧ step ready = .next ready :=
  ⟨test_ready_inv, by decide +kernel, step_idle rfl⟩

theorem test_witness_StepKeepsBuffersCanonical : ready.Inv ∧ CanonicalBuffers ready ∧ step ready = .next ready :=
  ⟨test_ready_inv,
    ⟨fun _ _ _ _ h => by rw [outWord, show ready.mem = [] from rfl, word_empty] at h; exact absurd h (by decide +kernel),
      fun _ _ _ _ h => by rw [dlWord, show ready.mem = [] from rfl, word_empty] at h; exact absurd h (by decide +kernel)⟩,
    step_idle rfl⟩

theorem test_witness_ErrorFlagsAreSticky :
    let s := pending [.read 0x006#32] { ready with errCmd := true }
    flag s .cmd = true ∧ flag s .bus = false ∧ step s = .next (after (step s)) ∧ flag (after (step s)) .bus = true := by
  have hs : step (pending [.read 0x006#32] { ready with errCmd := true }) =
      .next { ready with bus := [], errCmd := true, errBus := true, reads := [0#32] } := by
    rw [step_cons rfl]; simp [transact, hostRead, aligned, raiseError, pending, ready]; rfl
  exact ⟨rfl, rfl, by rw [hs]; rfl, by rw [hs]; rfl⟩

theorem test_witness_HostOwnsItsInputs :
    let s := pending [.write 0x00C#32 7#32] ready
    State.Inv s ∧ step s = .next (after (step s)) ∧ (after (step s)).arg0 ≠ s.arg0 ∧
      ∀ w r, s.bus = .write cmdAddr w :: r → w.toNat / 2 ^ 24 ≠ 5 := by
  have hs : step (pending [.write 0x00C#32 7#32] ready) = .next { ready with bus := [], arg0 := 7#32 } := by
    rw [step_write rfl]; simp [hostWrite, aligned, decodeAddr, decodeReg, writeReg, pending]
  refine ⟨test_ready_inv.congr rfl rfl rfl rfl rfl rfl rfl rfl rfl rfl rfl, by rw [hs]; rfl, ?_, fun w r h => ?_⟩
  · rw [hs]; exact (by decide : (7#32 : Word) ≠ 0#32)
  have h := (List.cons.inj h).1
  rw [Txn.write.injEq] at h
  exact absurd h.1 (by decide)

theorem test_witness_OnlyCommandsWriteOutAndDelay : ready.Inv ∧ step ready = .next ready ∧ 7 < ready.hw.maxChannels ∧
    8191 < ready.hw.maxFrames ∧ 65535 < ready.hw.maxCapacity :=
  ⟨test_ready_inv, step_idle rfl, by decide, by decide, by decide⟩

theorem test_witness_SilenceInSilenceOut : rampState.Inv ∧ rampState.configured = true ∧ 1 ≤ 3 ∧ 3 ≤ rampState.hw.maxFrames ∧
    (∀ c i, c < rampState.ch → i < 3 → isZero32 (inWord rampState c i)) ∧
    (∀ c j, c < rampState.ch → j < rampState.cap → isZero32 (dlWord rampState c j)) :=
  ⟨test_ramp_inv, by decide, by decide, by decide, fun _ _ _ _ => .inl (word_empty _), fun _ _ _ _ => .inl (word_empty _)⟩

theorem test_witness_DryPassthrough :
    let s := dryState
    s.Inv ∧ s.configured = true ∧ 1 ≤ 3 ∧ 3 ≤ s.hw.maxFrames ∧ noRamp s ∧ (smoother s .wetMix).tgt = zero32 ∧
    (smoother s .dryMix).tgt = one32 ∧ (smoother s .feedback).tgt = zero32 ∧
    (∀ c i, c < s.ch → i < 3 → mag32 (inWord s c i) ≤ 0x7E800000) ∧
    (∀ c j, c < s.ch → j < s.cap → mag32 (dlWord s c j) ≤ 0x7E800000) := by
  have z : mag32 (0#32) ≤ 0x7E800000 := by decide
  exact ⟨test_dry_inv, rfl, by decide, by decide, test_no_ramp.2.1, rfl, rfl, rfl,
    fun c i _ _ => by rw [inWord, show dryState.mem = [] from rfl, word_empty]; exact z,
    fun c j _ _ => by rw [dlWord, show dryState.mem = [] from rfl, word_empty]; exact z⟩

theorem test_witness_PureDelay :
    let s := delayState
    s.Inv ∧ s.configured = true ∧ 1 ≤ 4 ∧ 4 ≤ s.hw.maxFrames ∧ noRamp s ∧ phaseInUnit s.phase ∧
    (smoother s .wetMix).tgt = one32 ∧ (smoother s .dryMix).tgt = zero32 ∧ (smoother s .feedback).tgt = zero32 ∧
    (smoother s .depth).tgt = zero32 ∧ 1 ≤ 2 ∧ 2 < s.cap ∧
    mul32 (clampDelay s.maxdly (smoother s .delay).tgt) s.spm = toF32 2 ∧
    (∀ c i, c < s.ch → i < 4 → isFinite32 (inWord s c i) = true) ∧
    (∀ c j, c < s.ch → j < s.cap → dlWord s c j = zero32) := by
  refine ⟨test_delay_inv, rfl, by decide, by decide, test_no_ramp.2.2, (phaseInUnit_iff _).2 (by decide +kernel), rfl, rfl,
    rfl, rfl, by decide, by decide, by decide +kernel, ?_, ?_⟩
  · have : ∀ c : Fin 2, ∀ i : Fin 4, isFinite32 (inWord delayState c i) = true := by decide +kernel
    exact fun c i hc hi => this ⟨c, hc⟩ ⟨i, hi⟩
  · have : ∀ c : Fin 2, ∀ j : Fin 5, dlWord delayState c j = zero32 := by decide +kernel
    exact fun c j hc hj => this ⟨c, hc⟩ ⟨j, hj⟩

/-- The states of the second run of R210 (e) from `delayState`. -/
def single (i : Nat) : State := forUpTo i (fun j s => renderCore 1 (loadColumn delayState j s)) delayState

theorem single_succ (i : Nat) : single (i + 1) = renderCore 1 (loadColumn delayState i (single i)) := forUpTo_succ _ _ _

theorem exec_render_one {s : State} (h : s.configured = true) (hf : 1 ≤ s.hw.maxFrames) :
    exec (.render 1 0) s = .next (renderCore 1 s) := by
  show execRender 1 s = _
  obtain ⟨h', -⟩ | ⟨h', -⟩ | ⟨-, -, -, h'⟩ := execRender_cases 1 s
  · rw [h] at h'; simp at h'; omega
  · omega
  · exact h'

theorem loadColumn_config (src : State) (i : Nat) (s : State) :
    (loadColumn src i s).configured = s.configured ∧ (loadColumn src i s).hw = s.hw :=
  forUpTo_induct (P := fun _ t => t.configured = s.configured ∧ t.hw = s.hw) ⟨rfl, rfl⟩ fun _ _ _ h => h

theorem test_witness_RampBlockEquivalence :
    delayState.Inv ∧ delayState.configured = true ∧ 2 ≤ 3 ∧ 3 ≤ delayState.hw.maxFrames ∧ noRamp delayState ∧
    exec (.render 3 0) delayState = .next (renderCore 3 delayState) ∧ single 0 = delayState ∧
    (∀ i, i < 3 → exec (.render 1 0) (loadColumn delayState i (single i)) = .next (single (i + 1))) := by
  have key : ∀ i, (single i).configured = true ∧ (single i).hw = delayState.hw := by
    intro i
    induction i with
    | zero => exact ⟨rfl, rfl⟩
    | succ i ih =>
      have h := loadColumn_config delayState i (single i)
      rw [single_succ, renderCore_configured, renderCore_hw, h.1, h.2]
      exact ih
  refine ⟨test_delay_inv, rfl, by decide, by decide, test_no_ramp.2.2, ?_, rfl, fun i _ => ?_⟩
  · obtain ⟨h, -⟩ | ⟨h, -⟩ | ⟨-, -, -, h⟩ := execRender_cases 3 delayState
    · exact absurd h (by decide)
    · exact absurd h (by decide)
    · exact h
  · obtain ⟨h1, h2⟩ := loadColumn_config delayState i (single i)
    rw [exec_render_one (h1.trans (key i).1) (by rw [h2, (key i).2]; decide)]
    rw [single_succ]

end Sys2Proof.Tests
end

/-! SUPPORT. What one step can do, once: every invariant and frame statement about `step` is a case analysis of these. -/

namespace Sys2Proof.Machine

/-! ## The effects of a command and of a step -/

/-- The checks of an accepted CONFIGURE (45_commands.md R232). -/
structure ConfigureOk (chn : Nat) (s : State) : Prop where
  chn_pos : 1 ≤ chn
  chn_le : chn ≤ s.hw.maxChannels
  sr_ok : isFinite32 s.arg0 = true ∧ lt32 zero32 s.arg0 = true
  md_ok : isFinite32 s.arg1 = true ∧ le32 zero32 s.arg1 = true
  prod_finite : isFinite32 (mul32 (plusZero s.arg1) (spmOf s.arg0)) = true
  cap_le : capacityOf (plusZero s.arg1) (spmOf s.arg0) ≤ s.hw.maxCapacity

/-- The state an accepted CONFIGURE leaves (45_commands.md R232). -/
abbrev configuredBy (chn : Nat) (s : State) : State :=
  applyConfig chn s.arg0 (plusZero s.arg1) (spmOf s.arg0) (capacityOf (plusZero s.arg1) (spmOf s.arg0)) s

/-- The states a command word w can leave s in, with what the command's checks have established. -/
inductive CommandEffect (w : Word) (s : State) : State → Prop
  /-- NOP and a RENDER of no frames. -/
  | nothing : CommandEffect w s s
  /-- A reserved opcode or a failed check. -/
  | error (e : ErrFlag) : CommandEffect w s (raiseError e s)
  | configure {chn : Nat} (hop : w.toNat / 2 ^ 24 = 1) (hok : ConfigureOk chn s) : CommandEffect w s (configuredBy chn s)
  | setBoolean (b : BoolId) (v : Bool) : CommandEffect w s (setBool b v s)
  | setScalar (k : ScalarId) {ramp : Nat} (hramp : ramp < 2 ^ 20) (hfin : isFinite32 s.arg0 = true) :
      CommandEffect w s (smSet k s.arg0 ramp s)
  | render {n : Nat} (hop : w.toNat / 2 ^ 24 = 3) (hn : n ≤ s.hw.maxFrames) (hc : s.configured = true) :
      CommandEffect w s (renderCore n s)
  | clear (hop : w.toNat / 2 ^ 24 = 4) : CommandEffect w s (clearErrors s)
  | reset (hop : w.toNat / 2 ^ 24 = 5) : CommandEffect w s (resetBlock s)

/-- The states one step can leave s in, by the host's next transaction (20_memory.md R90). -/
inductive StepEffect (s : State) : State → Prop
  | idle : StepEffect s s
  | read {a v : Word} {e : Bool} {rest : List Txn} (hbus : s.bus = .read a :: rest) (he : s.errBus = true → e = true) :
      StepEffect s { s with bus := rest, errBus := e, reads := s.reads ++ [v] }
  | writeArg0 {v : Word} {rest : List Txn} (hbus : s.bus = .write 0x00C#32 v :: rest) :
      StepEffect s { s with bus := rest, arg0 := v }
  | writeArg1 {v : Word} {rest : List Txn} (hbus : s.bus = .write 0x010#32 v :: rest) :
      StepEffect s { s with bus := rest, arg1 := v }
  | writeIn {c i : Nat} {v : Word} {rest : List Txn} (hc : c < s.hw.maxChannels) (hi : i < s.hw.maxFrames)
      (hbus : s.bus = .write (BitVec.ofNat 32 (inAddr s.hw c i)) v :: rest) :
      StepEffect s (setIn c i v { s with bus := rest })
  | badWrite {a v : Word} {rest : List Txn} (hbus : s.bus = .write a v :: rest) :
      StepEffect s { s with bus := rest, errBus := true }
  | command {w : Word} {rest : List Txn} {t : State} (hbus : s.bus = .write cmdAddr w :: rest)
      (heff : CommandEffect w { s with bus := rest } t) : StepEffect s t

/-- What the decoder makes of a word, with the opcode and the field bounds later proofs use. -/
theorem decode_cases (w : Word) :
    decode w = .command .nop ∨
    (w.toNat / 2 ^ 24 = 1 ∧ ∃ chn, decode w = .command (.configure chn)) ∨
    (∃ pid ramp, ramp < 2 ^ 20 ∧ decode w = .command (.setp pid ramp)) ∨
    (w.toNat / 2 ^ 24 = 3 ∧ ∃ nfr bus, decode w = .command (.render nfr bus)) ∨
    (w.toNat / 2 ^ 24 = 4 ∧ decode w = .command .clrerr) ∨
    (w.toNat / 2 ^ 24 = 5 ∧ decode w = .command .reset) ∨
    ∃ op, decode w = .reserved op := by
  unfold decode
  rw [opcodeOf_eq]
  split
  case h_1 => exact .inl rfl
  case h_2 h => exact .inr (.inl ⟨h, _, rfl⟩)
  case h_3 h => exact .inr (.inr (.inl ⟨_, _, Nat.mod_lt _ (by decide), rfl⟩))
  case h_4 h => exact .inr (.inr (.inr (.inl ⟨h, _, _, rfl⟩)))
  case h_5 h => exact .inr (.inr (.inr (.inr (.inl ⟨h, rfl⟩))))
  case h_6 h => exact .inr (.inr (.inr (.inr (.inr (.inl ⟨h, rfl⟩)))))
  case h_7 => exact .inr (.inr (.inr (.inr (.inr (.inr ⟨_, rfl⟩)))))

/-- SET_PARAM raises ERR_PARAM, stores a boolean, or sets a smoother from a finite ARG0 (45_commands.md R233, R234). -/
theorem execSetp_cases (pid ramp : Nat) (s : State) :
    execSetp pid ramp s = .next (raiseError .param s) ∨
    (∃ b v, execSetp pid ramp s = .next (setBool b v s)) ∨
    ∃ k, isFinite32 s.arg0 = true ∧ execSetp pid ramp s = .next (smSet k s.arg0 ramp s) := by
  unfold execSetp
  cases paramOfPid pid with
  | reserved => exact .inl rfl
  | boolean b => exact .inr (.inl ⟨b, _, rfl⟩)
  | scalar k =>
    by_cases hf : isFinite32 s.arg0 = true
    · exact .inr (.inr ⟨k, hf, if_pos hf⟩)
    · exact .inl (if_neg hf)

/-- Every word written to CMD has one of the effects of `CommandEffect`. -/
theorem cmdDispatch_effect (w : Word) (s : State) : ∃ t, cmdDispatch w s = .next t ∧ CommandEffect w s t := by
  unfold cmdDispatch
  obtain h | ⟨hop, chn, h⟩ | ⟨pid, ramp, hramp, h⟩ | ⟨hop, nfr, bus, h⟩ | ⟨hop, h⟩ | ⟨hop, h⟩ | ⟨op, h⟩ :=
    decode_cases w
  all_goals rw [h]; dsimp only [exec]
  · exact ⟨s, rfl, .nothing⟩
  · obtain ⟨h1, h2, h3, h4, h5, h6, he⟩ | ⟨-, he⟩ := execConfigure_cases chn s
    · exact ⟨_, he, .configure hop ⟨h1, h2, h3, h4, h5, h6⟩⟩
    · exact ⟨_, he, .error .cfg⟩
  · obtain he | ⟨b, v, he⟩ | ⟨k, hf, he⟩ := execSetp_cases pid ramp s
    · exact ⟨_, he, .error .param⟩
    · exact ⟨_, he, .setBoolean b v⟩
    · exact ⟨_, he, .setScalar k hramp hf⟩
  · obtain ⟨-, he⟩ | ⟨-, he⟩ | ⟨-, hn, hc, he⟩ := execRender_cases nfr s
    · exact ⟨_, he, .error .render⟩
    · exact ⟨_, he, .nothing⟩
    · exact ⟨_, he, .render hop hn hc⟩
  · exact ⟨_, rfl, .clear hop⟩
  · exact ⟨_, rfl, .reset hop⟩
  · exact ⟨_, rfl, .error .cmd⟩

/-- Every step has one of the effects of `StepEffect`. -/
theorem step_effect {s t : State} (h : step s = .next t) : StepEffect s t := by
  rcases hbus : s.bus with _ | ⟨⟨a⟩ | ⟨a, v⟩, rest⟩
  · rw [step_idle hbus] at h
    cases h
    exact .idle
  · rw [step_cons hbus] at h
    cases h
    obtain hr | hr := hostRead_shape a { s with bus := rest }
    · rw [hr]
      exact .read hbus id
    · rw [hr]
      exact .read hbus fun _ => rfl
  · rw [step_write hbus] at h
    obtain ⟨rfl, hw⟩ | ⟨rfl, hw⟩ | ⟨rfl, hw⟩ | ⟨c, i, ha, hd, hw⟩ | hw :=
      hostWrite_cases a v { s with bus := rest }
    all_goals rw [hw] at h
    · obtain ⟨u, hu, heff⟩ := cmdDispatch_effect v { s with bus := rest }
      rw [hu] at h
      cases h
      exact .command hbus heff
    · cases h
      exact .writeArg0 hbus
    · cases h
      exact .writeArg1 hbus
    · cases h
      obtain ⟨haddr, hc, hi⟩ := decodeAddr_inBuf (of_decide_eq_true ha) hd
      refine .writeIn hc hi ?_
      rw [hbus, ← haddr, BitVec.ofNat_toNat, BitVec.setWidth_eq]
    · cases h
      exact .badWrite hbus

end Sys2Proof.Machine

/-! SUPPORT. What a read of a register answers and what a write to no writable target does; the obligations on them. -/

namespace Sys2Proof.Machine

/-! ## One transaction at a decoded address -/

section Transactions

variable {s : State} {a v : Word} {rest : List Txn}

/-- The registers do not show the host's transactions. -/
theorem readReg_bus (s : State) (rest : List Txn) (r : Reg) : readReg { s with bus := rest } r = readReg s r := by
  cases r <;> rfl

theorem step_read_reg {r : Reg} (hbus : s.bus = .read a :: rest) (ha : a.toNat % 4 = 0)
    (hd : decodeAddr s.hw a.toNat = .reg r) :
    step s = .next { s with bus := rest, reads := s.reads ++ [readReg s r] } := by
  rw [step_cons hbus]
  simp only [transact, hostRead, aligned, ha, hd, readReg_bus]
  rfl

theorem step_read_none (hbus : s.bus = .read a :: rest) (ha : a.toNat % 4 = 0) (hd : decodeAddr s.hw a.toNat = .none) :
    step s = .next { s with bus := rest, errBus := true, reads := s.reads ++ [0#32] } := by
  rw [step_cons hbus]
  simp only [transact, hostRead, aligned, ha, hd]
  rfl

/-- Where an address decodes to IN, it lies in the IN window. -/
theorem inWindow_of_decodeAddr {hw : Params} {a c i : Nat} (h : decodeAddr hw a = .inBuf c i) :
    0x00100000 ≤ a ∧ a < 0x00200000 := by
  unfold decodeAddr at h
  split_ifs at h with h1 h2
  · obtain ⟨r, hr, -⟩ | hr := decodeReg_cases hw a <;> simp [hr] at h
  · exact h2
  all_goals simp only at h; split_ifs at h

/-- A write raises ERR_BUS everywhere but at the three writable registers and in the IN window (46_host_bus.md R261). -/
theorem step_write_error (hbus : s.bus = .write a v :: rest) (hreg : a.toNat ≠ 8 ∧ a.toNat ≠ 12 ∧ a.toNat ≠ 16)
    (hin : ¬ (0x00100000 ≤ a.toNat ∧ a.toNat < 0x00200000)) :
    step s = .next { s with bus := rest, errBus := true } := by
  rw [step_write hbus]
  obtain ⟨rfl, -⟩ | ⟨rfl, -⟩ | ⟨rfl, -⟩ | ⟨c, i, -, hd, -⟩ | h := hostWrite_cases a v { s with bus := rest }
  · exact absurd rfl hreg.1
  · exact absurd rfl hreg.2.1
  · exact absurd rfl hreg.2.2
  · exact absurd (inWindow_of_decodeAddr hd) hin
  · exact h

end Transactions

/-! ## The register map (10_state.md R48, R54, R55, R57) -/

/-- The registers at fixed offsets, but for the parameters' and STATUS (10_state.md R48). -/
def fixedRegs : List (Nat × Reg) :=
  [(0x000, .id), (0x008, .cmd), (0x00C, .arg0), (0x010, .arg1), (0x014, .cfgChannels), (0x018, .cfgSampleRate),
    (0x01C, .cfgMaxDelay), (0x020, .cfgSpm), (0x024, .cfgCapacity), (0x028, .lfoPhaseLo), (0x02C, .lfoPhaseHi),
    (0x030, .lfoIncLo), (0x034, .lfoIncHi), (0x038, .hwMaxChannels), (0x03C, .hwMaxFrames), (0x040, .hwMaxCapacity)]

theorem decodeAddr_fixedRegs (hw : Params) {p : Nat × Reg} (h : p ∈ fixedRegs) : decodeAddr hw p.1 = .reg p.2 := by
  revert p
  simp only [fixedRegs, List.forall_mem_cons]
  exact ⟨rfl, rfl, rfl, rfl, rfl, rfl, rfl, rfl, rfl, rfl, rfl, rfl, rfl, rfl, rfl, rfl, nofun⟩

theorem fixedRegs_aligned {p : Nat × Reg} (h : p ∈ fixedRegs) : p.1 % 4 = 0 ∧ p.1 < 2 ^ 32 := by
  revert p
  decide

/-- Register q of parameter id pid lies at 0x080 + 16·pid + 4·q (10_state.md R54). -/
theorem decodeAddr_paramReg (hw : Params) {pid q : Nat} (hp : pid < 8) (hq : q < 4) :
    decodeAddr hw (0x080 + 4 * q + 16 * pid) = .reg (paramReg pid q) := by
  rw [decodeAddr_reg (by omega)]
  unfold decodeReg
  iterate 17 rw [if_neg (by omega)]
  rw [if_pos (by omega), show (0x080 + 4 * q + 16 * pid - 0x080) / 16 = pid by omega,
    show (0x080 + 4 * q + 16 * pid) % 16 / 4 = q by omega]

/-- DL_CURSOR[c] lies at 0x400 + 4·c (10_state.md R55). -/
theorem decodeAddr_dlCursor {hw : Params} {c : Nat} (hl : hw.Legal) (hc : c < hw.maxChannels) :
    decodeAddr hw (0x400 + 4 * c) = .reg (.dlCursor c) := by
  obtain ⟨-, hmax, -⟩ := hl
  rw [decodeAddr_reg (by omega)]
  unfold decodeReg
  iterate 18 rw [if_neg (by omega)]
  rw [if_pos (by omega), show (0x400 + 4 * c - 0x400) / 4 = c by omega]

/-- The reserved offsets decode to nothing (10_state.md R57). -/
theorem decodeAddr_reserved {hw : Params} {a : Nat} (h4 : a % 4 = 0)
    (h : (0x044 ≤ a ∧ a ≤ 0x07C) ∨ (0x100 ≤ a ∧ a ≤ 0x3FC) ∨ (0x400 + 4 * hw.maxChannels ≤ a ∧ a ≤ 0xFFC)) :
    decodeAddr hw a = .none := by
  rw [decodeAddr_reg (by omega)]
  unfold decodeReg
  iterate 19 rw [if_neg (by omega)]

/-! ## Obligations: reserved offsets and read-only targets -/

/-- Settles O11: a reserved offset decodes to nothing, so a read answers 0 and both accesses raise ERR_BUS. -/
theorem reservedOffset : Obligations.ReservedOffset := by
  unfold Obligations.ReservedOffset
  intro s rest a v h4 hrange
  refine ⟨fun hbus => step_read_none hbus h4 (decodeAddr_reserved h4 hrange), fun hbus => ?_⟩
  exact step_write_error hbus (by omega) (by omega)

/-- Settles O13: none of these addresses is CMD, ARG0 or ARG1 or lies in the IN window. -/
theorem writeToReadOnlyTarget : Obligations.WriteToReadOnlyTarget := by
  unfold Obligations.WriteToReadOnlyTarget
  intro s rest a v h4 hrange hbus
  exact step_write_error hbus (by omega) (by omega)

/-! ## Obligations: what the registers read as -/

/-- Settles O19: the sixteen registers are `fixedRegs`, each read where the register map puts it. -/
theorem fixedRegisterReads : Obligations.FixedRegisterReads := by
  unfold Obligations.FixedRegisterReads
  intro s rest r hr hbus
  obtain ⟨p, hp, rfl⟩ : ∃ p ∈ fixedRegs, (p.1, readReg s p.2) = r := List.mem_map.1 hr
  obtain ⟨h4, hlt⟩ := fixedRegs_aligned hp
  have haddr : (BitVec.ofNat 32 p.1).toNat = p.1 := by rw [BitVec.toNat_ofNat, Nat.mod_eq_of_lt hlt]
  exact step_read_reg hbus (by rw [haddr]; exact h4) (by rw [haddr]; exact decodeAddr_fixedRegs s.hw hp)

/-- A read of register q of parameter id pid. -/
theorem step_read_paramReg {s : State} {rest : List Txn} {pid q a : Nat} (hp : pid < 8) (hq : q < 4)
    (ha : a = 0x080 + 4 * q + 16 * pid) (hbus : s.bus = .read (BitVec.ofNat 32 a) :: rest) :
    step s = .next { s with bus := rest, reads := s.reads ++ [readReg s (paramReg pid q)] } := by
  have haddr : (BitVec.ofNat 32 a).toNat = 0x080 + 4 * q + 16 * pid := by rw [BitVec.toNat_ofNat]; omega
  exact step_read_reg hbus (by omega) (by rw [haddr]; exact decodeAddr_paramReg s.hw hp hq)

/-- What the four registers of a scalar parameter show (10_state.md R54). -/
theorem readReg_paramReg_scalar (s : State) {pid : Nat} {k : ScalarId} (h : paramOfPid pid = .scalar k) (q : Nat) :
    readReg s (paramReg pid q) = match q with
      | 0 => (smoother s k).tgt
      | 1 => (smoother s k).cur
      | 2 => (smoother s k).step
      | _ => BitVec.ofNat 32 (smoother s k).rem := by
  unfold paramReg
  split <;> simp [readReg, readTarget, readCurrent, readStep, readRemaining, h]

/-- The six scalar parameters by id (30_encoding.md R104). -/
theorem paramOfPid_scalar : ∀ p ∈ ([(0, .rate), (1, .delay), (2, .depth), (3, .feedback), (4, .dryMix), (5, .wetMix)] :
    List (Nat × ScalarId)), p.1 < 8 ∧ paramOfPid p.1 = .scalar p.2 := by decide

/-- Settles O20: each register is read where the register map puts it, by its parameter's id and its column. -/
theorem parameterRegisterReads : Obligations.ParameterRegisterReads := by
  unfold Obligations.ParameterRegisterReads
  intro s rest
  refine ⟨?scalar, ?boolean, ?cursors⟩
  case scalar =>
    rintro ⟨pid, k⟩ r hp hr hbus
    obtain ⟨hlt, hk⟩ := paramOfPid_scalar _ hp
    obtain ⟨q, hq, rfl⟩ : ∃ q ∈ [0, 1, 2, 3], (0x080 + 4 * q, readReg s (paramReg pid q)) = r := by
      refine List.mem_map.1 ?_
      simp only [readReg_paramReg_scalar s hk]
      exact hr
    exact step_read_paramReg hlt (by simp at hq; omega) rfl hbus
  case boolean =>
    intro r hr hbus
    obtain ⟨p, hp, rfl⟩ : ∃ p ∈ ([(6, 0), (6, 1), (6, 2), (6, 3), (7, 0), (7, 1), (7, 2), (7, 3)] : List (Nat × Nat)),
      (0x080 + 4 * p.2 + 16 * p.1, readReg s (paramReg p.1 p.2)) = r := List.mem_map.1 hr
    obtain ⟨hpid, hq⟩ : p.1 < 8 ∧ p.2 < 4 := by
      clear hbus hr
      revert p
      decide
    exact step_read_paramReg hpid hq rfl hbus
  case cursors =>
    intro c hl hc hbus
    have hmax := hl.2.1
    have haddr : (BitVec.ofNat 32 (0x400 + 4 * c)).toNat = 0x400 + 4 * c := by rw [BitVec.toNat_ofNat]; omega
    exact step_read_reg hbus (by omega) (by rw [haddr]; exact decodeAddr_dlCursor hl hc)

/-- Settles O18: STATUS lies at 0x004 and shows `statusWord`, whose bits are the flags. -/
theorem statusRead : Obligations.StatusRead := by
  unfold Obligations.StatusRead
  intro s rest hbus
  refine ⟨statusWord s, step_read_reg (r := .status) hbus rfl rfl, ?_⟩
  simp only [statusWord, BitVec.getLsbD_append]
  refine ⟨by simp, by simp, by simp, by simp, by simp, by simp, fun k hk => ?_⟩
  simp only [BitVec.getLsbD_ofBool, BitVec.getLsbD_zero]
  iterate 6 rw [if_neg (by omega)]

/-! ## Obligations: writes that store -/

/-- Settles O17: both are registers at fixed offsets, written by `writeReg` and shown by `readReg`. -/
theorem argumentsReadBack : Obligations.ArgumentsReadBack := by
  unfold Obligations.ArgumentsReadBack
  intro s rest v
  constructor
  · intro hbus
    refine ⟨_, step_write hbus, rfl, ?_⟩
    exact step_read_reg (r := .arg0) rfl rfl rfl
  · intro hbus
    refine ⟨_, step_write hbus, rfl, ?_⟩
    exact step_read_reg (r := .arg1) rfl rfl rfl

/-- Addresses of IN are bus addresses: aligned, and below 2^32. -/
theorem toNat_inAddr {hw : Params} {c i : Nat} (hl : hw.Legal) (hc : c < hw.maxChannels) (hi : i < hw.maxFrames) :
    (BitVec.ofNat 32 (inAddr hw c i)).toNat = inAddr hw c i ∧ inAddr hw c i % 4 = 0 := by
  obtain ⟨-, h1, h2⟩ := inAddr_range hl hc hi
  have h3 : outBase < 2 ^ 32 := by decide
  refine ⟨by rw [BitVec.toNat_ofNat, Nat.mod_eq_of_lt (by omega)], ?_⟩
  rw [inAddr, inBase]
  omega

theorem step_write_in {s : State} {rest : List Txn} {c i : Nat} {v : Word} (hl : s.hw.Legal) (hc : c < s.hw.maxChannels)
    (hi : i < s.hw.maxFrames) (hbus : s.bus = .write (BitVec.ofNat 32 (inAddr s.hw c i)) v :: rest) :
    step s = .next (setIn c i v { s with bus := rest }) := by
  obtain ⟨haddr, h4⟩ := toNat_inAddr hl hc hi
  rw [step_write hbus]
  simp only [hostWrite, aligned, haddr, h4, decodeAddr_inAddr hl hc hi]
  rfl

/-- Settles O16: the write is `setIn`, one word stored at the address of IN[c][i]. -/
theorem inputWriteStoresRawWord : Obligations.InputWriteStoresRawWord := by
  unfold Obligations.InputWriteStoresRawWord
  intro s rest c i v hl hwf hc hi hbus
  refine ⟨_, step_write_in hl hc hi hbus, readWord_writeWord_same _ _ _ hwf, fun a ha => ?_, rfl⟩
  exact (readByte_writeWord _ _ a _ hwf).trans (if_neg ha)

end Sys2Proof.Machine

/-! SUPPORT. The smoother: what SM_SET, SM_FRAME and SM_FINAL make of TGT and REM, and that they keep its invariant. -/

namespace Sys2Proof.Machine

/-! ## TGT and REM -/

@[simp] theorem smootherFrame_tgt (k : ScalarId) (sm : Smoother) : (smootherFrame k sm).tgt = sm.tgt := by
  unfold smootherFrame
  split_ifs <;> rfl

@[simp] theorem smootherFrame_rem (k : ScalarId) (sm : Smoother) : (smootherFrame k sm).rem = sm.rem - 1 := by
  unfold smootherFrame
  split_ifs with h0 h1
  · rw [h0]
  · rw [h1]
  · rfl

@[simp] theorem smootherSet_tgt (k : ScalarId) (v : F32) (ramp : Nat) (sm : Smoother) :
    (smootherSet k v ramp sm).tgt = clampP k v := by
  unfold smootherSet
  split_ifs <;> rfl

@[simp] theorem smootherSet_rem (k : ScalarId) (v : F32) (ramp : Nat) (sm : Smoother) :
    (smootherSet k v ramp sm).rem = ramp := by
  unfold smootherSet
  split_ifs with h
  · exact h.symm
  · rfl

theorem smootherSet_cur_range {k : ScalarId} (v : F32) (ramp : Nat) {sm : Smoother} (h : inRange k sm.cur) :
    inRange k (smootherSet k v ramp sm).cur := by
  unfold smootherSet
  split_ifs
  · exact clampP_range k v
  · exact h

/-- Settles O52, by induction on the number of SM_FRAME calls: CLAMP_P keeps the range whatever the sum. -/
theorem rampStaysInRange : Obligations.RampStaysInRange := by
  unfold Obligations.RampStaysInRange
  intro k v ramp n sm _ hcur
  induction n with
  | zero =>
    refine ⟨smootherSet_cur_range v ramp hcur, ?_, smootherSet_tgt .., smootherSet_rem ..⟩
    rw [Function.iterate_zero_apply, smootherSet_tgt]
    exact clampP_range k v
  | succ n ih =>
    obtain ⟨hc, ht, htgt, hrem⟩ := ih
    obtain ⟨ht', hc'⟩ := smootherFrame_range ht hc
    dsimp only
    rw [Function.iterate_succ_apply']
    exact ⟨hc', ht', by rw [smootherFrame_tgt, htgt], by rw [smootherFrame_rem, hrem, Nat.sub_sub]⟩

/-! ## The smoother's invariant -/

/-- The slope of a ramp between values of the range is finite: the difference is no larger than the larger of the two, and the
divisor is at least 1. -/
theorem rampStep_finite {k : ScalarId} {u v : F32} {ramp : Nat} (hu : inRange k u) (hv : inRange k v) (hpos : ramp ≠ 0)
    (hlt : ramp < 2 ^ 20) : isFinite32 (div32 (sub32 u v) (toF32 ramp)) = true := by
  obtain ⟨fu, su, -⟩ := hu
  obtain ⟨fv, sv, -⟩ := hv
  have hdiff : isFinite32 (sub32 u v) = true := by
    have hmax : max (mag32 u) (mag32 v) < infMag binary32 := max_lt ((finite32_iff u).1 fu) ((finite32_iff v).1 fv)
    refine (sub32_le fu fv hmax ?_).1
    have h1 := magUnits_le binary32 (le_max_left (mag32 u) (mag32 v))
    have h2 := magUnits_le binary32 (le_max_right (mag32 u) (mag32 v))
    rw [order32_nonneg su, order32_nonneg sv]
    omega
  obtain ⟨hunits, -, hfin⟩ := toF32_exact (n := ramp) (by omega)
  have hbig : 2 ^ 149 ≤ magUnits binary32 (mag32 (toF32 ramp)) := by
    rw [hunits]
    exact Nat.le_mul_of_pos_left _ (Nat.pos_of_ne_zero hpos)
  have hpow := Nat.two_pow_pos 149
  rw [div32_finite hdiff hfin fun h0 => by rw [h0, magUnits_zero] at hbig; omega]
  exact (round32_le (by omega) ((finite32_iff _).1 hdiff) (Nat.mul_le_mul_left _ hbig)).1

/-- SM_SET keeps the smoother's invariant (42_smoother.md R171). -/
theorem SmootherInv.set {k : ScalarId} {sm : Smoother} (h : SmootherInv k sm) (v : F32) {ramp : Nat} (hlt : ramp < 2 ^ 20) :
    SmootherInv k (smootherSet k v ramp sm) where
  tgt_range := by rw [smootherSet_tgt]; exact clampP_range k v
  cur_range := smootherSet_cur_range v ramp h.cur_range
  step_finite := by
    unfold smootherSet
    split_ifs with h0
    · exact zero32_finite
    · exact rampStep_finite (clampP_range k v) h.cur_range h0 hlt
  rem_lt := by rw [smootherSet_rem]; exact hlt
  settled hrem := by
    rw [smootherSet_rem] at hrem
    rw [smootherSet, if_pos hrem]
    exact ⟨rfl, rfl⟩

/-- SM_FRAME keeps the smoother's invariant (42_smoother.md R172). -/
theorem SmootherInv.frame {k : ScalarId} {sm : Smoother} (h : SmootherInv k sm) : SmootherInv k (smootherFrame k sm) where
  tgt_range := (smootherFrame_range h.tgt_range h.cur_range).1
  cur_range := (smootherFrame_range h.tgt_range h.cur_range).2
  step_finite := by
    unfold smootherFrame
    split_ifs
    · exact h.step_finite
    · exact zero32_finite
    · exact h.step_finite
  rem_lt := by have := h.rem_lt; rw [smootherFrame_rem]; omega
  settled hrem := by
    rw [smootherFrame_rem] at hrem
    unfold smootherFrame
    split_ifs with h0 h1
    · exact h.settled h0
    · exact ⟨rfl, rfl⟩
    · omega

/-- SM_FINAL keeps the smoother's invariant (42_smoother.md R173). -/
theorem SmootherInv.final {k : ScalarId} {sm : Smoother} (h : SmootherInv k sm) : SmootherInv k (smootherFinal sm) where
  tgt_range := h.tgt_range
  cur_range := h.tgt_range
  step_finite := zero32_finite
  rem_lt := Nat.two_pow_pos 20
  settled _ := ⟨rfl, rfl⟩

theorem SmootherInv.atReset (k : ScalarId) : SmootherInv k Smoother.reset where
  tgt_range := inRange_zero k
  cur_range := inRange_zero k
  step_finite := zero32_finite
  rem_lt := Nat.two_pow_pos 20
  settled _ := ⟨rfl, rfl⟩

/-- Reading the parameters keeps the smoothers' invariant, in either regime. -/
theorem smootherInv_readControls {s : State} (h : ∀ k, SmootherInv k (smoother s k)) (n : Nat) (k : ScalarId) :
    SmootherInv k (smoother (readControls n s).2 k) := by
  rw [smoother_readControls]
  split
  · exact (h k).frame
  · exact (h k).final

end Sys2Proof.Machine

/-! SUPPORT. The LFO's phase and increment: the fractional part lies in [0, 1), and the quotient rate/SR is finite. -/

namespace Sys2Proof.Machine

/-! ## The phase (41_lfo.md R154) -/

/-- 1 is below half the distance from the largest finite value to the next one, so adding less than 1 rounds back to it. -/
theorem roundMag_max_add_one : roundMag binary64 (magUnits binary64 (infMag binary64 - 1) + 2 ^ 1074) 1 < infMag binary64 := by
  decide +kernel

theorem decide_natCast_neg (n : Nat) : decide ((n : Int) < 0) = false := decide_eq_false (by omega)

/-- A phase and an increment add up to a finite value without a sign. -/
theorem add64_phase {p i : F64} (hp : phaseInUnit p) (hi : incOk i) :
    isFinite64 (add64 p i) = true ∧ (add64 p i).msb = false := by
  obtain ⟨sp, mp⟩ := (phaseInUnit_iff p).1 hp
  obtain ⟨fi, si⟩ := hi
  have fp : isFinite64 p = true := by rw [finite64_iff, infMag64]; omega
  have hsum : order64 p + order64 i = ((magUnits binary64 (mag64 p) + magUnits binary64 (mag64 i) : Nat) : Int) := by
    rw [order64_nonneg sp, order64_nonneg si, Nat.cast_add]
  have hbound : magUnits binary64 (mag64 p) + magUnits binary64 (mag64 i) ≤
      magUnits binary64 (infMag binary64 - 1) + 2 ^ 1074 := by
    have h1 := magUnits_le binary64 (show mag64 p ≤ mag64 one64 by rw [mag_one64]; omega)
    have h2 := magUnits_le binary64 (Nat.le_sub_one_of_lt ((finite64_iff i).1 fi))
    rw [units_one64] at h1
    rw [Nat.add_comm]
    exact Nat.add_le_add h2 h1
  rw [add64_finite fp fi, hsum]
  split_ifs
  · exact ⟨by rw [finite64_iff, mag_pack_zero64, infMag64]; omega, by rw [msb_pack_zero64, sp, Bool.false_and]⟩
  · rw [decide_natCast_neg, Int.natAbs_natCast, finite64_iff, mag_round64, msb_round64]
    exact ⟨(roundMag_mono _ _ 1 _ 1 one_pos one_pos (Nat.mul_le_mul_right 1 hbound)).trans_lt roundMag_max_add_one, rfl⟩

/-- The whole part of a finite value without a sign is exact. -/
theorem floor64_exact {x : F64} (hf : isFinite64 x = true) (hs : x.msb = false) :
    isFinite64 (floor64 x) = true ∧ (floor64 x).msb = false ∧
      magUnits binary64 (mag64 (floor64 x)) = magUnits binary64 (mag64 x) / 2 ^ 1074 * 2 ^ 1074 := by
  obtain ⟨g, -, hg, -⟩ := magUnits_floor_frac (mag64 x)
  have hlt : g < infMag binary64 := by
    refine lt_of_le_of_lt ((magUnits_le_iff binary64).1 ?_) ((finite64_iff x).1 hf)
    rw [hg]
    exact Nat.div_mul_le_self _ _
  have hlt' : g < 2 ^ 63 := by rw [infMag64] at hlt; omega
  have heq : floor64 x = pack64 (false, g) := by
    unfold floor64
    rw [datum64_finite hf, hs]
    simp only [Bool.false_eq_true, false_and, if_false]
    exact (congrArg (fun n => round64 (.ratio false n 1)) hg.symm).trans (round64_exact_one false g hlt.le)
  rw [heq, finite64_iff, mag_pack64 _ _ hlt', msb_pack64 _ _ hlt']
  exact ⟨hlt, rfl, hg⟩

/-- What is left of a finite value without a sign after its whole part is a phase. -/
theorem sub64_floor64_inUnit {x : F64} (hf : isFinite64 x = true) (hs : x.msb = false) :
    phaseInUnit (sub64 x (floor64 x)) := by
  obtain ⟨ff, sf, hfloor⟩ := floor64_exact hf hs
  obtain ⟨-, g, -, hg⟩ := magUnits_floor_frac (mag64 x)
  have hone := units_one64
  have hdiff : order64 x - order64 (floor64 x) = (magUnits binary64 g : Int) := by
    rw [order64_nonneg hs, order64_nonneg sf, hfloor, hg]
    have := Nat.div_add_mod' (magUnits binary64 (mag64 x)) (2 ^ 1074)
    generalize 2 ^ 1074 = unit at *
    omega
  have hlt : g < mag64 one64 := by
    rw [← not_le, ← magUnits_le_iff binary64, hone, hg, not_le]
    exact Nat.mod_lt _ (Nat.two_pow_pos _)
  rw [mag_one64] at hlt
  rw [phaseInUnit_iff, sub64_finite hf ff, hdiff]
  split_ifs
  · rw [mag_pack_zero64, msb_pack_zero64, hs, Bool.false_and]
    exact ⟨rfl, by omega⟩
  · rw [decide_natCast_neg, Int.natAbs_natCast, round64_exact_one false g (by rw [infMag64]; omega), mag_pack64 _ _ (by omega),
      msb_pack64 _ _ (by omega)]
    exact ⟨rfl, hlt⟩

/-- LFO_INCREMENT keeps the phase in [0, 1), for every finite increment not below +0 (41_lfo.md R154). -/
theorem nextPhase_inUnit {p i : F64} (hp : phaseInUnit p) (hi : incOk i) : phaseInUnit (nextPhase p i) := by
  obtain ⟨hf, hs⟩ := add64_phase hp hi
  exact sub64_floor64_inUnit hf hs

theorem phaseInUnit_zero64 : phaseInUnit zero64 := (phaseInUnit_iff _).2 (by decide +kernel)

theorem incOk_zero64 : incOk zero64 := by decide +kernel

/-! ## The increment (41_lfo.md R153) -/

/-- The quotient of finite values, the divisor not 0. -/
theorem div64_finite {x y : F64} (hx : isFinite64 x = true) (hy : isFinite64 y = true) (h0 : mag64 y ≠ 0) :
    div64 x y = round64 (.ratio (x.msb ^^ y.msb) (magUnits binary64 (mag64 x) * 2 ^ binary64.unitExp)
      (magUnits binary64 (mag64 y))) := by
  unfold div64
  rw [datum64_finite hx, datum64_finite hy]
  unfold exactDiv
  dsimp only
  rw [if_neg (by rw [magUnits_eq_zero]; exact h0)]

/-- The largest quotient of two F32 values lies far below the largest F64. -/
theorem exists_rateBound : ∃ g, g < infMag binary64 ∧
    magUnits binary32 (infMag binary32 - 1) * 2 ^ binary64.unitExp ≤ magUnits binary64 g := by
  refine ⟨infMag binary64 - 1, ?_, ?_⟩ <;> decide +kernel

/-- LFO_SET_RATE stores a finite increment not below +0: the rate is in its range and SR is above 0. -/
theorem lfoRateInc_ok {rate sr : F32} (hrate : inRange .rate rate) (hsr : isFinite32 sr = true ∧ lt32 zero32 sr = true) :
    incOk (lfoRateInc rate sr) := by
  obtain ⟨fr, mr, -⟩ := hrate
  obtain ⟨fs, ps⟩ := hsr
  obtain ⟨ms, zs⟩ := pos_of_zero_lt32 ps
  obtain ⟨ur, sr', fr'⟩ := cvt32To64_exact fr
  obtain ⟨us, ss', fs'⟩ := cvt32To64_exact fs
  have hpos : 1 ≤ magUnits binary32 (mag32 sr) := Nat.pos_of_ne_zero fun h => zs ((magUnits_eq_zero _).1 h)
  have hcvt : mag64 (cvt32To64 sr) ≠ 0 := by
    rw [Ne, ← magUnits_eq_zero binary64, us]
    exact Nat.mul_ne_zero (by omega) (Nat.two_pow_pos _).ne'
  have hle := magUnits_le binary32 (Nat.le_sub_one_of_lt ((finite32_iff rate).1 fr))
  obtain ⟨g, hg, hbound⟩ := exists_rateBound
  unfold lfoRateInc
  rw [incOk, div64_finite fr' fs' hcvt, sr', ss', mr, ms, ur, us, msb_round64]
  refine ⟨(round64_le (Nat.mul_pos hpos (Nat.two_pow_pos _)) hg ?_).1, rfl⟩
  calc magUnits binary32 (mag32 rate) * 2 ^ 925 * 2 ^ binary64.unitExp
      = magUnits binary32 (mag32 rate) * 2 ^ binary64.unitExp * 2 ^ 925 := Nat.mul_right_comm _ _ _
    _ ≤ magUnits binary64 g * 2 ^ 925 := Nat.mul_le_mul_right _ ((Nat.mul_le_mul_right _ hle).trans hbound)
    _ ≤ magUnits binary64 g * (magUnits binary32 (mag32 sr) * 2 ^ 925) :=
      Nat.mul_le_mul_left _ (Nat.le_mul_of_pos_left _ hpos)

end Sys2Proof.Machine

/-! SUPPORT. Each effect of a step keeps the state invariant; the invariant of every step and at reset. -/

namespace Sys2Proof.Machine

/-! ## Reset -/

/-- Nothing is listed, so every word reads 0. -/
theorem readWord_nil (a : Nat) : readWord [] a = zero32 := by simp [readWord, background, zero32]

theorem cursor_of_replicate {s : State} {n : Nat} (h : s.cursors = List.replicate n 0) (c : Nat) : cursor s c = 0 := by
  rw [cursor, h, List.getD_eq_getElem?_getD, List.getElem?_replicate]
  split <;> rfl

theorem smoother_resetWith (hw : Params) (k : ScalarId) : smoother (State.resetWith hw) k = Smoother.reset := by
  cases k <;> rfl

/-- The reset values meet the invariant, for every legal implementation (10_state.md R47, 70_reset_and_hazards.md R301). -/
theorem inv_resetWith {hw : Params} (h : hw.Legal) : (State.resetWith hw).Inv where
  hw_legal := h
  mem_wf := wf_nil
  mem_mapped _ hc := absurd hc List.not_mem_nil
  cursors_length := List.length_replicate
  unconfigured _ := ⟨rfl, rfl, rfl, rfl, rfl⟩
  config hc := absurd hc Bool.false_ne_true
  cursors_equal c _ := by rw [cursor_of_replicate rfl c, cursor_of_replicate rfl 0]
  cursors_idle c _ := cursor_of_replicate rfl c
  dl_idle _ _ _ _ _ := readWord_nil _
  phase_unit := phaseInUnit_zero64
  smoothers_ok k := by rw [smoother_resetWith]; exact .atReset k

/-- RESET meets the invariant whatever the state before it (45_commands.md R237). -/
theorem inv_resetBlock {s : State} (h : s.Inv) : (resetBlock s).Inv :=
  (inv_resetWith h.hw_legal).congr rfl rfl rfl rfl rfl rfl rfl rfl rfl rfl rfl

/-! ## SET_PARAM and the writes to IN -/

theorem inv_setSmoother {s : State} (h : s.Inv) {k : ScalarId} {sm : Smoother} (hk : SmootherInv k sm) :
    (setSmoother k sm s).Inv where
  hw_legal := h.hw_legal
  mem_wf := h.mem_wf
  mem_mapped := h.mem_mapped
  cursors_length := h.cursors_length
  unconfigured := h.unconfigured
  config e := { h.config e with }
  cursors_equal := h.cursors_equal
  cursors_idle := h.cursors_idle
  dl_idle := h.dl_idle
  phase_unit := h.phase_unit
  smoothers_ok j := by
    rw [smoother_setSmoother]
    split_ifs with e
    · rw [e]; exact hk
    · exact h.smoothers_ok j

/-- A store to IN keeps the invariant: IN is mapped and apart from DL. -/
theorem inv_setIn {s : State} (h : s.Inv) {c i : Nat} (hc : c < s.hw.maxChannels) (hi : i < s.hw.maxFrames)
    (v : Word) : (setIn c i v s).Inv where
  hw_legal := h.hw_legal
  mem_wf := wf_writeWord _ _ _ h.mem_wf
  mem_mapped := by
    refine (mapped_iff_readByte (wf_writeWord _ _ _ h.mem_wf)).2 fun a ha => ?_
    obtain ⟨h1, h2, -⟩ := inAddr_range h.hw_legal hc hi
    refine (readByte_writeWord _ _ a _ h.mem_wf).trans ?_
    rw [if_neg fun hin => ha (.inl (by rw [setIn_hw]; omega))]
    exact (mapped_iff_readByte h.mem_wf).1 h.mem_mapped a ha
  cursors_length := h.cursors_length
  unconfigured := h.unconfigured
  config e := { h.config e with }
  cursors_equal := h.cursors_equal
  cursors_idle := h.cursors_idle
  dl_idle c' j hc' hj hidle := (dlWord_setIn h.hw_legal h.mem_wf hc hi hc' hj).trans (h.dl_idle c' j hc' hj hidle)
  phase_unit := h.phase_unit
  smoothers_ok := h.smoothers_ok

/-! ## CONFIGURE -/

/-- MAXDLY as CONFIGURE stores it: a value at least 0, with -0 made +0 (45_commands.md R232). -/
theorem plusZero_ok {md : F32} (h : isFinite32 md = true ∧ le32 zero32 md = true) :
    isFinite32 (plusZero md) = true ∧ (plusZero md).msb = false := by
  obtain ⟨hf, hle⟩ := h
  unfold plusZero
  split_ifs with h0
  · exact ⟨zero32_finite, zero32_msb⟩
  · refine ⟨hf, (pos_of_zero_lt32 ?_).1⟩
    rw [le32_iff] at hle
    obtain ⟨hz, hn, hle⟩ := hle
    rw [lt32_iff]
    refine ⟨hz, hn, lt_of_le_of_ne hle fun heq => h0 ?_⟩
    simp [eq32, hz, hn, heq]

/-- An accepted CONFIGURE leaves a configuration that meets R47 (b), with every ring empty and every cursor 0. -/
theorem inv_configuredBy {s : State} (h : s.Inv) {chn : Nat} (hok : ConfigureOk chn s) : (configuredBy chn s).Inv where
  hw_legal := h.hw_legal
  mem_wf := wf_clearRange _ _ _ h.mem_wf
  mem_mapped cell hc := h.mem_mapped cell (List.mem_of_mem_filter hc)
  cursors_length := List.length_replicate
  unconfigured hc := Bool.noConfusion hc
  config _ :=
    { ch_pos := hok.chn_pos
      ch_le := hok.chn_le
      cap_pos := Nat.succ_pos _
      cap_le := hok.cap_le
      sr_ok := hok.sr_ok
      maxdly_ok := plusZero_ok hok.md_ok
      spm_eq := rfl
      prod_finite := hok.prod_finite
      cap_eq := rfl
      cursor_lt := fun c => by rw [cursor_of_replicate rfl c]; exact Nat.succ_pos _ }
  cursors_equal c _ := by rw [cursor_of_replicate rfl c, cursor_of_replicate rfl 0]
  cursors_idle c _ := cursor_of_replicate rfl c
  dl_idle c j hc hj _ := (applyConfig_words h.hw_legal).2.2 c j hc hj
  phase_unit := phaseInUnit_zero64
  smoothers_ok := h.smoothers_ok

/-! ## RENDER -/

/-- The bytes a render stores to are mapped: a byte that is not reads as before. -/
theorem renderCore_unmapped {s : State} {n : Nat} (hs : StorageOk s) (hn : n ≤ s.hw.maxFrames) {a : Nat}
    (ha : ¬ mappedByte s.hw a) : readByte (renderCore n s).mem a = readByte s.mem a := by
  obtain ⟨-, -, -, hbytes⟩ := renderCore_effect hs hn
  refine hbytes a (fun c i hc hi hin => ha (.inr (.inl ?_))) fun c j hc hj hin => ha (.inr (.inr ?_))
  · have := outAddr_range hs.hw_legal (hc.trans_le hs.ch_le) (hi.trans_le hn)
    omega
  · have := dlAddr_range (hw := s.hw) (hc.trans_le hs.ch_le) (hj.trans_le hs.cap_le)
    omega

/-- The delay words of absent channels and beyond N are out of a render's reach. -/
theorem renderCore_dl_idle {s : State} {n : Nat} (hs : StorageOk s) (hn : n ≤ s.hw.maxFrames) {c j : Nat}
    (hc : c < s.hw.maxChannels) (hj : j < s.hw.maxCapacity) (hidle : s.ch ≤ c ∨ s.cap ≤ j) :
    dlWord (renderCore n s) c j = dlWord s c j := by
  obtain ⟨-, -, -, hbytes⟩ := renderCore_effect hs hn
  have hdl := dlAddr_range (hw := s.hw) hc hj
  unfold dlWord
  rw [renderCore_hw]
  refine readWord_congr fun b h1 h2 => hbytes b (fun c' i hc' hi hin => ?_) fun c' j' hc' hj' hin => ?_
  · have := outAddr_range hs.hw_legal (hc'.trans_le hs.ch_le) (hi.trans_le hn)
    omega
  · have := dlAddr_disjoint (hw := s.hw) (c := c') (c' := c) (hj'.trans_le hs.cap_le) hj (by omega)
    omega

/-- A render sets the increment from a rate in range (41_lfo.md R153). -/
theorem renderCore_rate_range {s : State} (h : s.Inv) (n : Nat) : inRange .rate (readControls n s).1.rate := by
  rw [readControls_values]
  exact (smootherInv_readControls h.smoothers_ok n .rate).cur_range

/-- RENDER keeps the invariant: it stores to mapped words only, moves the cursors of the present channels together, steps the
phase by a finite increment and each smoother by SM_FRAME or SM_FINAL. -/
theorem inv_renderCore {s : State} (h : s.Inv) {n : Nat} (hn : n ≤ s.hw.maxFrames) (hconf : s.configured = true) :
    (renderCore n s).Inv := by
  have hs := h.storageOk hconf
  have hcfg := h.config hconf
  obtain ⟨hstorage, -, hcur, -⟩ := renderCore_effect hs hn
  exact
    { hw_legal := hstorage.hw_legal
      mem_wf := hstorage.mem_wf
      mem_mapped := by
        rw [mapped_iff_readByte hstorage.mem_wf, renderCore_hw]
        intro a ha
        rw [renderCore_unmapped hs hn ha]
        exact (mapped_iff_readByte hs.mem_wf).1 h.mem_mapped a ha
      cursors_length := hstorage.cursors_length
      unconfigured := fun e => by rw [renderCore_configured, hconf] at e; cases e
      config := fun _ =>
        { ch_pos := by simpa using hcfg.ch_pos
          ch_le := hstorage.ch_le
          cap_pos := by simpa using hcfg.cap_pos
          cap_le := hstorage.cap_le
          sr_ok := by simpa using hcfg.sr_ok
          maxdly_ok := by simpa using hcfg.maxdly_ok
          spm_eq := by simpa using hcfg.spm_eq
          prod_finite := by simpa using hcfg.prod_finite
          cap_eq := by simpa using hcfg.cap_eq
          cursor_lt := hstorage.cursor_lt }
      cursors_equal := fun c hc => by
        rw [renderCore_ch] at hc
        rw [hcur, hcur, if_pos hc, if_pos (Nat.zero_lt_of_lt hc), h.cursors_equal c hc]
      cursors_idle := fun c hc => by
        rw [renderCore_ch] at hc
        rw [hcur, if_neg hc.not_gt, h.cursors_idle c hc]
      dl_idle := fun c j hc hj hidle => by
        simp only [renderCore_hw, renderCore_ch, renderCore_cap] at hc hj hidle
        rw [renderCore_dl_idle hs hn hc hj hidle, h.dl_idle c j hc hj hidle]
      phase_unit := by
        rw [renderCore_phase]
        exact Function.Iterate.rec phaseInUnit h.phase_unit
          (fun p hp => nextPhase_inUnit hp (lfoRateInc_ok (renderCore_rate_range h n) hcfg.sr_ok)) n
      smoothers_ok := fun k => by
        rw [smoother, renderCore_smoothers]
        exact smootherInv_readControls h.smoothers_ok n k }

/-! ## Every step -/

/-- Every command keeps the invariant. -/
theorem CommandEffect.inv {w : Word} {s t : State} (heff : CommandEffect w s t) (h : s.Inv) : t.Inv := by
  cases heff with
  | nothing => exact h
  | error e => apply h.congr <;> simp
  | configure hop hok => exact inv_configuredBy h hok
  | setBoolean b v => apply h.congr <;> simp
  | setScalar k hramp hfin => exact inv_setSmoother h ((h.smoothers_ok k).set _ hramp)
  | render hop hn hc => exact inv_renderCore h hn hc
  | clear => apply h.congr <;> simp
  | reset => exact inv_resetBlock h

/-- The invariant does not speak of the arguments, ERR_BUS, the host's transactions and the observations. -/
theorem State.Inv.withHost {s : State} (h : s.Inv) (rest : List Txn) (arg0 arg1 : Word) (errBus : Bool) (reads : List Word) :
    State.Inv { s with bus := rest, arg0 := arg0, arg1 := arg1, errBus := errBus, reads := reads } :=
  h.congr rfl rfl rfl rfl rfl rfl rfl rfl rfl rfl rfl

theorem State.Inv.withBus {s : State} (h : s.Inv) (rest : List Txn) : State.Inv { s with bus := rest } :=
  h.withHost rest s.arg0 s.arg1 s.errBus s.reads

/-- Settles O49, by cases on the step's effect. -/
theorem stepKeepsInvariant : Obligations.StepKeepsInvariant := by
  unfold Obligations.StepKeepsInvariant
  intro s t h hstep
  cases step_effect hstep with
  | idle => exact h
  | @writeIn c i v rest hc hi => exact inv_setIn (h.withBus rest) hc hi v
  | command hbus heff => exact heff.inv (h.withBus _)
  | _ => exact h.withHost ..

theorem renderCore_inc (n : Nat) (s : State) : (renderCore n s).inc = lfoRateInc (readControls n s).1.rate s.sr := by
  rw [renderCore, renderFrames_inc, readControls_sr]

/-- INC is left, cleared, or set by a render from a rate in range. -/
theorem CommandEffect.inc_ok {w : Word} {s t : State} (heff : CommandEffect w s t) (h : s.Inv) (hi : incOk s.inc) :
    incOk t.inc := by
  cases heff with
  | nothing => exact hi
  | error e => rw [raiseError_inc]; exact hi
  | configure => exact incOk_zero64
  | setBoolean b v => rw [setBool_inc]; exact hi
  | setScalar => exact hi
  | render hop hn hc =>
    rw [renderCore_inc]
    exact lfoRateInc_ok (renderCore_rate_range h _) (h.config hc).sr_ok
  | clear => exact hi
  | reset => exact incOk_zero64

/-- Settles O51: the phase by the invariant, the increment by cases on the step's effect. -/
theorem stepKeepsPhaseInUnit : Obligations.StepKeepsPhaseInUnit := by
  unfold Obligations.StepKeepsPhaseInUnit
  intro s t h hi hstep
  refine ⟨(stepKeepsInvariant s t h hstep).phase_unit, ?_⟩
  cases step_effect hstep with
  | command hbus heff => exact heff.inc_ok (h.withBus _) hi
  | _ => exact hi

/-- Settles O50: no reset value is a NaN, since every buffer word is +0. -/
theorem resetMeetsInvariant : Obligations.ResetMeetsInvariant := by
  unfold Obligations.ResetMeetsInvariant
  have hzero : canonical32 zero32 := fun hnan => by rw [zero32_not_nan] at hnan; cases hnan
  refine ⟨inv_resetWith (by decide), ⟨fun c i _ _ => ?_, fun c j _ _ => ?_⟩, fun e => by cases e <;> rfl, rfl⟩
  · rw [show outWord State.reset c i = zero32 from readWord_nil _]
    exact hzero
  · rw [show dlWord State.reset c j = zero32 from readWord_nil _]
    exact hzero

end Sys2Proof.Machine

/-! SUPPORT. What a step leaves unchanged: the error flags, the host's arguments and inputs, OUT and the delay lines. -/

namespace Sys2Proof.Machine

/-! ## The error flags (10_state.md R44, 60_exceptions.md R283) -/

/-- From s to t no flag is cleared, and at most one is set. -/
def OneFlagMore (s t : State) : Prop :=
  (∀ e, flag s e = true → flag t e = true) ∧
  ∀ e e', flag s e = false → flag t e = true → flag s e' = false → flag t e' = true → e = e'

theorem OneFlagMore.of_eq {s t : State} (h : ∀ e, flag t e = flag s e) : OneFlagMore s t :=
  ⟨fun e he => by rw [h, he], fun e _ h0 h1 _ _ => by rw [h, h0] at h1; cases h1⟩

/-- A step that touches flag f alone, and does not clear it, is such a change. -/
theorem OneFlagMore.of_one {s t : State} (f : ErrFlag) (hf : flag s f = true → flag t f = true)
    (h : ∀ e, e ≠ f → flag t e = flag s e) : OneFlagMore s t := by
  have hnew : ∀ e, flag s e = false → flag t e = true → e = f := fun e h0 h1 => by
    by_contra hne
    rw [h e hne, h0] at h1
    cases h1
  refine ⟨fun e he => ?_, fun e e' h0 h1 h0' h1' => (hnew e h0 h1).trans (hnew e' h0' h1').symm⟩
  by_cases hef : e = f
  · subst hef; exact hf he
  · rw [h e hef, he]

theorem OneFlagMore.raiseError (e : ErrFlag) (s : State) : OneFlagMore s (raiseError e s) :=
  .of_one e (fun _ => by simp [flag_raiseError]) fun e' hne => by simp [flag_raiseError, hne.symm]

theorem flag_renderCore (n : Nat) (s : State) (e : ErrFlag) : flag (renderCore n s) e = flag s e := by
  cases e <;> simp [flag]

theorem flag_setBool (b : BoolId) (v : Bool) (s : State) (e : ErrFlag) : flag (setBool b v s) e = flag s e := by
  cases e <;> simp [flag]

/-- A command word with another opcode than CLRERR's and RESET's clears no flag and sets at most one. -/
theorem CommandEffect.flags {w : Word} {s t : State} (heff : CommandEffect w s t) :
    OneFlagMore s t ∨ (w.toNat / 2 ^ 24 = 4 ∨ w.toNat / 2 ^ 24 = 5) ∧ ∀ e, flag t e = false := by
  cases heff with
  | nothing => exact .inl (.of_eq fun _ => rfl)
  | error e => exact .inl (.raiseError e s)
  | configure => exact .inl (.of_eq fun e => by cases e <;> rfl)
  | setBoolean b v => exact .inl (.of_eq (flag_setBool b v s))
  | setScalar => exact .inl (.of_eq fun e => by cases e <;> rfl)
  | render => exact .inl (.of_eq (flag_renderCore _ s))
  | clear hop => exact .inr ⟨.inl hop, fun e => by cases e <;> rfl⟩
  | reset hop => exact .inr ⟨.inr hop, fun e => by cases e <;> rfl⟩

/-- Settles O54, by cases on the step's effect. -/
theorem errorFlagsAreSticky : Obligations.ErrorFlagsAreSticky := by
  unfold Obligations.ErrorFlagsAreSticky
  intro s t hstep
  have key : OneFlagMore s t ∨
      (∃ w rest, s.bus = .write cmdAddr w :: rest ∧ (w.toNat / 2 ^ 24 = 4 ∨ w.toNat / 2 ^ 24 = 5)) ∧
        ∀ e, flag t e = false := by
    cases step_effect hstep with
    | idle => exact .inl (.of_eq fun _ => rfl)
    | read hbus he =>
      refine .inl (.of_one .bus he fun e hne => ?_)
      cases e with
      | bus => exact absurd rfl hne
      | _ => rfl
    | writeArg0 => exact .inl (.of_eq fun e => by cases e <;> rfl)
    | writeArg1 => exact .inl (.of_eq fun e => by cases e <;> rfl)
    | writeIn => exact .inl (.of_eq fun e => by cases e <;> rfl)
    | @badWrite a v rest hbus => exact .inl (.raiseError .bus { s with bus := rest })
    | command hbus heff =>
      exact heff.flags.imp id fun ⟨hop, hclear⟩ => ⟨⟨_, _, hbus, hop⟩, hclear⟩
  obtain ⟨hkeep, hone⟩ | ⟨hcmd, hclear⟩ := key
  · exact ⟨fun e he => .inl (hkeep e he), hone⟩
  · exact ⟨fun _ _ => .inr hcmd, fun e _ _ he => by rw [hclear e] at he; cases he⟩

/-! ## The host's arguments and inputs (10_state.md R31, R45) -/

/-- ARG0, ARG1 and every element of IN are the same in s and t. -/
def HostInputsKept (s t : State) : Prop :=
  t.arg0 = s.arg0 ∧ t.arg1 = s.arg1 ∧
    ∀ c i, c < s.hw.maxChannels → i < s.hw.maxFrames → inWord t c i = inWord s c i

theorem HostInputsKept.of_mem_eq {s t : State} (h0 : t.arg0 = s.arg0) (h1 : t.arg1 = s.arg1) (hhw : t.hw = s.hw)
    (hmem : t.mem = s.mem) : HostInputsKept s t :=
  ⟨h0, h1, fun c i _ _ => (words_congr hhw hmem).1 c i⟩

/-- No command but RESET writes ARG0, ARG1 or IN. -/
theorem CommandEffect.keeps_host_inputs {w : Word} {s t : State} (heff : CommandEffect w s t) (h : s.Inv)
    (hop : w.toNat / 2 ^ 24 ≠ 5) : HostInputsKept s t := by
  cases heff with
  | nothing => exact .of_mem_eq rfl rfl rfl rfl
  | error e => exact .of_mem_eq (raiseError_arg0 ..) (raiseError_arg1 ..) (raiseError_hw ..) (raiseError_mem ..)
  | configure => exact ⟨rfl, rfl, (applyConfig_words h.hw_legal).1⟩
  | setBoolean b v => exact .of_mem_eq (setBool_arg0 ..) (setBool_arg1 ..) (setBool_hw ..) (setBool_mem ..)
  | setScalar => exact .of_mem_eq rfl rfl rfl rfl
  | render _ hn hc => exact ⟨renderCore_arg0 .., renderCore_arg1 .., (renderCore_effect (h.storageOk hc) hn).2.1⟩
  | clear => exact .of_mem_eq rfl rfl rfl rfl
  | reset hreset => exact absurd hreset hop

/-- Settles O55, by cases on the step's effect: where the inputs are not kept, the step is the host's write. -/
theorem hostOwnsItsInputs : Obligations.HostOwnsItsInputs := by
  unfold Obligations.HostOwnsItsInputs
  intro s t h hstep hreset
  by_cases hkept : HostInputsKept s t
  · obtain ⟨h0, h1, hin⟩ := hkept
    exact ⟨(absurd h0 ·), (absurd h1 ·), fun c i hc hi => (absurd (hin c i hc hi) ·)⟩
  cases step_effect hstep with
  | writeArg0 hbus => exact ⟨fun _ => ⟨_, hbus⟩, (absurd rfl ·), fun _ _ _ _ => (absurd rfl ·)⟩
  | writeArg1 hbus => exact ⟨(absurd rfl ·), fun _ => ⟨_, hbus⟩, fun _ _ _ _ => (absurd rfl ·)⟩
  | @writeIn c i v rest hc hi hbus =>
    refine ⟨(absurd rfl ·), (absurd rfl ·), fun c' i' hc' hi' hne => ⟨rest, ?_⟩⟩
    have hin : inWord (setIn c i v { s with bus := rest }) c' i' = if c' = c ∧ i' = i then v else inWord s c' i' :=
      inWord_setIn (s := { s with bus := rest }) h.mem_wf hi hi'
    split_ifs at hin with heq
    · rw [hin, heq.1, heq.2, hbus]
    · exact absurd hin hne
  | command hbus heff => exact absurd (heff.keeps_host_inputs (h.withBus _) (hreset _ _ hbus)) hkept
  | _ => exact absurd (.of_mem_eq rfl rfl rfl rfl) hkept

/-! ## OUT and the delay lines (10_state.md R38, R46) -/

/-- OUT is written by RENDER and RESET only, the delay lines by these and CONFIGURE. -/
theorem CommandEffect.keeps_out_and_delay {w : Word} {s t : State} (heff : CommandEffect w s t) (h : s.Inv) :
    (w.toNat / 2 ^ 24 = 3 ∨ w.toNat / 2 ^ 24 = 5 ∨
      ∀ c i, c < s.hw.maxChannels → i < s.hw.maxFrames → outWord t c i = outWord s c i) ∧
    (w.toNat / 2 ^ 24 = 1 ∨ w.toNat / 2 ^ 24 = 3 ∨ w.toNat / 2 ^ 24 = 5 ∨ ∀ c j, dlWord t c j = dlWord s c j) := by
  cases heff with
  | nothing => exact ⟨.inr (.inr fun _ _ _ _ => rfl), .inr (.inr (.inr fun _ _ => rfl))⟩
  | error e =>
    obtain ⟨-, hout, hdl⟩ := words_congr (s := s) (t := raiseError e s) (by simp) (by simp)
    exact ⟨.inr (.inr fun c i _ _ => hout c i), .inr (.inr (.inr hdl))⟩
  | configure hop => exact ⟨.inr (.inr (applyConfig_words h.hw_legal).2.1), .inl hop⟩
  | setBoolean b v =>
    obtain ⟨-, hout, hdl⟩ := words_congr (s := s) (t := setBool b v s) (by simp) (by simp)
    exact ⟨.inr (.inr fun c i _ _ => hout c i), .inr (.inr (.inr hdl))⟩
  | setScalar => exact ⟨.inr (.inr fun _ _ _ _ => rfl), .inr (.inr (.inr fun _ _ => rfl))⟩
  | render hop => exact ⟨.inl hop, .inr (.inl hop)⟩
  | clear => exact ⟨.inr (.inr fun _ _ _ _ => rfl), .inr (.inr (.inr fun _ _ => rfl))⟩
  | reset hop => exact ⟨.inr (.inl hop), .inr (.inr (.inl hop))⟩

/-- Settles O56, by cases on the step's effect. -/
theorem onlyCommandsWriteOutAndDelay : Obligations.OnlyCommandsWriteOutAndDelay := by
  unfold Obligations.OnlyCommandsWriteOutAndDelay
  intro s t h hstep
  cases step_effect hstep with
  | @writeIn c i v rest hc hi hbus =>
    constructor
    · intro c' i' hc' hi' hne
      exact absurd (outWord_setIn (s := { s with bus := rest }) h.hw_legal h.mem_wf hc hi hc' hi') hne
    · intro c' j hc' hj hne
      exact absurd (dlWord_setIn (s := { s with bus := rest }) h.hw_legal h.mem_wf hc hi hc' hj) hne
  | command hbus heff =>
    obtain ⟨hout, hdl⟩ := heff.keeps_out_and_delay (h.withBus _)
    constructor
    · intro c i hc hi hne
      refine ⟨_, _, hbus, hout.imp_right (Or.resolve_right · fun hkeep => ?_)⟩
      exact hne (hkeep c i hc hi)
    · intro c j hc hj hne
      refine ⟨_, _, hbus, hdl.imp_right (Or.imp_right (Or.resolve_right · fun hkeep => ?_))⟩
      exact hne (hkeep c j)
  | _ => exact ⟨fun _ _ _ _ => (absurd rfl ·), fun _ _ _ _ => (absurd rfl ·)⟩

end Sys2Proof.Machine

/-! SUPPORT. What one transaction does at any address, aligned or not, mapped or not; the obligations on the address map. -/

namespace Sys2Proof.Machine

/-! ## What a read shows -/

/-- The word a read of an aligned address shows, by what the address decodes to; none where it decodes to nothing
(46_host_bus.md R260). -/
def shownWord (s : State) : Target → Option Word
  | .reg r => some (readReg s r)
  | .inBuf c i => some (inWord s c i)
  | .outBuf c i => some (outWord s c i)
  | .dl c j => some (dlWord s c j)
  | .none => none

theorem shownWord_eq_none {s : State} {d : Target} : shownWord s d = none ↔ d = .none := by
  cases d <;> simp [shownWord]

/-- No address shows the host's transactions or its observations. -/
theorem shownWord_host (s : State) (pending : List Txn) (observed : List Word) (d : Target) :
    shownWord { s with bus := pending, reads := observed } d = shownWord s d := by
  cases d with
  | reg r => cases r <;> rfl
  | _ => rfl

theorem hostRead_shown {s : State} {a w : Word} (ha : a.toNat % 4 = 0)
    (hw : shownWord s (decodeAddr s.hw a.toNat) = some w) : hostRead a s = (w, s) := by
  unfold hostRead
  rw [if_neg (by simp [aligned, ha])]
  generalize decodeAddr s.hw a.toNat = d at hw ⊢
  cases d with
  | none => cases hw
  | _ => cases hw; rfl

/-! ## One transaction -/

section Transactions

variable {s : State} {a v : Word} {rest : List Txn}

/-- A read that shows a word changes nothing but the observation (20_memory.md R89). -/
theorem step_read_shown {w : Word} (hbus : s.bus = .read a :: rest) (ha : a.toNat % 4 = 0)
    (hw : shownWord s (decodeAddr s.hw a.toNat) = some w) :
    step s = .next { s with bus := rest, reads := s.reads ++ [w] } := by
  rw [step_cons hbus, transact, hostRead_shown ha ((shownWord_host s rest s.reads _).trans hw)]

theorem step_read_misaligned (hbus : s.bus = .read a :: rest) (ha : a.toNat % 4 ≠ 0) :
    step s = .next { s with bus := rest, errBus := true, reads := s.reads ++ [0#32] } := by
  rw [step_cons hbus, transact, hostRead, if_pos (by simp [aligned, ha])]
  rfl

theorem step_write_misaligned (hbus : s.bus = .write a v :: rest) (ha : a.toNat % 4 ≠ 0) :
    step s = .next { s with bus := rest, errBus := true } := by
  rw [step_write hbus, hostWrite, if_pos (by simp [aligned, ha])]
  rfl

theorem step_write_none (hbus : s.bus = .write a v :: rest) (ha : a.toNat % 4 = 0)
    (hd : decodeAddr s.hw a.toNat = .none) : step s = .next { s with bus := rest, errBus := true } := by
  rw [step_write hbus, hostWrite, if_neg (by simp [aligned, ha])]
  simp only [hd]
  rfl

end Transactions

/-! ## The address map (20_memory.md R82) -/

/-- Addresses of OUT are bus addresses: aligned, and below 2^32. -/
theorem toNat_outAddr {hw : Params} {c i : Nat} (hl : hw.Legal) (hc : c < hw.maxChannels) (hi : i < hw.maxFrames) :
    (BitVec.ofNat 32 (outAddr hw c i)).toNat = outAddr hw c i ∧ outAddr hw c i % 4 = 0 := by
  obtain ⟨-, h1, h2⟩ := outAddr_range hl hc hi
  have h3 : dlBase < 2 ^ 32 := by decide
  refine ⟨by rw [BitVec.toNat_ofNat, Nat.mod_eq_of_lt (by omega)], ?_⟩
  rw [outAddr, outBase]
  omega

/-- Addresses of the DL view are bus addresses: aligned, and within the window of 20_memory.md R83. -/
theorem toNat_dlAddr {hw : Params} {c j : Nat} (hl : hw.Legal) (hc : c < hw.maxChannels) (hj : j < hw.maxCapacity) :
    (BitVec.ofNat 32 (dlAddr hw c j)).toNat = dlAddr hw c j ∧ dlAddr hw c j % 4 = 0 ∧
      0x00400000 ≤ dlAddr hw c j ∧ dlAddr hw c j < 0x00800000 := by
  obtain ⟨-, -, -, -, -, -, -, hfit⟩ := hl
  obtain ⟨h1, h2⟩ := dlAddr_range hc hj
  have h3 : dlBase = 0x00400000 := rfl
  refine ⟨by rw [BitVec.toNat_ofNat, Nat.mod_eq_of_lt (by omega)], ?_, by omega, by omega⟩
  rw [dlAddr, dlBase]
  omega

/-- Above the register block, only the decoded parts of the three windows decode to anything (20_memory.md R82, R83). -/
theorem decodeAddr_unmapped {hw : Params} {a : Nat} (hlo : 0x1000 ≤ a) (h : ¬ mappedByte hw a) :
    decodeAddr hw a = .none := by
  simp only [mappedByte, inBase, outBase, dlBase, not_or] at h
  obtain ⟨hin, hout, hdl⟩ := h
  unfold decodeAddr
  rw [if_neg (by omega)]
  split
  · exact if_neg (by omega)
  split
  · exact if_neg (by omega)
  split
  · exact if_neg (by omega)
  · rfl

/-! ## Obligations: misaligned and unmapped accesses -/

/-- Settles O10: alignment is checked before the address is decoded, so nothing else is looked at. -/
theorem misalignedTransaction : Obligations.MisalignedTransaction := by
  unfold Obligations.MisalignedTransaction
  intro s rest a v h4
  exact ⟨(step_read_misaligned · h4), (step_write_misaligned · h4)⟩

/-- Settles O12: an unmapped address decodes to nothing. -/
theorem unmappedAddress : Obligations.UnmappedAddress := by
  unfold Obligations.UnmappedAddress
  intro s rest a v h4 hlo hmap
  have hd : decodeAddr s.hw a.toNat = .none := decodeAddr_unmapped hlo hmap
  exact ⟨(step_read_none · h4 hd), (step_write_none · h4 hd)⟩

/-! ## Obligations: what the windows read as -/

/-- Settles O14: the address of DL[c][j] decodes to the slot, and the DL window holds no writable target. -/
theorem delayLineView : Obligations.DelayLineView := by
  unfold Obligations.DelayLineView
  intro s rest c j v hl hc hj
  obtain ⟨haddr, h4, hlo, hhi⟩ := toNat_dlAddr hl hc hj
  constructor
  · intro hbus
    refine step_read_shown hbus (by rw [haddr]; exact h4) ?_
    rw [haddr, decodeAddr_dlAddr hl hc hj, shownWord]
  · intro hbus
    exact step_write_error hbus (by omega) (by omega)

/-- Settles O15: the addresses of IN[c][i] and OUT[c][i] decode to the elements. -/
theorem bufferReads : Obligations.BufferReads := by
  unfold Obligations.BufferReads
  intro s rest c i hl hc hi
  constructor
  · intro hbus
    obtain ⟨haddr, h4⟩ := toNat_inAddr hl hc hi
    refine step_read_shown hbus (by rw [haddr]; exact h4) ?_
    rw [haddr, decodeAddr_inAddr hl hc hi, shownWord]
  · intro hbus
    obtain ⟨haddr, h4⟩ := toNat_outAddr hl hc hi
    refine step_read_shown hbus (by rw [haddr]; exact h4) ?_
    rw [haddr, decodeAddr_outAddr hl hc hi, shownWord]

/-! ## Obligation: reads are idempotent -/

/-- Settles O21: whether a read is an error depends on the address alone, and what it shows does not depend on the transactions
and observations, the only fields that a read without error changes. -/
theorem readsAreIdempotent : Obligations.ReadsAreIdempotent := by
  unfold Obligations.ReadsAreIdempotent
  intro s rest a hbus
  by_cases h4 : a.toNat % 4 = 0
  · cases hw : shownWord s (decodeAddr s.hw a.toNat) with
    | none =>
      have hd : decodeAddr s.hw a.toNat = .none := shownWord_eq_none.1 hw
      exact ⟨0#32, true, fun _ => rfl, step_read_none hbus h4 hd, step_read_none rfl h4 hd⟩
    | some w =>
      refine ⟨w, s.errBus, id, step_read_shown hbus h4 hw, step_read_shown rfl h4 ?_⟩
      exact (shownWord_host s (.read a :: rest) (s.reads ++ [w]) _).trans hw
  · exact ⟨0#32, true, fun _ => rfl, step_read_misaligned hbus h4, step_read_misaligned rfl h4⟩

end Sys2Proof.Machine

/-! SUPPORT. What CONFIGURE and SET_PARAM answer, by their checks; which commands are idempotent. -/

namespace Sys2Proof.Machine

/-! ## CONFIGURE and SET_PARAM by their checks (45_commands.md R232 to R234) -/

section Checks

variable {chn pid ramp : Nat} {s t : State}

theorem execConfigure_accepted (hok : ConfigureOk chn s) : execConfigure chn s = .next (configuredBy chn s) := by
  obtain ⟨-, -, -, -, -, -, he⟩ | ⟨hfail, -⟩ := execConfigure_cases chn s
  · exact he
  · obtain ⟨h1, h2, h3, h4, h5, h6⟩ := hok
    obtain h | h | h | h | h | h := hfail
    · omega
    · omega
    · exact absurd h3 h
    · exact absurd h4 h
    · exact absurd h5 (by rw [h]; decide)
    · omega

theorem execConfigure_rejected (hbad : ¬ ConfigureOk chn s) : execConfigure chn s = .next (raiseError .cfg s) := by
  obtain ⟨h1, h2, h3, h4, h5, h6, -⟩ | ⟨-, he⟩ := execConfigure_cases chn s
  · exact absurd ⟨h1, h2, h3, h4, h5, h6⟩ hbad
  · exact he

/-- The checks of CONFIGURE read ARG0, ARG1 and the implementation parameters only. -/
theorem ConfigureOk.congr (hok : ConfigureOk chn s) (hhw : t.hw = s.hw) (h0 : t.arg0 = s.arg0) (h1 : t.arg1 = s.arg1) :
    ConfigureOk chn t where
  chn_pos := hok.chn_pos
  chn_le := by rw [hhw]; exact hok.chn_le
  sr_ok := by rw [h0]; exact hok.sr_ok
  md_ok := by rw [h1]; exact hok.md_ok
  prod_finite := by rw [h0, h1]; exact hok.prod_finite
  cap_le := by rw [h0, h1, hhw]; exact hok.cap_le

theorem execSetp_reserved (hp : paramOfPid pid = .reserved) : execSetp pid ramp s = .next (raiseError .param s) := by
  rw [execSetp, hp]

theorem execSetp_boolean {b : BoolId} (hp : paramOfPid pid = .boolean b) :
    execSetp pid ramp s = .next (setBool b (argBool s) s) := by
  rw [execSetp, hp]

theorem execSetp_scalar {k : ScalarId} (hp : paramOfPid pid = .scalar k) :
    execSetp pid ramp s =
      if isFinite32 s.arg0 then .next (smSet k s.arg0 ramp s) else .next (raiseError .param s) := by
  rw [execSetp, hp]
  rfl

end Checks

/-! ## Updates done twice -/

theorem raiseError_twice (e : ErrFlag) (s : State) : raiseError e (raiseError e s) = raiseError e s := by
  cases e <;> rfl

theorem setBool_twice (b : BoolId) (v : Bool) (s : State) : setBool b v (setBool b v s) = setBool b v s := by
  cases b <;> rfl

theorem putSmoother_twice (ss : Smoothers) (k : ScalarId) (sm sm' : Smoother) :
    putSmoother (putSmoother ss k sm) k sm' = putSmoother ss k sm' := by
  cases k <;> rfl

/-- With no ramp, SM_SET does not depend on the smoother it replaces (42_smoother.md R171). -/
theorem smootherSet_no_ramp (k : ScalarId) (v : F32) (sm : Smoother) :
    smootherSet k v 0 sm = { tgt := clampP k v, cur := clampP k v, step := zero32, rem := 0 } := by
  rw [smootherSet, if_pos rfl]

theorem smSet_no_ramp_twice (k : ScalarId) (v : F32) (s : State) : smSet k v 0 (smSet k v 0 s) = smSet k v 0 s := by
  simp only [smSet, smootherSet_no_ramp, setSmoother, putSmoother_twice]

theorem clearRange_twice (m : Memory) (lo hi : Nat) : clearRange (clearRange m lo hi) lo hi = clearRange m lo hi := by
  simp [clearRange, List.filter_filter]

/-- An accepted CONFIGURE overwrites all it stores, and does not change what it reads. -/
theorem configuredBy_twice (chn : Nat) (s : State) : configuredBy chn (configuredBy chn s) = configuredBy chn s := by
  simp only [configuredBy, applyConfig, lfoReset, dlClear, clearRange_twice]

/-! ## Obligation: the idempotent commands (20_memory.md R97) -/

theorem execConfigure_twice {chn : Nat} {s t : State} (h : execConfigure chn s = .next t) :
    execConfigure chn t = .next t := by
  by_cases hok : ConfigureOk chn s
  · rw [execConfigure_accepted hok] at h
    cases h
    have hok' : ConfigureOk chn (configuredBy chn s) := hok.congr rfl rfl rfl
    rw [execConfigure_accepted hok', configuredBy_twice]
  · rw [execConfigure_rejected hok] at h
    cases h
    have hbad : ¬ ConfigureOk chn (raiseError .cfg s) := fun hok' => hok (hok'.congr rfl rfl rfl)
    rw [execConfigure_rejected hbad, raiseError_twice]

theorem execSetp_no_ramp_twice {pid : Nat} {s t : State} (h : execSetp pid 0 s = .next t) :
    execSetp pid 0 t = .next t := by
  cases hp : paramOfPid pid with
  | reserved =>
    rw [execSetp_reserved hp] at h
    cases h
    rw [execSetp_reserved hp, raiseError_twice]
  | boolean b =>
    rw [execSetp_boolean hp] at h
    cases h
    rw [execSetp_boolean hp, argBool, setBool_arg0]
    exact congrArg _ (setBool_twice ..)
  | scalar k =>
    rw [execSetp_scalar hp] at h ⊢
    by_cases hf : isFinite32 s.arg0 = true
    · rw [if_pos hf] at h
      cases h
      exact (if_pos hf).trans (congrArg _ (smSet_no_ramp_twice ..))
    · rw [if_neg hf] at h
      cases h
      exact (if_neg hf).trans (congrArg _ (raiseError_twice ..))

/-- Settles O37, by command: what each stores, and whether it is accepted, depends only on what it leaves unchanged. -/
theorem idempotentCommands : Obligations.IdempotentCommands := by
  unfold Obligations.IdempotentCommands
  rintro i s t (rfl | rfl | rfl | ⟨chn, rfl⟩ | ⟨pid, rfl⟩) h
  · rfl
  · cases h
    rfl
  · cases h
    rfl
  · exact execConfigure_twice h
  · exact execSetp_no_ramp_twice h

end Sys2Proof.Machine

/-! SUPPORT. The decoder and the encoder, opcode by opcode and field by field; the obligations on them. -/

namespace Sys2Proof.Machine

/-! ## What the decoder makes of each opcode (30_encoding.md R101 to R106) -/

section Decoder

variable {w : Word}

theorem field_zero (w : Word) (hi : Nat) : field w hi 0 = w.toNat % 2 ^ (hi + 1) := by
  rw [field, pow_zero, Nat.div_one, Nat.sub_zero]

theorem decode_eq_nop (hop : w.toNat / 2 ^ 24 = 0) : decode w = .command .nop := by
  simp only [decode, opcodeOf_eq, hop]

theorem decode_eq_configure (hop : w.toNat / 2 ^ 24 = 1) : decode w = .command (.configure (w.toNat % 2 ^ 8)) := by
  simp only [decode, opcodeOf_eq, hop]
  rw [field_zero]

theorem decode_eq_setp (hop : w.toNat / 2 ^ 24 = 2) :
    decode w = .command (.setp (w.toNat % 2 ^ 4) (w.toNat / 2 ^ 4 % 2 ^ 20)) := by
  simp only [decode, opcodeOf_eq, hop]
  rw [field_zero, field]

theorem decode_eq_render (hop : w.toNat / 2 ^ 24 = 3) :
    decode w = .command (.render (w.toNat % 2 ^ 16) (w.toNat / 2 ^ 16 % 2 ^ 8)) := by
  simp only [decode, opcodeOf_eq, hop]
  rw [field_zero, field]

theorem decode_eq_clrerr (hop : w.toNat / 2 ^ 24 = 4) : decode w = .command .clrerr := by
  simp only [decode, opcodeOf_eq, hop]

theorem decode_eq_reset (hop : w.toNat / 2 ^ 24 = 5) : decode w = .command .reset := by
  simp only [decode, opcodeOf_eq, hop]

theorem decode_eq_reserved (hop : 6 ≤ w.toNat / 2 ^ 24) : decode w = .reserved (w.toNat / 2 ^ 24) := by
  rw [decode, opcodeOf_eq]
  split
  case h_7 => rfl
  all_goals omega

/-- The rows of the opcode table, and the reserved class. -/
theorem opcode_cases (w : Word) :
    w.toNat / 2 ^ 24 = 0 ∨ w.toNat / 2 ^ 24 = 1 ∨ w.toNat / 2 ^ 24 = 2 ∨ w.toNat / 2 ^ 24 = 3 ∨
    w.toNat / 2 ^ 24 = 4 ∨ w.toNat / 2 ^ 24 = 5 ∨ 6 ≤ w.toNat / 2 ^ 24 := by omega

end Decoder

/-- Settles O3, by the decoder's row for each opcode. -/
theorem decodeByOpcodeAlone : Obligations.DecodeByOpcodeAlone := by
  unfold Obligations.DecodeByOpcodeAlone
  exact fun w => ⟨decode_eq_nop, decode_eq_configure, decode_eq_setp, decode_eq_render, decode_eq_clrerr, decode_eq_reset,
    decode_eq_reserved⟩

/-- Settles O8: such a word decodes to the reserved class, for which the dispatch raises ERR_CMD. -/
theorem reservedOpcodeOnlySetsErrCmd : Obligations.ReservedOpcodeOnlySetsErrCmd := by
  unfold Obligations.ReservedOpcodeOnlySetsErrCmd
  intro s rest w hbus hop
  rw [step_command hbus, cmdDispatch, decode_eq_reserved hop]
  rfl

/-! ## The word of a well-formed command (30_encoding.md R100, R113) -/

section Encoder

variable {i : Instr} {w : Word}

theorem opcode_lt (i : Instr) : opcode i < 2 ^ 8 := by
  cases i <;> rw [opcode] <;> decide

theorem wellFormed_configure {chn : Nat} : (Instr.configure chn).WellFormed ↔ chn < 2 ^ 8 := by
  rw [Instr.WellFormed, Instr.check, decide_eq_true_iff]

theorem wellFormed_setp {pid ramp : Nat} : (Instr.setp pid ramp).WellFormed ↔ pid < 2 ^ 4 ∧ ramp < 2 ^ 20 := by
  rw [Instr.WellFormed, Instr.check, Bool.and_eq_true, decide_eq_true_iff, decide_eq_true_iff]

theorem wellFormed_render {nfr bus : Nat} : (Instr.render nfr bus).WellFormed ↔ nfr < 2 ^ 16 ∧ bus < 2 ^ 8 := by
  rw [Instr.WellFormed, Instr.check, Bool.and_eq_true, decide_eq_true_iff, decide_eq_true_iff]

/-- The fields of a well-formed command leave the opcode byte clear. -/
theorem body_lt (h : i.WellFormed) : body i < 2 ^ 24 := by
  cases i with
  | configure chn =>
    rw [wellFormed_configure] at h
    rw [body]; omega
  | setp pid ramp =>
    rw [wellFormed_setp] at h
    rw [body]; omega
  | render nfr bus =>
    rw [wellFormed_render] at h
    rw [body]; omega
  | nop | clrerr | reset => decide

/-- The word of a well-formed command is the one with its opcode in the top byte and its body below. -/
theorem encode_eq_iff (h : i.WellFormed) :
    encode i = w ↔ w.toNat / 2 ^ 24 = opcode i ∧ w.toNat % 2 ^ 24 = body i := by
  have hbody := body_lt h
  have hop := opcode_lt i
  rw [← BitVec.toNat_inj, encode, BitVec.toNat_ofNat]
  omega

end Encoder

/-- Settles O1: the opcode byte of the encoded word selects the command's own row, and its body holds the fields. -/
theorem decodeOfEncode : Obligations.DecodeOfEncode := by
  unfold Obligations.DecodeOfEncode
  intro i h
  obtain ⟨hop, hbody⟩ := (encode_eq_iff h).1 rfl
  cases i with
  | nop => exact decode_eq_nop hop
  | configure chn =>
    rw [wellFormed_configure] at h
    rw [body] at hbody
    rw [decode_eq_configure hop, show (encode (.configure chn)).toNat % 2 ^ 8 = chn by omega]
  | setp pid ramp =>
    rw [wellFormed_setp] at h
    rw [body] at hbody
    rw [decode_eq_setp hop, show (encode (.setp pid ramp)).toNat % 2 ^ 4 = pid by omega,
      show (encode (.setp pid ramp)).toNat / 2 ^ 4 % 2 ^ 20 = ramp by omega]
  | render nfr bus =>
    rw [wellFormed_render] at h
    rw [body] at hbody
    rw [decode_eq_render hop, show (encode (.render nfr bus)).toNat % 2 ^ 16 = nfr by omega,
      show (encode (.render nfr bus)).toNat / 2 ^ 16 % 2 ^ 8 = bus by omega]
  | clrerr => exact decode_eq_clrerr hop
  | reset => exact decode_eq_reset hop

/-! ## Masks that keep the opcode byte and some low bits (30_encoding.md R110) -/

section Masks

variable {w m : Word}

theorem div_and_mask (hm : m.toNat / 2 ^ 24 = 2 ^ 8 - 1) : (w &&& m).toNat / 2 ^ 24 = w.toNat / 2 ^ 24 := by
  rw [BitVec.toNat_and, Nat.and_div_two_pow, hm, Nat.and_two_pow_sub_one_eq_mod]
  omega

theorem mod_and_mask {k : Nat} (hk : k ≤ 24) (hm : m.toNat % 2 ^ 24 = 2 ^ k - 1) :
    (w &&& m).toNat % 2 ^ 24 = w.toNat % 2 ^ k := by
  rw [BitVec.toNat_and, Nat.and_mod_two_pow, hm, Nat.and_two_pow_sub_one_eq_mod,
    Nat.mod_mod_of_dvd _ (Nat.pow_dvd_pow 2 hk)]

end Masks

/-- How many low bits the fields of a command fill: the rest of the 24 are ignored, RENDER's BUS being kept (R110, R113). -/
def bodyWidth : Instr → Nat
  | .nop | .clrerr | .reset => 0
  | .configure _ => 8
  | .setp _ _ | .render _ _ => 24

theorem bodyWidth_le (i : Instr) : bodyWidth i ≤ 24 := by
  cases i <;> rw [bodyWidth] <;> decide

theorem meaningfulBits_top (i : Instr) : (meaningfulBits i).toNat / 2 ^ 24 = 2 ^ 8 - 1 := by
  cases i <;> rw [meaningfulBits] <;> rfl

theorem meaningfulBits_low (i : Instr) : (meaningfulBits i).toNat % 2 ^ 24 = 2 ^ bodyWidth i - 1 := by
  cases i <;> rw [meaningfulBits, bodyWidth] <;> rfl

theorem examinedBits_top (op : Nat) : (examinedBits op).toNat / 2 ^ 24 = 2 ^ 8 - 1 := by
  unfold examinedBits
  split <;> rfl

/-- A word with the opcode of command i and its fields in the low bits is the word of i but for the ignored bits. -/
theorem encode_eq_and_meaningfulBits {w : Word} {i : Instr} (hi : i.WellFormed) (hop : w.toNat / 2 ^ 24 = opcode i)
    (hbody : w.toNat % 2 ^ bodyWidth i = body i) : encode i = w &&& meaningfulBits i :=
  (encode_eq_iff hi).2 ⟨(div_and_mask (meaningfulBits_top i)).trans hop,
    (mod_and_mask (bodyWidth_le i) (meaningfulBits_low i)).trans hbody⟩

/-- Settles O2, by opcode: the fields fill 0, 8 or all 24 of the bits below the opcode. -/
theorem encodeOfDecode : Obligations.EncodeOfDecode := by
  unfold Obligations.EncodeOfDecode
  intro w i h
  obtain hop | hop | hop | hop | hop | hop | hop := opcode_cases w
  · cases (decode_eq_nop hop).symm.trans h
    exact ⟨rfl, encode_eq_and_meaningfulBits rfl hop (Nat.mod_one _)⟩
  · cases (decode_eq_configure hop).symm.trans h
    have hi := wellFormed_configure.2 (Nat.mod_lt w.toNat (by decide : 0 < 2 ^ 8))
    exact ⟨hi, encode_eq_and_meaningfulBits hi hop rfl⟩
  · cases (decode_eq_setp hop).symm.trans h
    have hi := wellFormed_setp.2 ⟨Nat.mod_lt w.toNat (by decide), Nat.mod_lt (w.toNat / 2 ^ 4) (by decide)⟩
    refine ⟨hi, encode_eq_and_meaningfulBits hi hop ?_⟩
    rw [body, bodyWidth]; omega
  · cases (decode_eq_render hop).symm.trans h
    have hi := wellFormed_render.2 ⟨Nat.mod_lt w.toNat (by decide), Nat.mod_lt (w.toNat / 2 ^ 16) (by decide)⟩
    refine ⟨hi, encode_eq_and_meaningfulBits hi hop ?_⟩
    rw [body, bodyWidth]; omega
  · cases (decode_eq_clrerr hop).symm.trans h
    exact ⟨rfl, encode_eq_and_meaningfulBits rfl hop (Nat.mod_one _)⟩
  · cases (decode_eq_reset hop).symm.trans h
    exact ⟨rfl, encode_eq_and_meaningfulBits rfl hop (Nat.mod_one _)⟩
  · rw [decode_eq_reserved hop] at h
    cases h

/-- Settles O4: the opcode is among the examined bits, so both words take one row, and agree on the fields it reads; RENDER does
not read BUS. -/
theorem ignoredBitsHaveNoEffect : Obligations.IgnoredBitsHaveNoEffect := by
  unfold Obligations.IgnoredBitsHaveNoEffect
  intro w w' s h
  have hop' : w'.toNat / 2 ^ 24 = w.toNat / 2 ^ 24 := by
    rw [← div_and_mask (w := w') (examinedBits_top _), ← h, div_and_mask (examinedBits_top _)]
  have hlow {k : Nat} (hk : k ≤ 24) (hm : (examinedBits (w.toNat / 2 ^ 24)).toNat % 2 ^ 24 = 2 ^ k - 1) :
      w.toNat % 2 ^ k = w'.toNat % 2 ^ k := by
    rw [← mod_and_mask hk hm, h, mod_and_mask hk hm]
  unfold cmdDispatch
  obtain hop | hop | hop | hop | hop | hop | hop := opcode_cases w
  · rw [decode_eq_nop hop, decode_eq_nop (hop'.trans hop)]
  · rw [decode_eq_configure hop, decode_eq_configure (hop'.trans hop), hlow (k := 8) (by decide) (by rw [hop]; rfl)]
  · have := hlow (k := 24) (by decide) (by rw [hop]; rfl)
    rw [show w = w' from BitVec.eq_of_toNat_eq (by omega)]
  · rw [decode_eq_render hop, decode_eq_render (hop'.trans hop), hlow (k := 16) (by decide) (by rw [hop]; rfl)]
    rfl
  · rw [decode_eq_clrerr hop, decode_eq_clrerr (hop'.trans hop)]
  · rw [decode_eq_reset hop, decode_eq_reset (hop'.trans hop)]
  · rw [decode_eq_reserved hop, decode_eq_reserved (hop'.symm ▸ hop)]

/-! ## The assembler's words: the fields or-ed together (30_encoding.md R113) -/

theorem ofNat_shiftLeft (n a k : Nat) : BitVec.ofNat n (a <<< k) = BitVec.ofNat n a <<< k :=
  BitVec.eq_of_toNat_eq (by simp [Nat.shiftLeft_eq])

/-- Two fields side by side: adding them is or-ing them at their places. -/
theorem ofNat_mul_two_pow_add (n a : Nat) {b k : Nat} (hb : b < 2 ^ k) :
    BitVec.ofNat n (a * 2 ^ k + b) = BitVec.ofNat n a <<< k ||| BitVec.ofNat n b := by
  rw [← Nat.shiftLeft_eq, Nat.shiftLeft_add_eq_or_of_lt hb, BitVec.ofNat_or, ofNat_shiftLeft]

theorem encode_eq_or {i : Instr} (h : i.WellFormed) :
    encode i = BitVec.ofNat 32 (opcode i) <<< 24 ||| BitVec.ofNat 32 (body i) :=
  ofNat_mul_two_pow_add 32 (opcode i) (body_lt h)

/-- Settles O5: the opcode word or-ed with the body, whose fields are or-ed at their places. -/
theorem assembledCommandWords : Obligations.AssembledCommandWords := by
  unfold Obligations.AssembledCommandWords
  refine ⟨rfl, rfl, rfl, fun chn hchn => ?_, fun pid ramp hpid hramp => ?_, fun nfr bus hnfr hbus => ?_⟩
  · rw [encode_eq_or (wellFormed_configure.2 hchn), opcode, body]
    rfl
  · rw [encode_eq_or (wellFormed_setp.2 ⟨hpid, hramp⟩), opcode, body, ofNat_mul_two_pow_add 32 ramp hpid,
      ← BitVec.or_assoc]
    rfl
  · rw [encode_eq_or (wellFormed_render.2 ⟨hnfr, hbus⟩), opcode, body, ofNat_mul_two_pow_add 32 bus hnfr,
      ← BitVec.or_assoc]
    rfl

end Sys2Proof.Machine

/-! SUPPORT. The delay line: the clamp of the tap, the two slots a read interpolates, and the store; the obligations on them. -/

namespace Sys2Proof.Machine

/-! ## The store (40_delay_line.md R132) -/

/-- Settles O38: the store is one word at the slot's address, and the cursor is one entry of the list. -/
theorem delayLineWrite : Obligations.DelayLineWrite := by
  unfold Obligations.DelayLineWrite
  intro s c v hw hc
  have hcur : ∀ c', cursor (dlWrite c v s) c' = if c' = c then (cursor s c + 1) % s.cap else cursor s c' := fun c' =>
    cursor_setCursor c _ c' (setDl c (cursor s c) v s) hc
  refine ⟨readWord_writeWord_same _ _ _ hw, (hcur c).trans (if_pos rfl), fun c' hne => (hcur c').trans (if_neg hne),
    fun a ha => ?_, rfl⟩
  exact (readByte_writeWord _ _ a _ hw).trans (if_neg ha)

/-! ## Equal values -/

theorem eq32_iff (x y : F32) : eq32 x y = true ↔ isNaN32 x = false ∧ isNaN32 y = false ∧ order32 x = order32 y := by
  simp [eq32, and_assoc]

theorem eq32_refl {x : F32} (h : isNaN32 x = false) : eq32 x x = true := (eq32_iff x x).2 ⟨h, h, rfl⟩

theorem eq32_trans {x y z : F32} (hxy : eq32 x y = true) (hyz : eq32 y z = true) : eq32 x z = true := by
  obtain ⟨hx, -, h1⟩ := (eq32_iff x y).1 hxy
  obtain ⟨-, hz, h2⟩ := (eq32_iff y z).1 hyz
  exact (eq32_iff x z).2 ⟨hx, hz, h1.trans h2⟩

/-- Equal values have equal magnitudes, so one is finite where the other is. -/
theorem finite_of_eq32 {x y : F32} (h : eq32 x y = true) (hy : isFinite32 y = true) : isFinite32 x = true := by
  obtain ⟨-, -, horder⟩ := (eq32_iff x y).1 h
  have hunits := congrArg Int.natAbs horder
  rw [natAbs_order32, natAbs_order32] at hunits
  rw [finite32_iff, ← not_le, ← magUnits_le_iff binary32, hunits, magUnits_le_iff, not_le]
  exact (finite32_iff y).1 hy

/-- On the values without a sign `≤` is antisymmetric bit for bit. -/
theorem eq_of_le32_nonneg {x y : F32} (hx : x.msb = false) (hy : y.msb = false) (hxy : le32 x y = true)
    (hyx : le32 y x = true) : x = y := by
  obtain ⟨nx, ny, -⟩ := (le32_iff x y).1 hxy
  exact ext32 (hx.trans hy.symm)
    (le_antisymm ((le32_nonneg hx hy nx ny).1 hxy) ((le32_nonneg hy hx ny nx).1 hyx))

theorem sub32_self {x : F32} (h : isFinite32 x = true) : sub32 x x = zero32 := by
  rw [sub32_finite h h, if_pos (Int.sub_self _), Bool.and_not_self]
  exact eq_zero32 (msb_pack32 _ _ (by omega)) (mag_pack_zero32 _)

/-! ## The clamp of the tap (40_delay_line.md R131) -/

section Clamp

variable {cap : Nat} {t : F32}

theorem clampTap_not_pos (h : isNaN32 t = true ∨ le32 t zero32 = true) : clampTap cap t = zero32 :=
  if_pos (by simpa using h)

/-- A tap of [0, N-1] is kept, bit for bit. -/
theorem clampTap_of_le (hm : t.msb = false) (ht : le32 t (toF32 (cap - 1)) = true) : clampTap cap t = t := by
  obtain ⟨hn, -, -⟩ := (le32_iff _ _).1 ht
  by_cases h0 : le32 t zero32 = true
  · have hz : le32 zero32 t = true :=
      (le32_nonneg zero32_msb hm zero32_not_nan hn).2 (by rw [mag_zero32]; exact Nat.zero_le _)
    rw [clampTap_not_pos (.inr h0)]
    exact eq_of_le32_nonneg zero32_msb hm hz h0
  · unfold clampTap
    rw [if_neg (by simp [hn, h0])]
    split_ifs with h1
    · exact eq_of_le32_nonneg (toF32_msb _) hm h1 ht
    · rfl

/-- A tap at or above N-1 is taken for N-1; so is one at or below 0, where N-1 is 0. -/
theorem clampTap_of_ge (ht : le32 (toF32 (cap - 1)) t = true) : clampTap cap t = toF32 (cap - 1) := by
  obtain ⟨hn, hn', -⟩ := (le32_iff _ _).1 ht
  by_cases h0 : le32 t zero32 = true
  · have hz : le32 zero32 (toF32 (cap - 1)) = true :=
      (le32_nonneg zero32_msb (toF32_msb _) zero32_not_nan hn).2 (by rw [mag_zero32]; exact Nat.zero_le _)
    rw [clampTap_not_pos (.inr h0)]
    exact eq_of_le32_nonneg zero32_msb (toF32_msb _) hz (le32_trans ht h0)
  · unfold clampTap
    rw [if_neg (by simp [hn', h0]), if_pos ht]

end Clamp

/-- DL_READ sees its tap through the clamp only. -/
theorem dlRead_of_clampTap_eq {s : State} {c : Nat} {t t' : F32} (h : clampTap s.cap t = clampTap s.cap t') :
    dlRead c t s = dlRead c t' s := by
  unfold dlRead
  rw [h]

/-- Settles O40: both taps of each clause clamp to the same value. -/
theorem tapIsClampedToTheRing : Obligations.TapIsClampedToTheRing := by
  unfold Obligations.TapIsClampedToTheRing
  intro s c t
  refine ⟨fun h => dlRead_of_clampTap_eq ?_, fun h => dlRead_of_clampTap_eq ?_⟩
  · rw [clampTap_not_pos h, clampTap_not_pos (.inr le_zero_zero32)]
  · obtain ⟨hn, -, -⟩ := (le32_iff _ _).1 h
    rw [clampTap_of_ge h, clampTap_of_ge ((le32_iff _ _).2 ⟨hn, hn, le_rfl⟩)]

/-! ## The two slots a read interpolates (40_delay_line.md R131, R133) -/

/-- The whole part of a value between two consecutive whole numbers. -/
theorem floorNat_of_between {d : Nat} {t : F32} (hd : d + 1 ≤ 2 ^ 24) (hm : t.msb = false)
    (hle : le32 (toF32 d) t = true) (hlt : lt32 t (toF32 (d + 1)) = true) : floorNat t = d := by
  obtain ⟨-, hn, ho⟩ := (le32_iff _ _).1 hle
  obtain ⟨-, -, ho'⟩ := (lt32_iff _ _).1 hlt
  obtain ⟨u, m, -⟩ := toF32_exact (n := d) (by omega)
  obtain ⟨u', m', hf'⟩ := toF32_exact hd
  rw [order32_nonneg m, order32_nonneg hm, u, Int.ofNat_le] at ho
  rw [order32_nonneg m', order32_nonneg hm, u', Int.ofNat_lt] at ho'
  have hfin : isFinite32 t = true := by
    have := (lt32_nonneg hm m' hn (toF32_not_nan _)).1 hlt
    exact (finite32_iff t).2 (this.trans ((finite32_iff _).1 hf'))
  unfold floorNat
  rw [datum32_finite hfin, hm]
  exact (if_neg (by simp)).trans (Nat.div_eq_of_lt_le ho ho')

/-- The word n places behind the cursor of channel c. -/
abbrev wordBehind (s : State) (c n : Nat) : F32 := dlWord s c (slotBehind s.cap (cursor s c) n)

theorem dlRead_between {s : State} {c d : Nat} {t : F32} (hcap : s.cap ≤ 2 ^ 24) (hd : d < s.cap) (hm : t.msb = false)
    (hle : le32 (toF32 d) t = true) (hlt : lt32 t (toF32 (d + 1)) = true) (hmax : le32 t (toF32 (s.cap - 1)) = true) :
    dlRead c t s = interpolate (sub32 t (toF32 d)) (wordBehind s c d) (wordBehind s c (d + 1)) := by
  unfold dlRead
  dsimp only
  rw [clampTap_of_le hm hmax, floorNat_of_between (by omega) hm hle hlt]

/-- Whole numbers of slots compare as taps as they do as naturals. -/
theorem le32_toF32 {m n : Nat} (h : m ≤ n) (hn : n ≤ 2 ^ 24) : le32 (toF32 m) (toF32 n) = true := by
  obtain ⟨u, hm, -⟩ := toF32_exact (n := m) (h.trans hn)
  obtain ⟨u', hm', -⟩ := toF32_exact hn
  refine (le32_iff _ _).2 ⟨toF32_not_nan _, toF32_not_nan _, ?_⟩
  rw [order32_nonneg hm, order32_nonneg hm', u, u', Int.ofNat_le]
  exact Nat.mul_le_mul_right _ h

theorem lt32_toF32 {m n : Nat} (h : m < n) (hn : n ≤ 2 ^ 24) : lt32 (toF32 m) (toF32 n) = true := by
  obtain ⟨u, hm, -⟩ := toF32_exact (n := m) (h.le.trans hn)
  obtain ⟨u', hm', -⟩ := toF32_exact hn
  refine (lt32_iff _ _).2 ⟨toF32_not_nan _, toF32_not_nan _, ?_⟩
  rw [order32_nonneg hm, order32_nonneg hm', u, u', Int.ofNat_lt]
  exact Nat.mul_lt_mul_of_pos_right h (Nat.two_pow_pos _)

/-- A whole tap has the fraction +0. -/
theorem dlRead_toF32 {s : State} {c d : Nat} (hcap : s.cap ≤ 2 ^ 24) (hd : d < s.cap) :
    dlRead c (toF32 d) s = interpolate zero32 (wordBehind s c d) (wordBehind s c (d + 1)) := by
  rw [dlRead_between hcap hd (toF32_msb d) (le32_toF32 le_rfl (by omega)) (lt32_toF32 (by omega) (by omega))
    (le32_toF32 (by omega) (by omega)), sub32_self (toF32_exact (by omega)).2.2]

theorem one_sub_zero32 : sub32 one32 zero32 = one32 := by decide +kernel

/-- Weight 0 on a finite neighbour leaves y0, numerically. -/
theorem interpolate_zero {y0 y1 : F32} (h0 : isNaN32 y0 = false) (h1 : isFinite32 y1 = true) :
    eq32 (interpolate zero32 y0 y1) y0 = true := by
  rw [interpolate, one_sub_zero32, mul32_one_left h0]
  exact (add32_zero_right h0 (mul32_zero zero32_finite h1 (.inl mag_zero32)).1).1

/-- Weight 0 on an infinity or a NaN is a NaN (40_delay_line.md R131, corner case 4). -/
theorem mul32_zero_not_finite {y : F32} (h : isFinite32 y = false) : mul32 zero32 y = nan32 := by
  unfold mul32
  rw [datum32_finite zero32_finite, mag_zero32, magUnits_zero]
  rcases cases32 y with h' | h' | h'
  · rw [datum32_nan h']; exact round32_nan
  · rw [datum32_inf h']; exact round32_nan
  · rw [h] at h'; cases h'

theorem datum32_nan32 : datum32 nan32 = .nan := datum32_nan (by decide +kernel)

theorem add32_nan_right (x : F32) : add32 x nan32 = nan32 := by
  unfold add32
  rw [datum32_nan32]
  cases datum32 x <;> exact round32_nan

theorem interpolate_zero_not_finite (y0 : F32) {y1 : F32} (h1 : isFinite32 y1 = false) :
    interpolate zero32 y0 y1 = nan32 := by
  rw [interpolate, mul32_zero_not_finite h1, add32_nan_right]

/-- Settles O39: the whole part of the tap is d, and at a whole tap the fraction is +0. -/
theorem tapInterpolatesTwoSlots : Obligations.TapInterpolatesTwoSlots := by
  unfold Obligations.TapInterpolatesTwoSlots
  intro s c d hcap hd hcur y0 y1
  have h0 : wordBehind s c d = y0 := by rw [wordBehind, slotBehind_eq hcur hd.le]
  have h1 : wordBehind s c (d + 1) = y1 := by rw [wordBehind, slotBehind_eq hcur hd]
  have hwhole := dlRead_toF32 (c := c) hcap hd
  rw [h0, h1] at hwhole
  refine ⟨fun t hm hle hlt hmax => ?_, fun hn hf => ?_, fun hf => ?_⟩
  · rw [dlRead_between hcap hd hm hle hlt hmax, h0, h1, interpolate]
  · rw [hwhole]; exact interpolate_zero hn hf
  · rw [hwhole]; exact interpolate_zero_not_finite y0 hf

end Sys2Proof.Machine

/-! SUPPORT. The LFO stays finite, depth 0 leaves the tap unmodulated, and a pure delay through the frames of a render. -/

namespace Sys2Proof.Machine

/-! ## The LFO values are finite (41_lfo.md R150 to R152) -/

/-- A finite F64 of magnitude at most k. -/
structure Within (k : Nat) (x : F64) : Prop where
  finite : isFinite64 x = true
  units_le : magUnits binary64 (mag64 x) ≤ k * 2 ^ binary64.unitExp

/-- A whole number of full precision is an F64. -/
theorem exists_mag_whole {k : Nat} (hk : k ≤ 2 ^ 53) :
    ∃ g, g < infMag binary64 ∧ magUnits binary64 g = k * 2 ^ binary64.unitExp := by
  obtain ⟨g, hg⟩ := exists_mag binary64 k binary64.unitExp hk
  refine ⟨g, ?_, hg⟩
  rw [← not_le, ← magUnits_le_iff binary64, hg, not_le]
  exact (Nat.mul_le_mul_right _ hk).trans_lt (by decide +kernel)

theorem natAbs_order64 (x : F64) : (order64 x).natAbs = magUnits binary64 (mag64 x) := by
  unfold order64 signed
  split <;> simp

section Within

variable {j k : Nat} {x y : F64}

/-- To lie within k it is enough to be finite and at most the encoding of k. -/
theorem within_of_le_mag (hk : k ≤ 2 ^ 53)
    (h : ∀ g, g < infMag binary64 → magUnits binary64 g = k * 2 ^ binary64.unitExp →
      isFinite64 x = true ∧ mag64 x ≤ g) : Within k x := by
  obtain ⟨g, hg, hu⟩ := exists_mag_whole hk
  obtain ⟨hf, hm⟩ := h g hg hu
  exact ⟨hf, hu ▸ magUnits_le binary64 hm⟩

theorem Within.mono (h : Within j x) (hjk : j ≤ k) : Within k x :=
  ⟨h.finite, h.units_le.trans (Nat.mul_le_mul_right _ hjk)⟩

theorem Within.natAbs_order64_le (h : Within k x) : (order64 x).natAbs ≤ k * 2 ^ binary64.unitExp :=
  (natAbs_order64 x).trans_le h.units_le

theorem Within.add (hx : Within j x) (hy : Within k y) (hk : j + k ≤ 2 ^ 53) : Within (j + k) (add64 x y) :=
  within_of_le_mag hk fun g hg hu => add64_le hx.finite hy.finite hg <| by
    rw [hu, Nat.add_mul]
    exact (Int.natAbs_add_le _ _).trans (Nat.add_le_add hx.natAbs_order64_le hy.natAbs_order64_le)

theorem Within.sub (hx : Within j x) (hy : Within k y) (hk : j + k ≤ 2 ^ 53) : Within (j + k) (sub64 x y) :=
  within_of_le_mag hk fun g hg hu => sub64_le hx.finite hy.finite hg <| by
    rw [hu, Nat.add_mul]
    exact (Int.natAbs_sub_le _ _).trans (Nat.add_le_add hx.natAbs_order64_le hy.natAbs_order64_le)

theorem Within.mul (hx : Within j x) (hy : Within k y) (hk : j * k ≤ 2 ^ 53) : Within (j * k) (mul64 x y) :=
  within_of_le_mag hk fun g hg hu => mul64_le hx.finite hy.finite hg <|
    (Nat.mul_le_mul hx.units_le hy.units_le).trans_eq <|
      show _ = magUnits binary64 g * 2 ^ binary64.unitExp by rw [hu]; ring

theorem Within.abs (hx : Within k x) : Within k (abs64 x) := by
  obtain ⟨hm, -⟩ := abs64_mag x
  exact ⟨by rw [finite64_iff, hm, ← finite64_iff]; exact hx.finite, by rw [hm]; exact hx.units_le⟩

/-- A value of magnitude at most 2^24 narrows to a finite F32. -/
theorem Within.cvt64To32_finite (hx : Within k x) (hk : k ≤ 2 ^ 24) : isFinite32 (cvt64To32 x) = true := by
  obtain ⟨hu, -, hf⟩ := toF32_exact hk
  unfold cvt64To32
  rw [datum64_finite hx.finite]
  refine (round32_le (Nat.two_pow_pos _) ((finite32_iff _).1 hf) (hx.units_le.trans_eq ?_)).1
  rw [hu, Nat.mul_assoc, ← pow_add]
  rfl

end Within

theorem within_one64 : Within 1 one64 := ⟨by decide +kernel, by decide +kernel⟩
theorem within_half64 : Within 1 half64 := ⟨by decide +kernel, by decide +kernel⟩
theorem within_quarter64 : Within 1 quarter64 := ⟨by decide +kernel, by decide +kernel⟩
theorem within_four64 : Within 4 four64 := ⟨by decide +kernel, by decide +kernel⟩

theorem within_of_phaseInUnit {p : F64} (h : phaseInUnit p) : Within 1 p := by
  obtain ⟨-, hm⟩ := (phaseInUnit_iff p).1 h
  refine ⟨by rw [finite64_iff, infMag64]; omega, le_trans (magUnits_le binary64 ?_) within_one64.units_le⟩
  rw [mag_one64]
  exact hm.le

theorem lfoValue_finite_of_within {p : F64} (h : Within 3 p) : isFinite32 (lfoValue p) = true :=
  (within_one64.sub (within_four64.mul (h.sub within_half64 (by decide)).abs (by decide)) (by decide)).cvt64To32_finite
    (by decide)

theorem lfoValue_finite {p : F64} (h : phaseInUnit p) : isFinite32 (lfoValue p) = true :=
  lfoValue_finite_of_within ((within_of_phaseInUnit h).mono (by decide))

theorem lfoQuad_finite {p : F64} (h : phaseInUnit p) : isFinite32 (lfoQuad p) = true := by
  have hq : Within 2 (add64 p quarter64) := (within_of_phaseInUnit h).add within_quarter64 (by decide)
  refine lfoValue_finite_of_within (p := quadPhase p) ?_
  unfold quadPhase
  dsimp only
  split
  · exact hq.sub within_one64 (by decide)
  · exact hq.mono (by decide)

/-! ## Depth 0 (43_tap_calculator.md R190, R191) -/

section Tap

variable {maxdly spm delay l : F32}

/-- The delay clamped at use is a finite value without a sign, and not above MAXDLY. -/
theorem clampDelay_ok (hf : isFinite32 maxdly = true) (hm : maxdly.msb = false) (hn : isNaN32 delay = false)
    (hd : delay.msb = false) :
    isFinite32 (clampDelay maxdly delay) = true ∧ (clampDelay maxdly delay).msb = false ∧
      mag32 (clampDelay maxdly delay) ≤ mag32 maxdly := by
  have hmax := not_nan_of_finite32 hf
  unfold clampDelay
  split_ifs with h
  · exact ⟨hf, hm, le_rfl⟩
  · have hle := (le32_nonneg hd hm hn hmax).1 (le32_of_not_le hmax hn (by simpa using h))
    exact ⟨(finite32_iff _).2 (hle.trans_lt ((finite32_iff _).1 hf)), hd, hle⟩

theorem variance_zero_depth (hf : isFinite32 maxdly = true) (hm : maxdly.msb = false) (hn : isNaN32 delay = false)
    (hd : delay.msb = false) : variance maxdly delay zero32 = zero32 := by
  obtain ⟨cf, cm, cle⟩ := clampDelay_ok hf hm hn hd
  obtain ⟨sf, sm, -⟩ := sub32_nonneg hf cf hm cm cle
  obtain ⟨pm, ps⟩ := mul32_zero sf zero32_finite (.inr mag_zero32)
  obtain ⟨-, qm, qs⟩ := div32_two_le (finite_of_zero32 pm)
  exact eq_zero32 (qs.trans (by rw [ps, sm, zero32_msb]; rfl)) (Nat.le_zero.1 (qm.trans_eq pm))

/-- With depth 0 the tap is the clamped delay in samples, whatever the LFO. -/
theorem tap_zero_depth (hf : isFinite32 maxdly = true) (hm : maxdly.msb = false) (hn : isNaN32 delay = false)
    (hd : delay.msb = false) (hl : isFinite32 l = true) :
    tap spm (center maxdly delay zero32) (variance maxdly delay zero32) l = mul32 (clampDelay maxdly delay) spm := by
  obtain ⟨cf, cm, -⟩ := clampDelay_ok hf hm hn hd
  have hlv := (mul32_zero hl zero32_finite (.inr mag_zero32)).1
  rw [tap, center, variance_zero_depth hf hm hn hd, add32_zero_nonneg cf cm mag_zero32, add32_zero_nonneg cf cm hlv]

theorem tapOfChannel_zero_depth (hf : isFinite32 maxdly = true) (hm : maxdly.msb = false) (hn : isNaN32 delay = false)
    (hd : delay.msb = false) {p : F64} (hp : phaseInUnit p) (odd : Bool) (c : Nat) :
    tapOfChannel (tapPair spm (center maxdly delay zero32) (variance maxdly delay zero32) (lfoValue p) (lfoQuad p) odd) c =
      mul32 (clampDelay maxdly delay) spm := by
  rw [tapPair, tap_zero_depth hf hm hn hd (lfoValue_finite hp), tap_zero_depth hf hm hn hd (lfoQuad_finite hp), ite_self,
    tapOfChannel, ite_self]

end Tap

/-! ## The parameters with no ramp pending (42_smoother.md R176) -/

/-- A smoother at rest answers its target in both regimes. -/
theorem cur_of_settled {k : ScalarId} {sm : Smoother} (h : SmootherInv k sm) (hrem : sm.rem = 0) (n : Nat) :
    (if n = 1 then smootherFrame k sm else smootherFinal sm).cur = sm.tgt := by
  split_ifs
  · rw [smootherFrame, if_pos hrem]
    exact (h.settled hrem).1
  · rfl

theorem readControls_of_noRamp {s : State} (h : s.Inv) (hr : noRamp s) (n : Nat) :
    (readControls n s).1 =
      { rate := (smoother s .rate).tgt, delay := (smoother s .delay).tgt, depth := (smoother s .depth).tgt,
        feedback := (smoother s .feedback).tgt, dryMix := (smoother s .dryMix).tgt,
        wetMix := (smoother s .wetMix).tgt } := by
  have hcur : ∀ k, (smoother (readControls n s).2 k).cur = (smoother s k).tgt := fun k => by
    rw [smoother_readControls]
    exact cur_of_settled (h.smoothers_ok k) (hr k) n
  rw [readControls_values]
  simp only [hcur]

/-! ## The mixer without feedback, wet only (44_render_engine.md R204) -/

section Mix

variable {x d : F32}

theorem mag_signedFeedback_zero (negfb : Bool) : mag32 (signedFeedback negfb zero32) = 0 := by
  cases negfb <;> decide +kernel

theorem mixWrite_no_feedback (hx : isNaN32 x = false) (hd : isFinite32 d = true) (negfb : Bool) :
    eq32 (mixWrite x d (signedFeedback negfb zero32)) x = true := by
  have hfb := mag_signedFeedback_zero negfb
  exact (add32_zero_right hx (mul32_zero (finite_of_zero32 hfb) hd (.inl hfb)).1).1

theorem mixOut_wet_only (hx : isFinite32 x = true) (hd : isNaN32 d = false) : eq32 (mixOut x d zero32 one32) d = true := by
  rw [mixOut, mul32_one_left hd]
  exact (add32_zero_right hd (mul32_zero zero32_finite hx (.inl mag_zero32)).1).1

end Mix

/-! ## The ring as a queue of past inputs (40_delay_line.md R133) -/

/-- As the cursor moves on, each slot lies one place further behind it. -/
theorem slotBehind_succ (cap w a : Nat) : slotBehind cap ((w + 1) % cap) (a + 1) = slotBehind cap w a := by
  unfold slotBehind
  rw [Int.natCast_emod, Int.emod_sub_emod]
  congr 2
  push_cast
  ring

theorem slotBehind_zero {cap w : Nat} (hw : w < cap) : slotBehind cap w 0 = w := by
  rw [slotBehind_eq hw (Nat.zero_le _), Nat.sub_zero, Nat.add_mod_right, Nat.mod_eq_of_lt hw]

/-- The slots 1 to N-1 places behind the cursor are not the one under it. -/
theorem slotBehind_ne {cap w a : Nat} (hw : w < cap) (h1 : 1 ≤ a) (ha : a < cap) : slotBehind cap w a ≠ w := by
  rw [slotBehind_eq hw ha.le]
  rcases Nat.lt_or_ge w a with h | h
  · rw [Nat.mod_eq_of_lt (by omega)]; omega
  · rw [Nat.mod_eq_sub_mod (by omega), Nat.mod_eq_of_lt (by omega)]; omega

/-- What a frame makes of the ring of channel c: the value written is one place behind the cursor, the others move on by one. -/
theorem wordBehind_frameStep {t : State} {c b m : Nat} (ctr var fb dry wet : F32) (odd : Bool) (ok : StorageOk t)
    (hm : m < t.hw.maxFrames) (hc : c < t.ch) (hb : b < t.cap) :
    wordBehind (frameStep ctr var fb dry wet odd m t) c (b + 1) =
      if b = 0 then
        mixWrite (inWord t c m)
          (dlRead c (tapOfChannel (tapPair t.spm ctr var (lfoValue t.phase) (lfoQuad t.phase) odd) c) t)
          (signedFeedback t.negfb fb)
      else wordBehind t c b := by
  obtain ⟨-, -, -, hdl, hcursor, -⟩ := frameStep_effect ctr var fb dry wet odd ok hm
  have hw := ok.cursor_lt c
  have hslot : slotBehind t.cap (cursor t c) b < t.hw.maxCapacity := (slotBehind_lt _ _ (by omega)).trans_le ok.cap_le
  rw [wordBehind, frameStep_cap, hcursor, if_pos hc, slotBehind_succ, hdl c _ (hc.trans_le ok.ch_le) hslot]
  rcases Nat.eq_zero_or_pos b with rfl | hpos
  · rw [if_pos ⟨hc, slotBehind_zero hw⟩, if_pos rfl]
  · rw [if_neg fun e => slotBehind_ne hw hpos hb e.2, if_neg hpos.ne']

/-- The input of channel c that lies a frames before frame m of a render from s: +0 before the first. -/
def inputBefore (s : State) (c m a : Nat) : F32 := if a ≤ m then inWord s c (m - a) else zero32

theorem inputBefore_succ (s : State) (c m a : Nat) : inputBefore s c (m + 1) (a + 1) = inputBefore s c m a := by
  simp [inputBefore]

theorem inputBefore_zero (s : State) (c m : Nat) : inputBefore s c m 0 = inWord s c m := by simp [inputBefore]

theorem inputBefore_finite {s : State} {n c m a : Nat} (hin : ∀ i, i < n → isFinite32 (inWord s c i) = true)
    (hm : m < n) : isFinite32 (inputBefore s c m a) = true := by
  unfold inputBefore
  split
  · exact hin _ (by omega)
  · exact zero32_finite

/-- What holds of the state after m frames of a render from s at a constant tap d, with feedback 0 and only the wet signal: the ring
holds the inputs of the last N frames, and each output is the input d frames before it. -/
structure DelayedBy (d : Nat) (s : State) (m : Nat) (t : State) : Prop where
  inc_ok : incOk t.inc
  phase_ok : phaseInUnit t.phase
  input : ∀ c i, c < s.ch → i < s.hw.maxFrames → inWord t c i = inWord s c i
  ring : ∀ c a, c < s.ch → 1 ≤ a → a ≤ s.cap → eq32 (wordBehind t c a) (inputBefore s c m a) = true
  output : ∀ c i, c < s.ch → i < m → eq32 (outWord t c i) (inputBefore s c i d) = true

section Frame

variable {d m n : Nat} {s t : State}

/-- At a whole tap of 1 to N-1 the read gives the input d frames before. -/
theorem DelayedBy.read {c : Nat} (h : DelayedBy d s m t) (hcap : t.cap ≤ 2 ^ 24) (ecap : t.cap = s.cap)
    (hc : c < s.ch) (h1 : 1 ≤ d) (hd : d < s.cap) (hin : ∀ a, isFinite32 (inputBefore s c m a) = true) :
    eq32 (dlRead c (toF32 d) t) (inputBefore s c m d) = true := by
  have hy0 := h.ring c d hc h1 hd.le
  have hy1 := h.ring c (d + 1) hc (by omega) hd
  rw [dlRead_toF32 hcap (by omega)]
  exact eq32_trans (interpolate_zero ((eq32_iff _ _).1 hy0).1 (finite_of_eq32 hy1 (hin _))) hy0

/-- One frame at the constant tap d: the input joins the ring, and the output is the one d frames before. -/
theorem DelayedBy.frame {ctr var : F32} {odd : Bool} (h : DelayedBy d s m t) (ok : StorageOk t) (ehw : t.hw = s.hw)
    (ech : t.ch = s.ch) (ecap : t.cap = s.cap) (hm : m < n) (hn : n ≤ s.hw.maxFrames) (h1 : 1 ≤ d) (hd : d < s.cap)
    (hin : ∀ c i, c < s.ch → i < n → isFinite32 (inWord s c i) = true)
    (htap : ∀ c, tapOfChannel (tapPair t.spm ctr var (lfoValue t.phase) (lfoQuad t.phase) odd) c = toF32 d) :
    DelayedBy d s (m + 1) (frameStep ctr var zero32 zero32 one32 odd m t) := by
  have hmf : m < t.hw.maxFrames := hm.trans_le (hn.trans_eq (congrArg Params.maxFrames ehw.symm))
  have hmax : ∀ {c}, c < s.ch → c < t.hw.maxChannels := fun hc => (ech ▸ hc : _ < t.ch).trans_le ok.ch_le
  obtain ⟨-, -, -, -, -, hcap, -⟩ := ok.hw_legal
  obtain ⟨-, hinput, hout, -⟩ := frameStep_effect ctr var zero32 zero32 one32 odd ok hmf
  simp only [htap] at hout
  have hx : ∀ c, c < s.ch → inWord t c m = inWord s c m := fun c hc => h.input c m hc (hm.trans_le hn)
  have hread : ∀ c, c < s.ch → eq32 (dlRead c (toF32 d) t) (inputBefore s c m d) = true := fun c hc =>
    h.read (ok.cap_le.trans hcap) ecap hc h1 hd fun a => inputBefore_finite (hin c · hc) hm
  refine
    { inc_ok := by rw [frameStep_inc]; exact h.inc_ok
      phase_ok := by rw [frameStep_phase]; exact nextPhase_inUnit h.phase_ok h.inc_ok
      input := fun c i hc hi => (hinput c i (hmax hc) (ehw ▸ hi)).trans (h.input c i hc hi)
      ring := fun c a hc ha1 ha => ?_
      output := fun c i hc hi => ?_ }
  · obtain ⟨b, rfl⟩ := Nat.exists_eq_add_of_le' ha1
    rw [wordBehind_frameStep _ _ _ _ _ _ ok hmf (ech ▸ hc) (by omega), inputBefore_succ, htap]
    split_ifs with hb
    · have hfin := finite_of_eq32 (hread c hc) (inputBefore_finite (hin c · hc) hm)
      rw [hb, inputBefore_zero, hx c hc]
      exact mixWrite_no_feedback (not_nan_of_finite32 (hin c m hc hm)) hfin _
    · exact h.ring c b hc (by omega) (by omega)
  · rw [hout c i (hmax hc) (by omega), ech]
    split_ifs with e
    · rw [hx c hc, e.2]
      exact eq32_trans (mixOut_wet_only (hin c m hc hm) ((eq32_iff _ _).1 (hread c hc)).1) (hread c hc)
    · exact h.output c i hc (by omega)

end Frame

/-! ## Obligation: the pure delay (40_delay_line.md R133) -/

/-- A RENDER of 1 to MAX_FRAMES frames is accepted once CONFIGURED is 1 (45_commands.md R235). -/
theorem exec_render_accepted {s : State} {n : Nat} (bus : Nat) (hconf : s.configured = true) (h1 : 1 ≤ n)
    (hn : n ≤ s.hw.maxFrames) : exec (.render n bus) s = .next (renderCore n s) := by
  show execRender n s = _
  unfold execRender
  rw [if_neg hn.not_gt, if_neg (by omega), if_neg (by rw [hconf]; decide)]

/-- Settles O59, by induction over the frames: the tap is d at each of them, so `DelayedBy` holds throughout. -/
theorem pureDelay : Obligations.PureDelay := by
  unfold Obligations.PureDelay
  intro s n bus d h hconf hn1 hn hr hphase hwet hdry hfb hdepth h1 hd hdelay hin hring
  have hcfg := h.config hconf
  have hstore := h.storageOk hconf
  have hcontrols := readControls_of_noRamp h hr n
  obtain ⟨hmf, hmm⟩ := hcfg.maxdly_ok
  obtain ⟨hdf, hdm, -⟩ := (h.smoothers_ok .delay).tgt_range
  have key : DelayedBy d s n (renderCore n s) := by
    refine renderCore_induct hstore hn (DelayedBy d s) ?_ fun m t hm ok ehw ech ecap _ espm _ hq => ?_
    · exact
        { inc_ok := by rw [lfoSetRate_inc, readControls_sr]; exact lfoRateInc_ok (renderCore_rate_range h n) hcfg.sr_ok
          phase_ok := by rw [lfoSetRate_phase, readControls_phase]; exact hphase
          input := fun c i _ _ => by rw [inWord_lfoSetRate, inWord_readControls]
          ring := fun c a hc ha1 ha => by
            rw [wordBehind, dlWord_lfoSetRate, dlWord_readControls, lfoSetRate_cap, readControls_cap,
              hring c _ hc (slotBehind_lt _ _ hcfg.cap_pos), inputBefore, if_neg (by omega)]
            exact eq32_refl zero32_not_nan
          output := fun _ _ _ hi => absurd hi (Nat.not_lt_zero _) }
    · rw [coreFrame, hcontrols, hwet, hdry, hfb, hdepth]
      refine hq.frame ok ehw ech ecap hm hn h1 hd hin fun c => ?_
      rw [espm, tapOfChannel_zero_depth hmf hmm (not_nan_of_finite32 hdf) hdm hq.phase_ok, hdelay]
  refine ⟨_, exec_render_accepted bus hconf hn1 hn, fun c i hc hi => ⟨fun hlt => ?_, fun hle => ?_⟩⟩
  · simpa only [inputBefore, if_neg hlt.not_ge] using key.output c i hc hi
  · simpa only [inputBefore, if_pos hle] using key.output c i hc hi

end Sys2Proof.Machine

/-! SUPPORT. The LFO's waveform: the two slopes of the triangle, its range, and the quadrature phase; the obligations on the LFO. -/

namespace Sys2Proof.Machine

/-! ## Obligation: the increment (41_lfo.md R154) -/

/-- Settles O42: the wrap takes the whole part off a finite sum, and that is exact. -/
theorem incrementKeepsPhaseInUnit : Obligations.IncrementKeepsPhaseInUnit := by
  unfold Obligations.IncrementKeepsPhaseInUnit
  exact fun _ _ hp hf hs => nextPhase_inUnit hp ⟨hf, hs⟩

/-! ## Sums and differences of F64 values by their order -/

section Difference

variable {x y c : F64}

theorem mag64_add64 (hx : isFinite64 x = true) (hy : isFinite64 y = true) :
    mag64 (add64 x y) = roundMag binary64 (order64 x + order64 y).natAbs 1 := by
  rw [add64_finite hx hy]
  split_ifs with h0
  · rw [mag_pack_zero64, h0, Int.natAbs_zero, roundMag_zero]
  · exact mag_round64 _

theorem mag64_sub64 (hx : isFinite64 x = true) (hy : isFinite64 y = true) :
    mag64 (sub64 x y) = roundMag binary64 (order64 x - order64 y).natAbs 1 := by
  rw [sub64_finite hx hy]
  split_ifs with h0
  · rw [mag_pack_zero64, h0, Int.natAbs_zero, roundMag_zero]
  · exact mag_round64 _

theorem mag64_sub64_comm (hx : isFinite64 x = true) (hy : isFinite64 y = true) :
    mag64 (sub64 x y) = mag64 (sub64 y x) := by
  rw [mag64_sub64 hx hy, mag64_sub64 hy hx, ← Int.natAbs_neg, neg_sub]

theorem msb_sub64_of_le (hx : isFinite64 x = true) (hy : isFinite64 y = true) (sx : x.msb = false)
    (h : order64 y ≤ order64 x) : (sub64 x y).msb = false := by
  rw [sub64_finite hx hy]
  split_ifs
  · rw [msb_pack_zero64, sx, Bool.false_and]
  · rw [msb_round64]
    exact decide_eq_false (by omega)

theorem abs64_sub64_of_le (hx : isFinite64 x = true) (hy : isFinite64 y = true) (sx : x.msb = false)
    (h : order64 y ≤ order64 x) : abs64 (sub64 x y) = sub64 x y := by
  obtain ⟨hm, hs⟩ := abs64_mag (sub64 x y)
  exact ext64 (hs.trans (msb_sub64_of_le hx hy sx h).symm) hm

theorem abs64_sub64_of_ge (hx : isFinite64 x = true) (hy : isFinite64 y = true) (sy : y.msb = false)
    (h : order64 x ≤ order64 y) : abs64 (sub64 x y) = sub64 y x := by
  obtain ⟨hm, hs⟩ := abs64_mag (sub64 x y)
  exact ext64 (hs.trans (msb_sub64_of_le hy hx sy h).symm) (hm.trans (mag64_sub64_comm hx hy))

/-- The distance to c from a value in [0, 2c] is at most c. -/
theorem mag64_sub64_le_center (hx : isFinite64 x = true) (hc : isFinite64 c = true) (h0 : 0 ≤ order64 x)
    (h2 : order64 x ≤ 2 * order64 c) : mag64 (sub64 x c) ≤ mag64 c :=
  (sub64_le hx hc ((finite64_iff c).1 hc) (by rw [← natAbs_order64]; omega)).2

theorem le64_or_lt64 (nx : isNaN64 x = false) (ny : isNaN64 y = false) : le64 x y = true ∨ lt64 y x = true := by
  rw [le64_iff, lt64_iff]
  simp only [nx, ny, true_and]
  exact le_or_gt _ _

end Difference

/-! ## The constants of the waveform, in quarters -/

theorem incOk_quarter64 : incOk quarter64 := ⟨within_quarter64.finite, by decide⟩

theorem order64_quarter64_pos : 0 < order64 quarter64 := by decide +kernel
theorem order64_half64 : order64 half64 = 2 * order64 quarter64 := by decide +kernel
theorem order64_threeQuarters : order64 0x3FE8000000000000#64 = 3 * order64 quarter64 := by decide +kernel
theorem order64_one64 : order64 one64 = 4 * order64 quarter64 := by decide +kernel

theorem order64_of_phaseInUnit {p : F64} (h : phaseInUnit p) : 0 ≤ order64 p ∧ order64 p < order64 one64 := by
  obtain ⟨h0, h1, -⟩ := h
  obtain ⟨-, -, h0⟩ := (le64_iff _ _).1 h0
  obtain ⟨-, -, h1⟩ := (lt64_iff _ _).1 h1
  exact ⟨(show 0 = order64 zero64 by decide +kernel).trans_le h0, h1⟩

/-! ## The two slopes of the triangle (41_lfo.md R150, R151) -/

theorem lfoValue_of_lt_half {p : F64} (hp : phaseInUnit p) (h : lt64 p half64 = true) :
    lfoValue p = cvt64To32 (sub64 one64 (mul64 four64 (sub64 half64 p))) := by
  obtain ⟨-, -, h⟩ := (lt64_iff _ _).1 h
  rw [lfoValue, tri64, abs64_sub64_of_ge (within_of_phaseInUnit hp).finite within_half64.finite (by decide) h.le]

theorem lfoValue_of_half_le {p : F64} (hp : phaseInUnit p) (h : le64 half64 p = true) :
    lfoValue p = cvt64To32 (sub64 one64 (mul64 four64 (sub64 p half64))) := by
  obtain ⟨sp, -⟩ := (phaseInUnit_iff p).1 hp
  obtain ⟨-, -, h⟩ := (le64_iff _ _).1 h
  rw [lfoValue, tri64, abs64_sub64_of_le (within_of_phaseInUnit hp).finite within_half64.finite sp h]

/-! ## The range of the readings (41_lfo.md R150, R157 (a)) -/

/-- Four times a distance of at most 0.5 lies in [0, 2]. -/
theorem mul64_four_le_two {x : F64} (hf : isFinite64 x = true) (hs : x.msb = false) (hx : mag64 x ≤ mag64 half64) :
    isFinite64 (mul64 four64 x) = true ∧ 0 ≤ order64 (mul64 four64 x) ∧
      order64 (mul64 four64 x) ≤ 2 * order64 one64 := by
  have hs' : (mul64 four64 x).msb = false := by
    rw [mul64_finite within_four64.finite hf, msb_round64]
    exact (congrArg (_ ^^ ·) hs).trans (by decide)
  obtain ⟨hf', hm⟩ := mul64_le within_four64.finite hf (g := 0x4000000000000000) (by decide +kernel) <|
    (Nat.mul_le_mul_left _ (magUnits_le binary64 hx)).trans (by decide +kernel)
  refine ⟨hf', ?_, ?_⟩ <;> rw [order64_nonneg hs']
  · exact Int.natCast_nonneg _
  · exact (Int.ofNat_le.2 (magUnits_le binary64 hm)).trans (by decide +kernel)

/-- TRI64 lies in [-1, +1]: the distance from the middle of the cycle is at most half of it. -/
theorem within_tri64 {p : F64} (hp : phaseInUnit p) : Within 1 (tri64 p) := by
  obtain ⟨h0, h1⟩ := order64_of_phaseInUnit hp
  have hpf := (within_of_phaseInUnit hp).finite
  have hd : mag64 (sub64 p half64) ≤ mag64 half64 :=
    mag64_sub64_le_center hpf within_half64.finite h0 (by rw [order64_half64]; rw [order64_one64] at h1; omega)
  have hdf : isFinite64 (sub64 p half64) = true :=
    ((within_of_phaseInUnit hp).sub within_half64 (by decide)).finite
  obtain ⟨hm, hs⟩ := abs64_mag (sub64 p half64)
  obtain ⟨hf4, h04, h24⟩ := mul64_four_le_two (by rwa [finite64_iff, hm, ← finite64_iff]) hs (hm.trans_le hd)
  have htri : mag64 (tri64 p) ≤ mag64 one64 :=
    (mag64_sub64_comm within_one64.finite hf4).trans_le (mag64_sub64_le_center hf4 within_one64.finite h04 h24)
  exact ⟨(finite64_iff _).2 (htri.trans_lt ((finite64_iff _).1 within_one64.finite)),
    (magUnits_le binary64 htri).trans within_one64.units_le⟩

/-- Narrowing keeps [-1, +1]. -/
theorem Within.mag32_cvt64To32_le_one {x : F64} (hx : Within 1 x) : mag32 (cvt64To32 x) ≤ mag32 one32 := by
  unfold cvt64To32
  rw [datum64_finite hx.finite]
  exact (round32_le (Nat.two_pow_pos _) ((finite32_iff _).1 one32_finite) (hx.units_le.trans (by decide +kernel))).2

theorem le32_one_of_mag32_le {v : F32} (h : mag32 v ≤ mag32 one32) :
    le32 0xBF800000#32 v = true ∧ le32 v one32 = true := by
  have hv : isNaN32 v = false := (not_nan32_iff v).2 (h.trans ((finite32_iff _).1 one32_finite).le)
  have hunits := magUnits_le binary32 h
  rw [← natAbs_order32, ← natAbs_order32] at hunits
  have hneg : order32 0xBF800000#32 = -order32 one32 := by decide +kernel
  have hpos : 0 ≤ order32 one32 := by decide +kernel
  rw [le32_iff, le32_iff, hneg]
  exact ⟨⟨by decide +kernel, hv, by omega⟩, hv, one32_not_nan, by omega⟩

theorem lfoValue_range {p : F64} (hp : phaseInUnit p) :
    le32 0xBF800000#32 (lfoValue p) = true ∧ le32 (lfoValue p) one32 = true :=
  le32_one_of_mag32_le (within_tri64 hp).mag32_cvt64To32_le_one

/-! ## The quadrature phase (41_lfo.md R152) -/

theorem lfoQuad_eq (p : F64) : lfoQuad p = lfoValue (quadPhase p) := rfl

section Quadrature

variable {p : F64} (hp : phaseInUnit p)

include hp

/-- Below 0.75 the sum stays below 1: the phase before 0.75 reaches the F64 before 1 exactly. -/
theorem add64_quarter_inUnit (h : lt64 p 0x3FE8000000000000#64 = true) : phaseInUnit (add64 p quarter64) := by
  obtain ⟨sp, -⟩ := (phaseInUnit_iff p).1 hp
  have hpf := (within_of_phaseInUnit hp).finite
  have hlast : order64 p ≤ (magUnits binary64 0x3FE7FFFFFFFFFFFF : Int) := by
    rw [order64_nonneg sp]
    have hmag := (lt64_nonneg sp (by decide) (not_nan_of_finite64 hpf) (by decide +kernel)).1 h
    exact Int.ofNat_le.2 (magUnits_le binary64 (Nat.le_sub_one_of_lt hmag))
  have hstep : (magUnits binary64 0x3FE7FFFFFFFFFFFF : Int) + order64 quarter64 = magUnits binary64 0x3FEFFFFFFFFFFFFF := by
    decide +kernel
  obtain ⟨h0, -⟩ := order64_of_phaseInUnit hp
  have hq := order64_quarter64_pos
  obtain ⟨-, hm⟩ := add64_le hpf within_quarter64.finite (g := 0x3FEFFFFFFFFFFFFF) (by decide +kernel) (by omega)
  exact (phaseInUnit_iff _).2 ⟨(add64_phase hp incOk_quarter64).2, by omega⟩

theorem quadPhase_of_lt (h : lt64 p 0x3FE8000000000000#64 = true) : quadPhase p = add64 p quarter64 := by
  obtain ⟨-, hlt, -⟩ := add64_quarter_inUnit hp h
  obtain ⟨-, -, hlt⟩ := (lt64_iff _ _).1 hlt
  exact if_neg fun hle => absurd ((le64_iff _ _).1 hle).2.2 hlt.not_ge

/-- From 0.75 on the sum lies in [1, 1.25]. -/
theorem add64_quarter_order (h : le64 0x3FE8000000000000#64 p = true) :
    order64 one64 ≤ order64 (add64 p quarter64) ∧ order64 (add64 p quarter64) ≤ order64 one64 + order64 quarter64 := by
  obtain ⟨-, -, h⟩ := (le64_iff _ _).1 h
  obtain ⟨-, h1⟩ := order64_of_phaseInUnit hp
  have hpf := (within_of_phaseInUnit hp).finite
  have hq := order64_quarter64_pos
  have hone : order64 one64 = (magUnits binary64 (mag64 one64) : Int) := order64_nonneg one64_msb
  have htop : order64 one64 + order64 quarter64 = magUnits binary64 0x3FF4000000000000 := by decide +kernel
  rw [order64_threeQuarters] at h
  have hquarters := order64_one64
  rw [order64_nonneg (add64_phase hp incOk_quarter64).2, htop, hone, Int.ofNat_le, Int.ofNat_le,
    magUnits_le_iff, magUnits_le_iff]
  constructor
  · rw [mag64_add64 hpf within_quarter64.finite]
    exact le_roundMag _ _ _ _ one_pos ((finite64_iff _).1 within_one64.finite).le (by omega)
  · exact (add64_le hpf within_quarter64.finite (by decide +kernel) (by omega)).2

theorem sub64_one_inUnit (h : le64 0x3FE8000000000000#64 p = true) :
    phaseInUnit (sub64 (add64 p quarter64) one64) := by
  obtain ⟨hlo, hhi⟩ := add64_quarter_order hp h
  obtain ⟨hf, hs⟩ := add64_phase hp incOk_quarter64
  have hquarter : order64 quarter64 = (magUnits binary64 (mag64 quarter64) : Int) := order64_nonneg (by decide)
  obtain ⟨-, hm⟩ := sub64_le hf within_one64.finite ((finite64_iff quarter64).1 within_quarter64.finite) (by omega)
  exact (phaseInUnit_iff _).2 ⟨msb_sub64_of_le hf within_one64.finite hs hlo, hm.trans_lt (by decide +kernel)⟩

theorem quadPhase_of_ge (h : le64 0x3FE8000000000000#64 p = true) :
    quadPhase p = sub64 (add64 p quarter64) one64 := by
  obtain ⟨hf, -⟩ := add64_phase hp incOk_quarter64
  exact if_pos ((le64_iff _ _).2 ⟨one64_not_nan, not_nan_of_finite64 hf, (add64_quarter_order hp h).1⟩)

theorem quadPhase_inUnit : phaseInUnit (quadPhase p) := by
  rcases le64_or_lt64 (x := 0x3FE8000000000000#64) (by decide +kernel)
    (not_nan_of_finite64 (within_of_phaseInUnit hp).finite) with h | h
  · rw [quadPhase_of_ge hp h]
    exact sub64_one_inUnit hp h
  · rw [quadPhase_of_lt hp h]
    exact add64_quarter_inUnit hp h

end Quadrature

/-! ## Obligation: the waveform (41_lfo.md R150 to R152, R157) -/

theorem lfoValue_at_quarters : lfoValue zero64 = 0xBF800000#32 ∧ lfoValue quarter64 = zero32 ∧ lfoValue half64 = one32 ∧
    lfoValue 0x3FE8000000000000#64 = zero32 := by
  decide +kernel

/-- Settles O41: the difference from 0.5 has the sign of its slope, and the quadrature phase is again a phase. -/
theorem lfoWaveform : Obligations.LfoWaveform := by
  unfold Obligations.LfoWaveform
  refine ⟨lfoValue_at_quarters, fun p hp => ⟨lfoValue_of_lt_half hp, lfoValue_of_half_le hp, fun h => ?_, fun h => ?_, ?_⟩⟩
  · exact ⟨add64_quarter_inUnit hp h, by rw [lfoQuad_eq, quadPhase_of_lt hp h]⟩
  · exact ⟨sub64_one_inUnit hp h, by rw [lfoQuad_eq, quadPhase_of_ge hp h]⟩
  · obtain ⟨hlo, hhi⟩ := lfoValue_range hp
    exact ⟨hlo, hhi, lfoValue_range (quadPhase_inUnit hp)⟩

end Sys2Proof.Machine

/-! SUPPORT. CLAMP_P by cases, the end of a ramp, and the parameters at rest; the obligations on the smoother. -/

namespace Sys2Proof.Machine

/-! ## CLAMP_P by the place of its argument (42_smoother.md R170) -/

section ClampP

variable {k : ScalarId} {v : F32}

theorem clampP_of_le_zero (h : le32 v zero32 = true) : clampP k v = zero32 := if_pos h

theorem clampP_of_one_le (hk : unitRange k = true) (h : le32 one32 v = true) : clampP k v = one32 := by
  have hpos : ¬ le32 v zero32 = true := fun h0 => absurd (le32_trans h h0) (by decide +kernel)
  rw [clampP, if_neg hpos, if_pos (by rw [hk, h, Bool.and_self])]

theorem clampP_of_between (hf : isFinite32 v = true) (h0 : ¬ le32 v zero32 = true)
    (h1 : unitRange k = true → ¬ le32 one32 v = true) : clampP k v = v := by
  rw [clampP, if_neg h0, if_neg fun h => ?_, if_pos hf]
  obtain ⟨hk, hone⟩ := Bool.and_eq_true_iff.1 h
  exact h1 hk hone

/-- CLAMP_P keeps a value of the range: the comparisons that answer an end of it hold of that end alone. -/
theorem clampP_of_inRange (h : inRange k v) : clampP k v = v := by
  obtain ⟨hf, hm, hone⟩ := h
  have hn := not_nan_of_finite32 hf
  by_cases h0 : le32 v zero32 = true
  · have hz : le32 zero32 v = true :=
      (le32_nonneg zero32_msb hm zero32_not_nan hn).2 (by rw [mag_zero32]; exact Nat.zero_le _)
    rw [clampP_of_le_zero h0]
    exact eq_of_le32_nonneg zero32_msb hm hz h0
  · by_cases h1 : unitRange k = true ∧ le32 one32 v = true
    · obtain ⟨hk, hle⟩ := h1
      rw [clampP_of_one_le hk hle]
      exact eq_of_le32_nonneg one32_msb hm hle (hone hk)
    · exact clampP_of_between hf h0 fun hk hle => h1 ⟨hk, hle⟩

end ClampP

theorem not_le32_of_lt32 {x y : F32} (h : lt32 x y = true) : ¬ le32 y x = true := fun hle => by
  obtain ⟨-, -, hlt⟩ := (lt32_iff x y).1 h
  obtain ⟨-, -, hle⟩ := (le32_iff y x).1 hle
  exact hle.not_gt hlt

theorem unitRange_of_mem : ∀ k ∈ [ScalarId.depth, .feedback, .dryMix, .wetMix], unitRange k = true := by decide

theorem not_unitRange_of_mem : ∀ k ∈ [ScalarId.rate, .delay], ¬ unitRange k = true := by decide

/-- Settles O43, by the place of v: at or below 0, at or above the upper bound, or between. -/
theorem clampBringsIntoRange : Obligations.ClampBringsIntoRange := by
  unfold Obligations.ClampBringsIntoRange
  intro k v hf
  refine ⟨clampP_range k v, clampP_of_inRange, clampP_of_le_zero, fun hk => ?_, fun hk hlt => ?_⟩
  · exact clampP_of_one_le (unitRange_of_mem k hk)
  · exact clampP_of_between hf (not_le32_of_lt32 hlt) fun hu => absurd hu (not_unitRange_of_mem k hk)

/-! ## The end of a ramp (42_smoother.md R171, R172) -/

theorem smootherFrame_last {k : ScalarId} {sm : Smoother} (h : sm.rem = 1) : smootherFrame k sm = smootherFinal sm := by
  rw [smootherFrame, if_neg (by omega), if_pos h, smootherFinal]

/-- SM_FINAL depends on TGT alone. -/
theorem smootherFinal_congr {sm sm' : Smoother} (h : sm.tgt = sm'.tgt) : smootherFinal sm = smootherFinal sm' := by
  rw [smootherFinal, smootherFinal, h]

/-- As many SM_FRAME calls as REM says complete a pending ramp, just as SM_FINAL does at once. -/
theorem iterate_smootherFrame_rem (k : ScalarId) (n : Nat) (sm : Smoother) (h : sm.rem = n + 1) :
    (smootherFrame k)^[n + 1] sm = smootherFinal sm := by
  induction n generalizing sm with
  | zero => exact smootherFrame_last h
  | succ n ih =>
    rw [Function.iterate_succ_apply, ih _ (by rw [smootherFrame_rem, h, Nat.add_sub_cancel])]
    exact smootherFinal_congr (smootherFrame_tgt k sm)

/-- Settles O44: the R-th step copies TGT, so the sums before it do not matter. -/
theorem rampLandsOnTarget : Obligations.RampLandsOnTarget := by
  unfold Obligations.RampLandsOnTarget
  intro k v ramp sm hramp
  obtain ⟨n, rfl⟩ := Nat.exists_eq_add_of_le' hramp
  rw [iterate_smootherFrame_rem k n _ (smootherSet_rem ..), smootherFinal, smootherSet_tgt]

/-! ## No ramp pending (42_smoother.md R176) -/

theorem smootherFinal_of_settled {k : ScalarId} {sm : Smoother} (h : SmootherInv k sm) (hrem : sm.rem = 0) :
    smootherFinal sm = sm := by
  obtain ⟨hcur, hstep⟩ := h.settled hrem
  cases sm
  rw [smootherFinal, Smoother.mk.injEq]
  exact ⟨rfl, hcur.symm, hstep.symm, hrem.symm⟩

theorem smoothers_ext {ss ss' : Smoothers} (h : ∀ k, getSmoother ss k = getSmoother ss' k) : ss = ss' := by
  cases ss
  cases ss'
  rw [Smoothers.mk.injEq]
  exact ⟨h .rate, h .delay, h .depth, h .feedback, h .dryMix, h .wetMix⟩

/-- Reading the parameters at rest leaves each smoother as it is, and nothing else could change. -/
theorem readControls_state_of_noRamp {s : State} (h : s.Inv) (hr : noRamp s) (n : Nat) : (readControls n s).2 = s := by
  have hsmoothers : (readControls n s).2.smoothers = s.smoothers := smoothers_ext fun k => by
    change smoother (readControls n s).2 k = smoother s k
    rw [smoother_readControls]
    split_ifs
    · rw [smootherFrame, if_pos (hr k)]
    · exact smootherFinal_of_settled (h.smoothers_ok k) (hr k)
  rw [readControls_shape, hsmoothers]

/-- Settles O45: a smoother at rest is a fixed point of SM_FRAME and of SM_FINAL. -/
theorem noAutomationEquivalence : Obligations.NoAutomationEquivalence := by
  unfold Obligations.NoAutomationEquivalence
  exact fun s n h hr => Prod.ext (readControls_of_noRamp h hr n) (readControls_state_of_noRamp h hr n)

end Sys2Proof.Machine

/-! SUPPORT. The sign of the tap: sums and products of values not below +0, the variance and the center; the obligation on it. -/

namespace Sys2Proof.Machine

/-! ## Values not below +0 -/

/-- Not a NaN and without a sign: +0, a positive number or +infinity. -/
structure NonNeg32 (x : F32) : Prop where
  not_nan : isNaN32 x = false
  msb : x.msb = false

theorem NonNeg32.zero_le {x : F32} (h : NonNeg32 x) : le32 zero32 x = true :=
  (le32_nonneg zero32_msb h.msb zero32_not_nan h.not_nan).2 (by rw [mag_zero32]; exact Nat.zero_le _)

theorem nonNeg32_round32_ratio (n d : Nat) : NonNeg32 (round32 (.ratio false n d)) where
  not_nan := by rw [not_nan32_iff, mag_round32]; exact roundMag_le_inf _ _ _
  msb := msb_round32 _

theorem nonNeg32_round32_inf : NonNeg32 (round32 (.inf false)) where
  not_nan := by rw [not_nan32_iff, mag_round32]; exact le_rfl
  msb := msb_round32 _

theorem isZero32_of_mag {x : F32} (h : mag32 x = 0) : isZero32 x := by
  cases hs : x.msb
  · exact .inl (eq_zero32 hs h)
  · exact .inr (ext32 (hs.trans (by decide)) (h.trans (by decide)))

theorem mag_of_isZero32 {x : F32} (h : isZero32 x) : mag32 x = 0 := by
  rcases h with rfl | rfl <;> decide

section Operations

variable {x y : F32}

/-- A sum is not below +0 when the exact sum is not and the left operand has no sign; it may be +infinity. -/
theorem add32_nonNeg (hx : isFinite32 x = true) (hy : isFinite32 y = true) (sx : x.msb = false)
    (h : 0 ≤ order32 x + order32 y) : NonNeg32 (add32 x y) := by
  rw [add32_finite hx hy]
  split_ifs
  · rw [sx, Bool.false_and]
    exact ⟨by decide +kernel, by decide +kernel⟩
  · rw [decide_eq_false (not_lt.2 h)]
    exact nonNeg32_round32_ratio _ _

theorem add32_nonNeg_of_inf (hx : mag32 x = infMag binary32) (sx : x.msb = false) (hy : isFinite32 y = true) :
    NonNeg32 (add32 x y) := by
  rw [add32, datum32_inf hx, datum32_finite hy, sx]
  exact nonNeg32_round32_inf

/-- Adding a value that is no larger in magnitude does not go below +0, also where the left operand is +infinity. -/
theorem NonNeg32.add_of_mag_le (hx : NonNeg32 x) (hy : isFinite32 y = true) (h : mag32 y ≤ mag32 x) :
    NonNeg32 (add32 x y) := by
  rcases cases32 x with hnan | hinf | hfin
  · rw [hx.not_nan] at hnan; cases hnan
  · exact add32_nonNeg_of_inf hinf hx.msb hy
  · have hunits := magUnits_le binary32 h
    rw [← natAbs_order32 y] at hunits
    exact add32_nonNeg hfin hy hx.msb (by rw [order32_nonneg hx.msb]; omega)

/-- Rounding is monotone, so a sum of values not below +0 is not below either. -/
theorem mag32_le_add32 (hx : isFinite32 x = true) (hy : isFinite32 y = true) (sx : x.msb = false) (sy : y.msb = false) :
    mag32 y ≤ mag32 (add32 x y) := by
  have hsum : magUnits binary32 (mag32 y) ≤ (order32 x + order32 y).natAbs := by
    rw [order32_nonneg sx, order32_nonneg sy]; omega
  rw [add32_finite hx hy]
  split_ifs with h0
  · rw [h0, Int.natAbs_zero, Nat.le_zero, magUnits_eq_zero] at hsum
    rw [hsum]
    exact Nat.zero_le _
  · rw [mag_round32]
    exact le_roundMag _ _ _ _ one_pos ((finite32_iff y).1 hy).le (by rwa [Nat.mul_one])

/-- A product of a value not below +0 with a positive finite one is not below +0. -/
theorem NonNeg32.mul_pos (hx : NonNeg32 x) (hy : isFinite32 y = true) (sy : y.msb = false) (h0 : mag32 y ≠ 0) :
    NonNeg32 (mul32 x y) := by
  rcases cases32 x with hnan | hinf | hfin
  · rw [hx.not_nan] at hnan; cases hnan
  · rw [mul32, datum32_inf hinf, datum32_finite hy, hx.msb, sy, exactMul,
      if_neg (by rwa [magUnits_eq_zero])]
    exact nonNeg32_round32_inf
  · rw [mul32_finite hfin hy, hx.msb, sy]
    exact nonNeg32_round32_ratio _ _

theorem mul32_comm (x y : F32) : mul32 x y = mul32 y x := by
  rw [mul32, mul32]
  cases datum32 x <;> cases datum32 y <;> simp [exactMul, Nat.mul_comm, Bool.xor_comm]

/-- A product with a zero is a zero, or the canonical NaN where the other factor is not finite. -/
theorem mul32_isZero (x : F32) (hy : isZero32 y) : isZero32 (mul32 x y) ∨ mul32 x y = nan32 := by
  have hmag := mag_of_isZero32 hy
  have hfin := finite_of_zero32 hmag
  rcases cases32 x with hnan | hinf | hx
  · right
    rw [mul32, datum32_nan hnan]
    exact round32_nan
  · right
    rw [mul32, datum32_inf hinf, datum32_finite hfin, hmag, magUnits_zero, exactMul, if_pos rfl, round32_nan]
  · exact .inl (isZero32_of_mag (mul32_zero hx hfin (.inr hmag)).1)

/-- [-1, 1] by the order is [-1, 1] by magnitude. -/
theorem mag32_le_one_of_le32 (hlo : le32 0xBF800000#32 x = true) (hhi : le32 x one32 = true) :
    mag32 x ≤ mag32 one32 := by
  obtain ⟨-, -, hlo⟩ := (le32_iff _ _).1 hlo
  obtain ⟨-, -, hhi⟩ := (le32_iff _ _).1 hhi
  have hneg : order32 0xBF800000#32 = -order32 one32 := by decide +kernel
  rw [← magUnits_le_iff binary32, ← natAbs_order32, ← natAbs_order32]
  omega

end Operations

/-! ## The tap (43_tap_calculator.md R190, R191, R193) -/

section Tap

variable {maxdly delay depth l : F32} (hf : isFinite32 maxdly = true) (hm : maxdly.msb = false)
  (hn : isNaN32 delay = false) (hd : delay.msb = false) (hdepth : inRange .depth depth)

include hf hm hn hd hdepth

/-- The variance is finite and has no sign: MAXDLY - dly has none, and depth / 2 does not enlarge it. -/
theorem variance_ok : isFinite32 (variance maxdly delay depth) = true ∧ (variance maxdly delay depth).msb = false := by
  obtain ⟨cf, cm, cle⟩ := clampDelay_ok hf hm hn hd
  obtain ⟨sf, sm, -⟩ := sub32_nonneg hf cf hm cm cle
  obtain ⟨df, dm, dle⟩ := hdepth
  have hone := (le32_nonneg dm one32_msb (not_nan_of_finite32 df) one32_not_nan).1 (dle rfl)
  obtain ⟨pf, -, ps⟩ := mul32_unit_le sf hone
  obtain ⟨qf, -, qs⟩ := div32_two_le pf
  exact ⟨qf, qs.trans (by rw [ps, sm, dm]; rfl)⟩

/-- The center is not below the variance (R193); it may be +infinity. -/
theorem center_ok : NonNeg32 (center maxdly delay depth) ∧
    mag32 (variance maxdly delay depth) ≤ mag32 (center maxdly delay depth) := by
  obtain ⟨cf, cm, -⟩ := clampDelay_ok hf hm hn hd
  obtain ⟨vf, vm⟩ := variance_ok hf hm hn hd hdepth
  refine ⟨add32_nonNeg cf vf cm ?_, mag32_le_add32 cf vf cm vm⟩
  rw [order32_nonneg cm, order32_nonneg vm]
  omega

/-- The modulated delay is not below +0: the LFO takes no more than the variance off the center. -/
theorem modulatedDelay_nonNeg (hl : mag32 l ≤ mag32 one32) :
    NonNeg32 (add32 (center maxdly delay depth) (mul32 l (variance maxdly delay depth))) := by
  obtain ⟨hc, hvc⟩ := center_ok hf hm hn hd hdepth
  obtain ⟨pf, pv, -⟩ := mul32_unit_le (variance_ok hf hm hn hd hdepth).1 hl
  rw [mul32_comm]
  exact hc.add_of_mag_le pf (pv.trans hvc)

end Tap

/-- Settles O46: the modulated delay is not below +0, so the sign of SPM decides, and a zero SPM makes a zero or a NaN. -/
theorem tapIsNeverNegative : Obligations.TapIsNeverNegative := by
  unfold Obligations.TapIsNeverNegative
  intro maxdly spm delay depth l hf hm hspm hn hd hdepth hlo hhi t
  refine ⟨fun hpos => ?_, fun hzero => mul32_isZero _ hzero⟩
  obtain ⟨ms, hs0⟩ := pos_of_zero_lt32 hpos
  have hsum := modulatedDelay_nonNeg hf hm hn hd hdepth (mag32_le_one_of_le32 hlo hhi)
  exact (hsum.mul_pos hspm ms hs0).zero_le

end Sys2Proof.Machine

/-! SUPPORT. What a RENDER reads and advances: its parameters, INC, PHASE and the cursors; one frame of the mixer; depth 0
and the sign of the feedback. -/

namespace Sys2Proof.Machine

/-! ## Phase, increment and cursors (44_render_engine.md R207) -/

/-- Settles O33: the cursors are those of `renderCore_effect`, and INC and PHASE follow from the rate the render read. -/
theorem renderAdvancesPhaseAndCursors : Obligations.RenderAdvancesPhaseAndCursors := by
  unfold Obligations.RenderAdvancesPhaseAndCursors
  intro s n bus h hconf h1 hn
  obtain ⟨-, -, hcur, -⟩ := renderCore_effect (h.storageOk hconf) hn
  refine ⟨_, exec_render_accepted bus hconf h1 hn, ?_, ?_, fun c hc => ?_, fun c hc => ?_⟩
  · rw [renderCore_inc, readControls_rate, lfoRateInc]
  · rw [renderCore_phase, renderCore_inc]
    rfl
  · rw [hcur, if_pos hc]
  · rw [hcur, if_neg hc.not_gt]

/-! ## The parameters a render reads (44_render_engine.md R201, R202) -/

theorem smoother_renderCore (n : Nat) (s : State) (k : ScalarId) :
    smoother (renderCore n s) k = if n = 1 then smootherFrame k (smoother s k) else smootherFinal (smoother s k) := by
  rw [← smoother_readControls, smoother, renderCore_smoothers, smoother]

/-- Settles O34: n ≥ 2 completes each ramp, and SM_FRAME has a case for REM 0, for REM 1 and for more. -/
theorem renderReadsParameters : Obligations.RenderReadsParameters := by
  unfold Obligations.RenderReadsParameters
  intro s n bus hconf h1 hn
  refine ⟨_, exec_render_accepted bus hconf h1 hn, fun k => ?_⟩
  rw [smoother_renderCore]
  rcases h1.eq_or_lt with rfl | h2
  · by_cases hlast : (smoother s k).rem = 1
    · rw [if_pos rfl, if_pos (.inr hlast), smootherFrame_last hlast, smootherFinal]
    · rw [if_pos rfl, if_neg (by omega), smootherFrame, if_neg hlast]
  · rw [if_neg h2.ne', if_pos (.inl h2), smootherFinal]

/-- The state with every ramp completed by SM_FINAL (42_smoother.md R173). -/
def rampsCompleted (s : State) : State :=
  { s with smoothers :=
      { rate := smootherFinal s.smoothers.rate, delay := smootherFinal s.smoothers.delay,
        depth := smootherFinal s.smoothers.depth, feedback := smootherFinal s.smoothers.feedback,
        dryMix := smootherFinal s.smoothers.dryMix, wetMix := smootherFinal s.smoothers.wetMix } }

/-- SM_FINAL reads TGT only, which completing a ramp keeps, and completes a completed ramp to itself. -/
theorem readParams_rampsCompleted (s : State) : readParams smFinal (rampsCompleted s) = readParams smFinal s := by
  rw [readParams_smFinal, readParams_smFinal]
  rfl

theorem renderCore_rampsCompleted {n : Nat} (h : n ≠ 1) (s : State) : renderCore n (rampsCompleted s) = renderCore n s := by
  have hread : readControls n (rampsCompleted s) = readControls n s := by
    rw [readControls, readControls, if_neg h, if_neg h, readParams_rampsCompleted]
  have hodd : (rampsCompleted s).odd90 = s.odd90 := rfl
  rw [renderCore, renderCore, hread, hodd]

/-- Settles O35: both renders read the same parameters and leave the same smoothers. -/
theorem blockRenderCompletesRamps : Obligations.BlockRenderCompletesRamps := by
  unfold Obligations.BlockRenderCompletesRamps
  intro s n bus h2 hconf hn
  have hcompleted : exec (.render n bus) (rampsCompleted s) = .next (renderCore n s) := by
    rw [← renderCore_rampsCompleted (show n ≠ 1 by omega)]
    exact exec_render_accepted bus hconf (by omega) hn
  exact ⟨_, exec_render_accepted bus hconf (by omega) hn, hcompleted⟩

/-! ## One frame of the mixer (44_render_engine.md R203, R204, R206) -/

theorem tapOfChannel_tapPair (spm ctr var lv lq : F32) (odd : Bool) (c : Nat) :
    tapOfChannel (tapPair spm ctr var lv lq odd) c = tap spm ctr var (if odd = true ∧ c % 2 = 1 then lq else lv) := by
  unfold tapOfChannel tapPair
  by_cases hc : c % 2 = 1
  · simp [hc, apply_ite (tap spm ctr var)]
  · simp [hc]

/-- The parameter values of a single-frame render are those of one SM_FRAME each (44_render_engine.md R201). -/
theorem readControls_one (s : State) :
    (readControls 1 s).1 =
      { rate := (smootherFrame .rate (smoother s .rate)).cur, delay := (smootherFrame .delay (smoother s .delay)).cur,
        depth := (smootherFrame .depth (smoother s .depth)).cur,
        feedback := (smootherFrame .feedback (smoother s .feedback)).cur,
        dryMix := (smootherFrame .dryMix (smoother s .dryMix)).cur,
        wetMix := (smootherFrame .wetMix (smoother s .wetMix)).cur } := by
  rw [readControls_values]
  simp only [smoother_readControls, if_true]

/-- The state before the first frame of a render has the storage of the state rendered. -/
theorem StorageOk.firstFrame {s : State} (h : StorageOk s) {n : Nat} :
    StorageOk (lfoSetRate (readControls n s).1.rate (readControls n s).2) :=
  h.of_fields (by simp) (by simp) (by simp) (by simp) (by simp)

/-- Settles O36: a single-frame render is one FRAME_STEP, whose stores `frameStep_effect` gives channel by channel. -/
theorem singleFrameMix : Obligations.SingleFrameMix := by
  unfold Obligations.SingleFrameMix
  intro s bus h hconf
  obtain ⟨-, -, hframes, -⟩ := h.hw_legal
  have hstore := h.storageOk hconf
  refine ⟨_, exec_render_accepted bus hconf le_rfl hframes, fun c hc => ?_⟩
  obtain ⟨-, -, hout, hdl, -⟩ := frameStep_effect
    (center s.maxdly (readControls 1 s).1.delay (readControls 1 s).1.depth)
    (variance s.maxdly (readControls 1 s).1.delay (readControls 1 s).1.depth)
    (readControls 1 s).1.feedback (readControls 1 s).1.dryMix (readControls 1 s).1.wetMix s.odd90 (hstore.firstFrame (n := 1))
    (i := 0) (by rw [lfoSetRate_hw, readControls_hw]; exact hframes)
  simp only [lfoSetRate_hw, lfoSetRate_ch, lfoSetRate_phase, lfoSetRate_spm, lfoSetRate_negfb, readControls_hw,
    readControls_ch, readControls_phase, readControls_spm, readControls_negfb, inWord_lfoSetRate, inWord_readControls,
    dlWord_lfoSetRate, dlWord_readControls, cursor_lfoSetRate, cursor_readControls, dlRead_lfoSetRate, dlRead_readControls,
    tapOfChannel_tapPair, readControls_one] at hout hdl
  have hcm : c < s.hw.maxChannels := hc.trans_le hstore.ch_le
  have hcap : ∀ {j}, j < s.cap → j < s.hw.maxCapacity := fun hj => hj.trans_le hstore.cap_le
  rw [renderCore_frames, forUpTo_succ, forUpTo_zero, coreFrame, readControls_one]
  refine ⟨?_, ?_, fun j hj hne => ?_⟩
  · exact (hout c 0 hcm hframes).trans (if_pos ⟨hc, rfl⟩)
  · exact (hdl c _ hcm (hcap (hstore.cursor_lt c))).trans (if_pos ⟨hc, rfl⟩)
  · exact (hdl c j hcm (hcap hj)).trans (if_neg fun e => hne e.2)

/-! ## Depth 0 and the sign of the feedback (44_render_engine.md R205, R210) -/

/-- Settles O47: the variance is +0 at depth 0, so neither the center nor the LFO moves the tap. -/
theorem noModulationWithoutDepth : Obligations.NoModulationWithoutDepth := by
  unfold Obligations.NoModulationWithoutDepth
  exact fun _ _ _ _ hf hm hn hd hl => tap_zero_depth hf hm hn hd hl

theorem datum32_neg32 (x : F32) : datum32 (neg32 x) = negDatum (datum32 x) := by
  rw [datum32, datum32, msb_neg32, mag_neg32, unpack, unpack]
  split_ifs <;> rfl

/-- An exact result with its sign flipped. -/
def negExact : Exact → Exact
  | .nan => .nan
  | .inf neg => .inf (!neg)
  | .ratio neg num den => .ratio (!neg) num den

/-- The sign of a product is the exclusive-or of the signs (00_scope.md R16), so negating a factor flips it and nothing else. -/
theorem exactMul_negDatum (f : FloatFormat) (a b : Datum) : exactMul f (negDatum a) b = negExact (exactMul f a b) := by
  cases a with
  | nan => rfl
  | inf s =>
    cases b with
    | nan => rfl
    | inf t => simp only [negDatum, exactMul, negExact, Bool.not_xor]
    | fin t n => by_cases hn : n = 0 <;> simp only [negDatum, exactMul, negExact, hn, if_true, if_false, Bool.not_xor]
  | fin s m =>
    cases b with
    | nan => rfl
    | inf t => by_cases hm : m = 0 <;> simp only [negDatum, exactMul, negExact, hm, if_true, if_false, Bool.not_xor]
    | fin t n => simp only [negDatum, exactMul, negExact, Bool.not_xor]

theorem isNaN32_nan32 : isNaN32 nan32 = true := by decide

theorem neg32_pack32 (neg : Bool) {m : Nat} (hm : m < 2 ^ 31) : pack32 (!neg, m) = neg32 (pack32 (neg, m)) :=
  ext32 (by rw [msb_neg32, msb_pack32 _ _ hm, msb_pack32 _ _ hm]) (by rw [mag_neg32, mag_pack32 _ _ hm, mag_pack32 _ _ hm])

/-- Rounding is symmetric in the sign, but for the one NaN it returns. -/
theorem round32_negExact (e : Exact) :
    round32 (negExact e) = if isNaN32 (round32 e) = true then nan32 else neg32 (round32 e) := by
  have hlt := roundExact_lt32 e
  cases e with
  | nan => rw [negExact, round32_nan, if_pos isNaN32_nan32]
  | inf neg =>
    rw [if_neg (by rw [nan32_iff, mag_round32]; exact lt_irrefl _)]
    exact neg32_pack32 neg hlt
  | ratio neg num den =>
    rw [if_neg (by rw [nan32_iff, mag_round32]; exact (roundMag_le_inf _ _ _).not_gt)]
    exact neg32_pack32 neg hlt

/-- Settles O48: the exact products differ in their sign only, and so do their roundings. -/
theorem negativeFeedbackIsExactNegation : Obligations.NegativeFeedbackIsExactNegation := by
  unfold Obligations.NegativeFeedbackIsExactNegation
  intro fb d
  rw [mul32, mul32, datum32_neg32, exactMul_negDatum, round32_negExact]

end Sys2Proof.Machine

/-! SUPPORT. Silence and the dry signal through the frames of a render: bounded inputs and rings give bounded delayed
samples, and what the mixer makes of those is carried from frame to frame. -/

namespace Sys2Proof.Machine

/-! ## Sums with a zero -/

section Sums

variable {x z : F32}

theorem exactAdd_comm (a b : Datum) : exactAdd a b = exactAdd b a := by
  cases a with
  | nan => cases b <;> rfl
  | inf s =>
    cases b with
    | inf t =>
      by_cases h : s = t
      · rw [h]
      · rw [exactAdd, exactAdd, if_neg h, if_neg (Ne.symm h)]
    | _ => rfl
  | fin s m =>
    cases b with
    | fin t n => simp only [exactAdd, Int.add_comm, Bool.and_comm]
    | _ => rfl

theorem add32_comm (x y : F32) : add32 x y = add32 y x := by rw [add32, add32, exactAdd_comm]

theorem mag_of_eq32 {y : F32} (h : eq32 x y = true) : mag32 x = mag32 y := by
  obtain ⟨-, -, horder⟩ := (eq32_iff x y).1 h
  have hunits : magUnits binary32 (mag32 x) = magUnits binary32 (mag32 y) := by
    rw [← natAbs_order32, ← natAbs_order32, horder]
  exact le_antisymm ((magUnits_le_iff _).1 hunits.le) ((magUnits_le_iff _).1 hunits.ge)

theorem mag_add32_zero_right (hx : isNaN32 x = false) (hz : mag32 z = 0) : mag32 (add32 x z) = mag32 x :=
  mag_of_eq32 (add32_zero_right hx hz).1

/-- Of the values that are not NaNs, -0 is the only one whose bits a zero summand can change (00_scope.md R16). -/
theorem add32_zero_right_of_ne (hx : isNaN32 x = false) (hz : mag32 z = 0) (hne : x ≠ 0x80000000#32) : add32 x z = x := by
  by_cases h0 : mag32 x = 0
  · obtain rfl : x = zero32 := (isZero32_of_mag h0).resolve_right hne
    exact add32_zero_nonneg zero32_finite zero32_msb hz
  · exact (add32_zero_right hx hz).2 h0

end Sums

/-! ## The delayed sample of a bounded ring (40_delay_line.md R131) -/

/-- The weights lie in [0, 1], so a sample between two words of magnitude at most g is at most twice g. -/
theorem interpolate_le {f y0 y1 : F32} {g g' : Nat} (hf : isFinite32 f = true) (hm : f.msb = false)
    (h1 : mag32 f ≤ mag32 one32) (hg : g < infMag binary32) (hg' : g' < infMag binary32)
    (h2 : 2 * magUnits binary32 g ≤ magUnits binary32 g') (hy0 : mag32 y0 ≤ g) (hy1 : mag32 y1 ≤ g) :
    mag32 (interpolate f y0 y1) ≤ g' := by
  obtain ⟨-, hle⟩ := one_sub_unit hf hm h1
  obtain ⟨pf, ple, -⟩ := mul32_unit_le ((finite32_iff y0).2 (hy0.trans_lt hg)) hle
  obtain ⟨qf, qle, -⟩ := mul32_unit_le ((finite32_iff y1).2 (hy1.trans_lt hg)) h1
  rw [mul32_comm] at pf ple qf qle
  have hp := magUnits_le binary32 (ple.trans hy0)
  have hq := magUnits_le binary32 (qle.trans hy1)
  rw [← natAbs_order32] at hp hq
  have hsum := (Int.natAbs_add_le _ _).trans ((Nat.add_le_add hp hq).trans_eq (two_mul _).symm)
  exact (add32_le pf qf hg' (hsum.trans h2)).2

theorem dlRead_le {s : State} {c g g' : Nat} (t : F32) (hcap : s.cap ≤ 2 ^ 24) (hpos : 0 < s.cap) (hg : g < infMag binary32)
    (hg' : g' < infMag binary32) (h2 : 2 * magUnits binary32 g ≤ magUnits binary32 g')
    (hring : ∀ j, j < s.cap → mag32 (dlWord s c j) ≤ g) : mag32 (dlRead c t s) ≤ g' := by
  obtain ⟨hf, hm, h1⟩ := tapFraction_unit hcap t
  exact interpolate_le hf hm h1 hg hg' h2 (hring _ (slotBehind_lt _ _ hpos)) (hring _ (slotBehind_lt _ _ hpos))

/-! ## A relation of output to input through the frames of a render -/

/-- What the mixer with controls k makes of inputs of magnitude at most g and delayed samples of magnitude at most g': words of
magnitude at most g for the ring, and outputs in the relation `out` to their inputs. -/
def MixerKeeps (g g' : Nat) (out : F32 → F32 → Prop) (negfb : Bool) (k : Controls) : Prop :=
  ∀ x d, mag32 x ≤ g → mag32 d ≤ g' →
    mag32 (mixWrite x d (signedFeedback negfb k.feedback)) ≤ g ∧ out x (mixOut x d k.dryMix k.wetMix)

/-- What holds of the state t after m of the n frames of a render from s: the inputs are there, the rings are bounded by g,
and each output is in the relation `out` to its input. -/
structure Mixed (g : Nat) (out : F32 → F32 → Prop) (n : Nat) (s : State) (m : Nat) (t : State) : Prop where
  input : ∀ c i, c < s.ch → i < n → inWord t c i = inWord s c i
  ring : ∀ c j, c < s.ch → j < s.cap → mag32 (dlWord t c j) ≤ g
  output : ∀ c i, c < s.ch → i < m → out (inWord s c i) (outWord t c i)

section Mixed

variable {g g' n : Nat} {out : F32 → F32 → Prop} {s : State}

theorem Mixed.frame {m : Nat} {t : State} {ctr var : F32} {odd : Bool} {k : Controls} (h : Mixed g out n s m t)
    (ok : StorageOk t) (ehw : t.hw = s.hw) (ech : t.ch = s.ch) (ecap : t.cap = s.cap) (hm : m < n)
    (hn : n ≤ s.hw.maxFrames) (hread : ∀ c tap, c < s.ch → mag32 (dlRead c tap t) ≤ g')
    (hin : ∀ c i, c < s.ch → i < n → mag32 (inWord s c i) ≤ g) (hmix : MixerKeeps g g' out t.negfb k) :
    Mixed g out n s (m + 1) (frameStep ctr var k.feedback k.dryMix k.wetMix odd m t) := by
  have hframes : n ≤ t.hw.maxFrames := ehw ▸ hn
  have hmax : ∀ {c}, c < s.ch → c < t.hw.maxChannels := fun hc => (ech ▸ hc : _ < t.ch).trans_le ok.ch_le
  obtain ⟨-, hinput, hout, hdl, -⟩ := frameStep_effect ctr var k.feedback k.dryMix k.wetMix odd ok (hm.trans_le hframes)
  have hx : ∀ c, c < s.ch → inWord t c m = inWord s c m := fun c hc => h.input c m hc hm
  refine ⟨fun c i hc hi => ?_, fun c j hc hj => ?_, fun c i hc hi => ?_⟩
  · exact (hinput c i (hmax hc) (hi.trans_le hframes)).trans (h.input c i hc hi)
  · rw [hdl c j (hmax hc) ((ecap ▸ hj : j < t.cap).trans_le ok.cap_le), hx c hc]
    split_ifs
    · exact (hmix _ _ (hin c m hc hm) (hread c _ hc)).1
    · exact h.ring c j hc hj
  · rw [hout c i (hmax hc) (by omega), ech]
    split_ifs with e
    · rw [hx c hc, e.2]
      exact (hmix _ _ (hin c m hc hm) (hread c _ hc)).2
    · exact h.output c i hc (by omega)

/-- Where the mixer keeps the bounds, a whole render does, by induction over its frames. -/
theorem mixed_renderCore (hs : StorageOk s) (hn : n ≤ s.hw.maxFrames) (hg : g < infMag binary32) (hg' : g' < infMag binary32)
    (h2 : 2 * magUnits binary32 g ≤ magUnits binary32 g') (hin : ∀ c i, c < s.ch → i < n → mag32 (inWord s c i) ≤ g)
    (hring : ∀ c j, c < s.ch → j < s.cap → mag32 (dlWord s c j) ≤ g)
    (hmix : MixerKeeps g g' out s.negfb (readControls n s).1) : Mixed g out n s n (renderCore n s) := by
  refine renderCore_induct hs hn (Mixed g out n s) ?_ fun m t hm ok ehw ech ecap _ _ enegfb hq => ?_
  · refine ⟨fun c i _ _ => ?_, fun c j hc hj => ?_, fun _ _ _ hi => absurd hi (Nat.not_lt_zero _)⟩
    · rw [inWord_lfoSetRate, inWord_readControls]
    · rw [dlWord_lfoSetRate, dlWord_readControls]
      exact hring c j hc hj
  · obtain ⟨-, -, -, -, -, hcap, -⟩ := ok.hw_legal
    refine hq.frame ok ehw ech ecap hm hn (fun c tap hc => ?_) hin (enegfb ▸ hmix)
    exact dlRead_le tap (ok.cap_le.trans hcap) ((Nat.zero_le _).trans_lt (ok.cursor_lt c)) hg hg' h2 fun j hj =>
      hq.ring c j hc (ecap ▸ hj)

end Mixed

/-! ## Silence (44_render_engine.md R210 (a)) -/

theorem signedFeedback_finite {fb : F32} (h : isFinite32 fb = true) (negfb : Bool) :
    isFinite32 (signedFeedback negfb fb) = true := by
  cases negfb
  · exact h
  · rw [signedFeedback, if_pos rfl, finite32_iff, mag_neg32, ← finite32_iff]
    exact h

/-- A finite gain of a zero, added to another, is a zero. -/
theorem mag_add32_mul32_zero {y x gain : F32} (hgain : isFinite32 gain = true) (hy : mag32 y = 0) (hx : mag32 x = 0) :
    mag32 (add32 y (mul32 gain x)) = 0 :=
  (mag_add32_zero_right (not_nan_of_finite32 (finite_of_zero32 hy))
    (mul32_zero hgain (finite_of_zero32 hx) (.inr hx)).1).trans hy

/-- Finite gains keep silence. -/
theorem mixerKeeps_silence {k : Controls} (hfb : isFinite32 k.feedback = true) (hdry : isFinite32 k.dryMix = true)
    (hwet : isFinite32 k.wetMix = true) (negfb : Bool) : MixerKeeps 0 0 (fun _ y => isZero32 y) negfb k := by
  intro x d hx hd
  rw [Nat.le_zero] at hx hd
  refine ⟨(mag_add32_mul32_zero (signedFeedback_finite hfb negfb) hx hd).le, isZero32_of_mag ?_⟩
  exact mag_add32_mul32_zero hdry (mul32_zero hwet (finite_of_zero32 hd) (.inr hd)).1 hx

/-- Settles O57: the parameters are finite in every state of the invariant, so each frame keeps silence. -/
theorem silenceInSilenceOut : Obligations.SilenceInSilenceOut := by
  unfold Obligations.SilenceInSilenceOut
  intro s n bus h hconf h1 hn hin hring
  have hfinite : ∀ k, isFinite32 (smoother (readControls n s).2 k).cur = true := fun k =>
    (smootherInv_readControls h.smoothers_ok n k).cur_range.1
  have hmix : MixerKeeps 0 0 (fun _ y => isZero32 y) s.negfb (readControls n s).1 := by
    rw [readControls_values]
    exact mixerKeeps_silence (hfinite _) (hfinite _) (hfinite _) _
  have hzero : 0 < infMag binary32 := by rw [infMag32]; decide
  have key := mixed_renderCore (h.storageOk hconf) hn hzero hzero (by rw [magUnits_zero])
    (fun c i hc hi => (mag_of_isZero32 (hin c i hc hi)).le) (fun c j hc hj => (mag_of_isZero32 (hring c j hc hj)).le) hmix
  exact ⟨_, exec_render_accepted bus hconf h1 hn, key.output, fun c j hc hj =>
    isZero32_of_mag (Nat.le_zero.1 (key.ring c j hc hj))⟩

/-! ## The dry signal (44_render_engine.md R210 (b)) -/

/-- The output y is the input x, up to the sign of a zero. -/
abbrev PassedThrough (x y : F32) : Prop := eq32 y x = true ∧ (x ≠ 0x80000000#32 → y = x)

/-- Without feedback and with the dry signal only, the ring takes the input and the output is the input, up to the sign of a
zero. The delayed sample is at most 2^127 for words of at most 2^126. -/
theorem mixerKeeps_dry {k : Controls} (hfb : k.feedback = zero32) (hdry : k.dryMix = one32) (hwet : k.wetMix = zero32)
    (negfb : Bool) :
    MixerKeeps 0x7E800000 0x7F000000 PassedThrough negfb k := by
  intro x d hx hd
  have hxn : isNaN32 x = false := (not_nan32_iff x).2 (by rw [infMag32]; omega)
  have hdf : isFinite32 d = true := (finite32_iff d).2 (by rw [infMag32]; omega)
  have hzero : ∀ gain, mag32 gain = 0 → mag32 (mul32 gain d) = 0 := fun gain hgain =>
    (mul32_zero (finite_of_zero32 hgain) hdf (.inl hgain)).1
  have hout : mixOut x d k.dryMix k.wetMix = add32 x (mul32 zero32 d) := by
    rw [mixOut, hdry, hwet, mul32_one_left hxn, add32_comm]
  rw [hout, hfb]
  have hwetZero := hzero zero32 mag_zero32
  refine ⟨?_, (add32_zero_right hxn hwetZero).1, add32_zero_right_of_ne hxn hwetZero⟩
  exact (mag_add32_zero_right hxn (hzero _ (mag_signedFeedback_zero negfb))).trans_le hx

/-- Settles O58: at rest the parameters are their targets, and each frame keeps the rings bounded. -/
theorem dryPassthrough : Obligations.DryPassthrough := by
  unfold Obligations.DryPassthrough
  intro s n bus h hconf h1 hn hr hwet hdry hfb hin hring
  have hmix : MixerKeeps 0x7E800000 0x7F000000 PassedThrough s.negfb (readControls n s).1 := by
    rw [readControls_of_noRamp h hr]
    exact mixerKeeps_dry hfb hdry hwet _
  have key := mixed_renderCore (h.storageOk hconf) hn (by rw [infMag32]; decide) (by rw [infMag32]; decide)
    (by decide +kernel) hin hring hmix
  exact ⟨_, exec_render_accepted bus hconf h1 hn, key.output⟩

end Sys2Proof.Machine

/-! SUPPORT. A block render and single-frame renders of the same input, frame by frame. -/

namespace Sys2Proof.Machine

/-! ## Two states with the same rings -/

/-- The states p and q agree on all but IN and OUT. -/
structure SameRings (p q : State) : Prop where
  registers : withoutStorage p = withoutStorage q
  cursors : p.cursors = q.cursors
  rings : ∀ c j, c < q.hw.maxChannels → j < q.hw.maxCapacity → dlWord p c j = dlWord q c j

theorem withoutStorage_lfoIncrement (s : State) : withoutStorage (lfoIncrement s) = lfoIncrement (withoutStorage s) := by
  unfold lfoIncrement
  rfl

theorem withoutStorage_lfoSetRate (rate : F32) (s : State) :
    withoutStorage (lfoSetRate rate s) = lfoSetRate rate (withoutStorage s) := by
  unfold lfoSetRate
  rfl

theorem cursors_ext {p q : State} (hlen : p.cursors.length = q.cursors.length) (h : ∀ c, cursor p c = cursor q c) :
    p.cursors = q.cursors :=
  List.ext_getElem hlen fun c h1 h2 => by
    rw [← List.getD_eq_getElem _ 0 h1, ← List.getD_eq_getElem _ 0 h2]
    exact h c

namespace SameRings

variable {p q r : State}

theorem refl (p : State) : SameRings p p := ⟨rfl, rfl, fun _ _ _ _ => rfl⟩

theorem hw_eq (h : SameRings p q) : p.hw = q.hw := by simpa using congrArg State.hw h.registers

theorem trans (hpq : SameRings p q) (hqr : SameRings q r) : SameRings p r :=
  ⟨hpq.registers.trans hqr.registers, hpq.cursors.trans hqr.cursors, fun c j hc hj =>
    (hpq.rings c j (hqr.hw_eq ▸ hc) (hqr.hw_eq ▸ hj)).trans (hqr.rings c j hc hj)⟩

theorem lfoSetRate (h : SameRings p q) (rate : F32) : SameRings (lfoSetRate rate p) (lfoSetRate rate q) := by
  refine ⟨?_, by simpa using h.cursors, by simpa using h.rings⟩
  rw [withoutStorage_lfoSetRate, withoutStorage_lfoSetRate, h.registers]

/-- One frame from states with the same rings, on the same inputs, in whatever columns these stand: the rings stay the same,
and so are the outputs. -/
theorem frame {i i' : Nat} (h : SameRings p q) (hp : StorageOk p) (hq : StorageOk q) (ctr var fb dry wet : F32)
    (odd : Bool) (hi : i < q.hw.maxFrames) (hi' : i' < q.hw.maxFrames)
    (hin : ∀ c, c < q.ch → inWord p c i = inWord q c i') :
    SameRings (frameStep ctr var fb dry wet odd i p) (frameStep ctr var fb dry wet odd i' q) ∧
    ∀ c, c < q.ch →
      outWord (frameStep ctr var fb dry wet odd i p) c i = outWord (frameStep ctr var fb dry wet odd i' q) c i' := by
  have ehw := h.hw_eq
  have ech : p.ch = q.ch := by simpa using congrArg State.ch h.registers
  have ecap : p.cap = q.cap := by simpa using congrArg State.cap h.registers
  have espm : p.spm = q.spm := by simpa using congrArg State.spm h.registers
  have ephase : p.phase = q.phase := by simpa using congrArg State.phase h.registers
  have enegfb : p.negfb = q.negfb := by simpa using congrArg State.negfb h.registers
  have ecursor : ∀ c, cursor p c = cursor q c := fun c => by rw [cursor, cursor, h.cursors]
  have hmax : ∀ {c}, c < q.ch → c < q.hw.maxChannels := fun hc => hc.trans_le hq.ch_le
  have hread : ∀ c t, c < q.ch → dlRead c t p = dlRead c t q := fun c t hc =>
    dlRead_congr t ((Nat.zero_le _).trans_lt (hq.cursor_lt c)) ecap (ecursor c) fun j hj =>
      h.rings c j (hmax hc) (hj.trans_le hq.cap_le)
  obtain ⟨okp, -, houtp, hdlp, hcurp, -⟩ := frameStep_effect ctr var fb dry wet odd hp (ehw ▸ hi)
  obtain ⟨okq, -, houtq, hdlq, hcurq, -⟩ := frameStep_effect ctr var fb dry wet odd hq hi'
  simp only [ehw, ech, ecap, espm, ephase, enegfb, ecursor] at houtp hdlp hcurp
  refine ⟨⟨?_, cursors_ext ?_ fun c => ?_, fun c j hc hj => ?_⟩, fun c hc => ?_⟩
  · rw [frameStep_inner, frameStep_inner, withoutStorage_lfoIncrement, withoutStorage_lfoIncrement, h.registers]
  · rw [okp.cursors_length, okq.cursors_length, frameStep_hw, frameStep_hw, ehw]
  · rw [hcurp, hcurq]
  · rw [frameStep_hw] at hc hj
    rw [hdlp c j hc hj, hdlq c j hc hj, h.rings c j hc hj]
    split_ifs with e
    · simp only [hin c e.1, hread c _ e.1]
    · rfl
  · rw [houtp c i (hmax hc) hi, houtq c i' (hmax hc) hi', if_pos ⟨hc, rfl⟩, if_pos ⟨hc, rfl⟩, hin c hc]
    simp only [hread c _ hc]

end SameRings

/-! ## The host's column loads (44_render_engine.md R210 (e)) -/

/-- What holds after the first m stores of a column load from s: the rings and the registers are those of s, and column 0 takes
frame i's input of `src`. -/
structure ColumnLoaded (src : State) (i : Nat) (s : State) (m : Nat) (t : State) : Prop where
  inv : t.Inv
  same : SameRings t s
  input : ∀ c, c < m → inWord t c 0 = inWord src c i

theorem columnLoaded_loadColumn {s : State} (src : State) (i : Nat) (h : s.Inv) (hch : s.ch ≤ s.hw.maxChannels) :
    ColumnLoaded src i s s.ch (loadColumn src i s) := by
  obtain ⟨-, -, hframes, -⟩ := h.hw_legal
  refine forUpTo_induct (P := ColumnLoaded src i s) ⟨h, .refl s, fun _ hc => absurd hc (Nat.not_lt_zero _)⟩
    fun m t hm ht => ?_
  have ehw := ht.same.hw_eq
  have hmax : m < t.hw.maxChannels := ehw ▸ hm.trans_le hch
  have hzero : 0 < t.hw.maxFrames := ehw ▸ hframes
  have hstored : SameRings (setIn m 0 (inWord src m i) t) t :=
    ⟨rfl, rfl, fun c j hc hj => dlWord_setIn ht.inv.hw_legal ht.inv.mem_wf hmax hzero hc hj⟩
  refine ⟨inv_setIn ht.inv hmax hzero _, hstored.trans ht.same, fun c hc => ?_⟩
  rw [inWord_setIn ht.inv.mem_wf hzero hzero]
  split_ifs with e
  · rw [e.1]
  · exact ht.input c (by omega)

/-! ## A single-frame render as a frame of the block -/

theorem lfoSetRate_of_inc {s : State} {rate : F32} (h : s.inc = lfoRateInc rate s.sr) : lfoSetRate rate s = s := by
  unfold lfoSetRate
  rw [← h]

/-- The rate a render of n frames from s reads, set in the state t. -/
abbrev withRate (n : Nat) (s t : State) : State := lfoSetRate (readControls n s).1.rate t

/-- With no ramp pending, a single-frame render from a state with the registers of s is a frame of the block render of s. -/
theorem renderCore_one_of_noRamp {s t : State} {n : Nat} (hs : s.Inv) (hr : noRamp s) (ht : t.Inv)
    (h : withoutFrame (withRate n s t) = withoutFrame (withRate n s s)) :
    renderCore 1 t = coreFrame n s 0 (withRate n s t) := by
  have emaxdly : t.maxdly = s.maxdly := by simpa using congrArg State.maxdly h
  have eodd : t.odd90 = s.odd90 := by simpa using congrArg State.odd90 h
  have esmoothers : t.smoothers = s.smoothers := by simpa using congrArg State.smoothers h
  have esmoother : ∀ k, smoother t k = smoother s k := fun k => by rw [smoother, smoother, esmoothers]
  have hrt : noRamp t := fun k => by rw [esmoother, hr k]
  have hcontrols : (readControls 1 t).1 = (readControls n s).1 := by
    rw [readControls_of_noRamp ht hrt, readControls_of_noRamp hs hr]
    simp only [esmoother]
  rw [renderCore_frames, forUpTo_succ, forUpTo_zero, coreFrame, coreFrame, readControls_state_of_noRamp ht hrt, hcontrols,
    emaxdly, eodd]

/-! ## The two runs of R210 (e) -/

/-- What holds of the block render of s after m of its n frames, in state a, and of the other run, in state `u m`: once the
rate is set, the two have the same rings, and the first m columns of the block are column 0 after each of the single-frame
renders. -/
structure BlockRun (s : State) (u : Nat → State) (n m : Nat) (a : State) : Prop where
  inv : (u m).Inv
  fixed : withoutFrame a = withoutFrame (withRate n s s)
  same : SameRings (withRate n s (u m)) a
  rate_set : 1 ≤ m → withRate n s (u m) = u m
  input : ∀ c i, c < s.ch → i < n → inWord a c i = inWord s c i
  output : ∀ c i, c < s.ch → i < m → outWord (u (i + 1)) c 0 = outWord a c i

section BlockRun

variable {s a : State} {u : Nat → State} {n m bus : Nat}

theorem BlockRun.start (h : s.Inv) (h0 : u 0 = s) : BlockRun s u n 0 (withRate n s s) where
  inv := h0 ▸ h
  fixed := rfl
  same := h0 ▸ .refl _
  rate_set hpos := absurd hpos (by decide)
  input c i _ _ := inWord_lfoSetRate _ s c i
  output _ _ _ hi := absurd hi (Nat.not_lt_zero _)

/-- The single-frame render after a column load is a frame of the block render, from a state l with the rings of the block
and frame m's input in column 0. -/
theorem BlockRun.next (hs : s.Inv) (hconf : s.configured = true) (hr : noRamp s) (ha : StorageOk a) (h : BlockRun s u n m a)
    (hu : exec (.render 1 bus) (loadColumn s m (u m)) = .next (u (m + 1))) :
    ∃ l, StorageOk (withRate n s l) ∧ SameRings (withRate n s l) a ∧ (∀ c, c < a.ch → inWord l c 0 = inWord s c m) ∧
      (u (m + 1)).Inv ∧ u (m + 1) = coreFrame n s 0 (withRate n s l) := by
  have ehw : (u m).hw = a.hw := by simpa using h.same.hw_eq
  have ech : (u m).ch = a.ch := by simpa using congrArg State.ch h.same.registers
  have hload := columnLoaded_loadColumn s m h.inv (by rw [ehw, ech]; exact ha.ch_le)
  generalize loadColumn s m (u m) = l at hload hu
  have hsame : SameRings (withRate n s l) a := (hload.same.lfoSetRate _).trans h.same
  have hfixed : withoutFrame (withRate n s l) = withoutFrame (withRate n s s) :=
    (withoutFrame_of_withoutStorage hsame.registers).trans h.fixed
  have hlconf : l.configured = true := by
    have econf : l.configured = s.configured := by simpa using congrArg State.configured hfixed
    rw [econf, hconf]
  obtain ⟨-, -, hframes, -⟩ := hload.inv.hw_legal
  rw [exec_render_accepted bus hlconf le_rfl hframes] at hu
  have hnext : renderCore 1 l = u (m + 1) := Host.Outcome.next.inj hu
  exact ⟨l, (hload.inv.storageOk hlconf).of_fields (by simp) (by simp) (by simp) (by simp) (by simp), hsame,
    fun c hc => hload.input c (ech ▸ hc), hnext ▸ inv_renderCore hload.inv hframes hlconf,
    hnext.symm.trans (renderCore_one_of_noRamp hs hr hload.inv hfixed)⟩

/-- Loading frame m's input and rendering it is frame m of the block. -/
theorem BlockRun.step (hs : s.Inv) (hconf : s.configured = true) (hr : noRamp s) (hn : n ≤ s.hw.maxFrames) (hm : m < n)
    (ha : StorageOk a) (h : BlockRun s u n m a) (hu : exec (.render 1 bus) (loadColumn s m (u m)) = .next (u (m + 1))) :
    BlockRun s u n (m + 1) (coreFrame n s m a) := by
  have ehw : a.hw = s.hw := by simpa using congrArg State.hw h.fixed
  have ech : a.ch = s.ch := by simpa using congrArg State.ch h.fixed
  have hframes : n ≤ a.hw.maxFrames := ehw ▸ hn
  have hmax : ∀ {c}, c < s.ch → c < a.hw.maxChannels := fun hc => (ech ▸ hc : _ < a.ch).trans_le ha.ch_le
  obtain ⟨l, hl, hsame, hcolumn, hinv, hnext⟩ := h.next hs hconf hr ha hu
  have hpair : SameRings (coreFrame n s 0 (withRate n s l)) (coreFrame n s m a) ∧ ∀ c, c < a.ch →
      outWord (coreFrame n s 0 (withRate n s l)) c 0 = outWord (coreFrame n s m a) c m :=
    hsame.frame hl ha _ _ _ _ _ _ (by omega) (by omega) fun c hc => by
      rw [inWord_lfoSetRate, hcolumn c hc, h.input c m (ech ▸ hc) hm]
  rw [← hnext] at hpair
  obtain ⟨hrings, hout⟩ := hpair
  have hset : withRate n s (u (m + 1)) = u (m + 1) := lfoSetRate_of_inc (by
    rw [hnext, frameStep_inc, frameStep_sr, lfoSetRate_inc, lfoSetRate_sr])
  obtain ⟨-, hin, hothers, -⟩ := frameStep_effect (center s.maxdly (readControls n s).1.delay (readControls n s).1.depth)
    (variance s.maxdly (readControls n s).1.delay (readControls n s).1.depth) (readControls n s).1.feedback
    (readControls n s).1.dryMix (readControls n s).1.wetMix s.odd90 ha (hm.trans_le hframes)
  exact
    { inv := hinv
      fixed := (frameStep_withoutFrame ..).trans h.fixed
      same := by rw [hset]; exact hrings
      rate_set := fun _ => hset
      input := fun c i hc hi => (hin c i (hmax hc) (hi.trans_le hframes)).trans (h.input c i hc hi)
      output := fun c i hc hi => by
        rcases Nat.lt_succ_iff_lt_or_eq.1 hi with hlt | rfl
        · rw [hothers c i (hmax hc) (by omega), if_neg (by omega)]
          exact h.output c i hc hlt
        · exact hout c (ech ▸ hc) }

end BlockRun

/-- Settles O60, by induction over the frames of the block: `BlockRun` holds after each of them. -/
theorem rampBlockEquivalence : Obligations.RampBlockEquivalence := by
  unfold Obligations.RampBlockEquivalence
  intro s t n bus u h hconf h2 hn hr ht h0 hu
  have hstart : (readControls n s).2 = s := readControls_state_of_noRamp h hr n
  have key : BlockRun s u n n (renderCore n s) :=
    renderCore_induct (h.storageOk hconf) hn (BlockRun s u n) (by rw [hstart]; exact .start h h0)
      fun m a hm ha _ _ _ _ _ _ hq => hq.step h hconf hr hn hm ha (hu m hm)
  rw [exec_render_accepted bus hconf (by omega) hn] at ht
  obtain rfl : renderCore n s = t := Host.Outcome.next.inj ht
  have hsame := key.same
  rw [key.rate_set (by omega)] at hsame
  exact ⟨key.output, by simpa only [renderCore_hw] using hsame.rings, hsame.cursors, hsame.registers⟩

end Sys2Proof.Machine

/-! SUPPORT. The commands one by one: what each checks, stores and leaves unchanged; the obligations on them. -/

namespace Sys2Proof.Machine

/-! ## Obligations: CONFIGURE (45_commands.md R232) -/

/-- Settles O26: `ConfigureOk` holds, so CONFIGURE leaves `configuredBy`, whose only store to memory clears the DL window. -/
theorem configureAccepted : Obligations.ConfigureAccepted := by
  unfold Obligations.ConfigureAccepted
  intro s chn md spm hpos hle hsrf hsr hmdf hmd hprod hcap
  have hok : ConfigureOk chn s := ⟨hpos, hle, ⟨hsrf, hsr⟩, ⟨hmdf, hmd⟩, hprod, hcap⟩
  exact ⟨configuredBy chn s, execConfigure_accepted hok, rfl, List.length_replicate, cursor_of_replicate rfl,
    readByte_clearRange s.mem _ _⟩

/-- Settles O27: each of the failures contradicts one check of `ConfigureOk`. -/
theorem configureRejected : Obligations.ConfigureRejected := by
  unfold Obligations.ConfigureRejected
  intro s chn md spm hbad
  refine execConfigure_rejected fun hok => ?_
  obtain h | h | h | h | h | h := hbad
  · exact h.not_ge hok.chn_pos
  · exact h.not_ge hok.chn_le
  · exact h hok.sr_ok
  · exact h hok.md_ok
  · exact Bool.false_ne_true (h.symm.trans hok.prod_finite)
  · exact h.not_ge hok.cap_le

/-! ## Obligations: SET_PARAM (45_commands.md R233, R234) -/

/-- Settles O28: SM_SET replaces the smoother of the id's parameter, and no other. -/
theorem setScalarParameter : Obligations.SetScalarParameter := by
  unfold Obligations.SetScalarParameter
  rintro s ⟨pid, k⟩ ramp hp hfin
  obtain ⟨-, hk⟩ := paramOfPid_scalar _ hp
  refine ⟨smSet k s.arg0 ramp s, (execSetp_scalar hk).trans (if_pos hfin), rfl, fun j hj => ?_, ?_⟩
  · exact (smoother_setSmoother ..).trans (if_neg hj)
  · exact (smoother_setSmoother ..).trans (if_pos rfl)

theorem argBool_eq (s : State) : argBool s = decide (s.arg0.toNat % 2 = 1) := Nat.testBit_zero _

/-- Settles O29: ids 6 and 7 select the booleans, and SET_BOOL stores bit 0 of ARG0. -/
theorem setBooleanParameter : Obligations.SetBooleanParameter := by
  unfold Obligations.SetBooleanParameter
  intro s ramp
  rw [← argBool_eq]
  exact ⟨execSetp_boolean (pid := 6) (ramp := ramp) (s := s) rfl, execSetp_boolean (pid := 7) (ramp := ramp) (s := s) rfl⟩

/-- The ids from 8 on select no parameter (30_encoding.md R104). -/
theorem paramOfPid_of_ge {pid : Nat} (h : 8 ≤ pid) : paramOfPid pid = .reserved := by
  unfold paramOfPid
  split
  case h_9 => rfl
  all_goals omega

/-- The ids below 6 select the scalar parameters (30_encoding.md R104). -/
theorem paramOfPid_of_lt {pid : Nat} (h : pid < 6) : ∃ k, paramOfPid pid = .scalar k := by
  interval_cases pid <;> exact ⟨_, rfl⟩

/-- Settles O30: a reserved id is refused outright, a scalar's where ARG0 is not finite. -/
theorem setParameterRejected : Obligations.SetParameterRejected := by
  unfold Obligations.SetParameterRejected
  rintro s pid ramp (h | ⟨h, hfin⟩)
  · exact execSetp_reserved (paramOfPid_of_ge h)
  · obtain ⟨k, hk⟩ := paramOfPid_of_lt h
    exact (execSetp_scalar hk).trans (if_neg (by rw [hfin]; decide))

/-! ## Obligations: RENDER (45_commands.md R235) -/

/-- Settles O32, by what a render changes of the registers (`renderCore_withoutRender`) and what it stores
(`renderCore_effect`). -/
theorem renderFrame : Obligations.RenderFrame := by
  unfold Obligations.RenderFrame
  intro s n bus h hconf h1 hn
  obtain ⟨-, hin, -, hbytes⟩ := renderCore_effect (h.storageOk hconf) hn
  exact ⟨renderCore n s, exec_render_accepted bus hconf h1 hn, renderCore_withoutRender n s, hbytes, hin⟩

/-- Settles O31: of the three outcomes of `execRender_cases`, each premise leaves one. -/
theorem renderRejectedOrEmpty : Obligations.RenderRejectedOrEmpty := by
  unfold Obligations.RenderRejectedOrEmpty
  intro s n bus
  constructor
  · intro hbad
    obtain ⟨-, he⟩ | ⟨rfl, -⟩ | ⟨-, hn, hconf, -⟩ := execRender_cases n s
    · exact he
    · omega
    · obtain h | ⟨-, h⟩ := hbad
      · omega
      · exact absurd (h.symm.trans hconf) Bool.false_ne_true
  · obtain ⟨hbad, -⟩ | ⟨-, he⟩ | ⟨hpos, -⟩ := execRender_cases 0 s
    · omega
    · exact he
    · omega

/-! ## Obligations: the dispatch and NOP (45_commands.md R230, R231) -/

/-- Settles O6, by the decoder's row for each opcode. -/
theorem exampleWordsDecode : Obligations.ExampleWordsDecode := by
  unfold Obligations.ExampleWordsDecode
  exact ⟨decode_eq_nop rfl, decode_eq_configure rfl, decode_eq_setp rfl, decode_eq_render rfl, decode_eq_clrerr rfl,
    decode_eq_reset rfl, decode_eq_reserved (by decide)⟩

/-- Settles O7: the address of CMD decodes to the command register, whose write is dispatched. -/
theorem stepRunsDecodedCommand : Obligations.StepRunsDecodedCommand := by
  unfold Obligations.StepRunsDecodedCommand
  intro s rest w i hbus hdec
  rw [step_command hbus, cmdDispatch, hdec]

/-- Settles O22: a word below 2^24 has opcode 0, so its step runs NOP. -/
theorem nopChangesNothing : Obligations.NopChangesNothing := by
  unfold Obligations.NopChangesNothing
  exact fun s => ⟨rfl, fun rest w hbus hw =>
    stepRunsDecodedCommand s rest w .nop hbus (decode_eq_nop (Nat.div_eq_of_lt hw))⟩

/-! ## Obligations: CLRERR and RESET (45_commands.md R236, R237) -/

/-- With no error flag set, STATUS shows CONFIGURED alone (46_host_bus.md R262). -/
theorem statusWord_of_noError {s : State} (h : noError s) : statusWord s = BitVec.ofNat 32 s.configured.toNat := by
  have hcmd : s.errCmd = false := h .cmd
  have hcfg : s.errCfg = false := h .cfg
  have hparam : s.errParam = false := h .param
  have hrender : s.errRender = false := h .render
  have hbus : s.errBus = false := h .bus
  rw [statusWord, hcmd, hcfg, hparam, hrender, hbus]
  cases s.configured <;> rfl

theorem noError_clearErrors (s : State) : noError (clearErrors s) := fun e => by cases e <;> rfl

theorem noError_resetBlock (s : State) : noError (resetBlock s) := fun e => by cases e <;> rfl

/-- Settles O23: clearing the flags leaves CONFIGURED, which STATUS then shows alone. -/
theorem clrerrClearsFlagsOnly : Obligations.ClrerrClearsFlagsOnly := by
  unfold Obligations.ClrerrClearsFlagsOnly
  exact fun s => ⟨clearErrors s, rfl, rfl, statusWord_of_noError (noError_clearErrors s)⟩

/-- Settles O24: RESET leaves `resetBlock`, the reset state of the same implementation. -/
theorem resetGivesResetValues : Obligations.ResetGivesResetValues := by
  unfold Obligations.ResetGivesResetValues
  intro s
  refine ⟨resetBlock s, rfl, rfl, rfl, rfl, rfl, rfl, rfl, rfl, rfl, readByte_nil, cursor_of_replicate rfl, rfl, rfl,
    smoother_resetWith s.hw, rfl, rfl, noError_resetBlock s, statusWord_of_noError (noError_resetBlock s), rfl, rfl, rfl,
    fun hdefault => ?_⟩
  rw [resetBlock, hdefault, State.reset]

end Sys2Proof.Machine

/-! SUPPORT. Every word the block stores to OUT and DL is the result of an operation, or a zero: its NaNs are canonical. -/

namespace Sys2Proof.Machine

/-! ## What the block stores (00_scope.md R14) -/

theorem canonical32_zero32 : canonical32 zero32 := (canonical_of_inRange (inRange_zero .rate)).2

theorem canonical32_mixOut (x d dry wet : F32) : canonical32 (mixOut x d dry wet) := add32_canonical _ _

theorem canonical32_mixWrite (x d sfb : F32) : canonical32 (mixWrite x d sfb) := add32_canonical _ _

/-- Equal memories show equal words, so equally canonical ones. -/
theorem CanonicalBuffers.congr {s t : State} (h : CanonicalBuffers s) (hhw : t.hw = s.hw) (hmem : t.mem = s.mem) :
    CanonicalBuffers t := by
  unfold CanonicalBuffers
  obtain ⟨-, hout, hdl⟩ := words_congr hhw hmem
  simpa only [hhw, hout, hdl] using h

/-! ## Each effect of a step (46_host_bus.md R260, R261) -/

/-- The host's raw word goes to IN, which lies apart from OUT and DL. -/
theorem canonicalBuffers_setIn {s : State} (h : s.Inv) (hb : CanonicalBuffers s) {c i : Nat} (hc : c < s.hw.maxChannels)
    (hi : i < s.hw.maxFrames) (v : Word) : CanonicalBuffers (setIn c i v s) := by
  obtain ⟨hout, hdl⟩ := hb
  constructor
  · intro c' i' hc' hi'
    rw [outWord_setIn h.hw_legal h.mem_wf hc hi hc' hi']
    exact hout c' i' hc' hi'
  · intro c' j hc' hj
    rw [dlWord_setIn h.hw_legal h.mem_wf hc hi hc' hj]
    exact hdl c' j hc' hj

theorem canonicalBuffers_configuredBy {s : State} (h : s.Inv) (hb : CanonicalBuffers s) (chn : Nat) :
    CanonicalBuffers (configuredBy chn s) := by
  obtain ⟨-, hout, hdl⟩ := applyConfig_words h.hw_legal
  constructor
  · intro c i hc hi
    rw [hout c i hc hi]
    exact hb.1 c i hc hi
  · intro c j hc hj
    rw [hdl c j hc hj]
    exact canonical32_zero32

/-- A frame replaces words of OUT by mixer outputs and words of DL by mixer feedback, whatever its inputs. -/
theorem canonicalBuffers_frameStep {s : State} (hs : StorageOk s) (hb : CanonicalBuffers s) {i : Nat}
    (hi : i < s.hw.maxFrames) (ctr var fb dry wet : F32) (odd : Bool) :
    CanonicalBuffers (frameStep ctr var fb dry wet odd i s) := by
  obtain ⟨-, -, hout, hdl, -⟩ := frameStep_effect ctr var fb dry wet odd hs hi
  unfold CanonicalBuffers
  rw [frameStep_hw]
  constructor
  · intro c i' hc hi'
    rw [hout c i' hc hi']
    split
    · exact canonical32_mixOut _ _ _ _
    · exact hb.1 c i' hc hi'
  · intro c j hc hj
    rw [hdl c j hc hj]
    split
    · exact canonical32_mixWrite _ _ _
    · exact hb.2 c j hc hj

theorem canonicalBuffers_renderCore {s : State} (hs : StorageOk s) (hb : CanonicalBuffers s) {n : Nat}
    (hn : n ≤ s.hw.maxFrames) : CanonicalBuffers (renderCore n s) := by
  refine renderCore_induct hs hn (fun _ => CanonicalBuffers) (hb.congr (by simp) (by simp)) ?_
  intro m t hm ht hhw _ _ _ _ _ hbt
  exact canonicalBuffers_frameStep ht hbt (by rw [hhw]; exact hm.trans_le hn) ..

/-- RESET zeroes every buffer, whatever it held. -/
theorem canonicalBuffers_resetBlock (s : State) : CanonicalBuffers (resetBlock s) := by
  constructor
  · intro c i _ _
    rw [show outWord (resetBlock s) c i = zero32 from readWord_nil _]
    exact canonical32_zero32
  · intro c j _ _
    rw [show dlWord (resetBlock s) c j = zero32 from readWord_nil _]
    exact canonical32_zero32

/-- Every command keeps the NaNs of OUT and DL canonical. -/
theorem CommandEffect.canonicalBuffers {w : Word} {s t : State} (heff : CommandEffect w s t) (h : s.Inv)
    (hb : CanonicalBuffers s) : CanonicalBuffers t := by
  cases heff with
  | nothing => exact hb
  | error e => exact hb.congr (raiseError_hw ..) (raiseError_mem ..)
  | configure => exact canonicalBuffers_configuredBy h hb _
  | setBoolean b v => exact hb.congr (setBool_hw ..) (setBool_mem ..)
  | setScalar => exact hb.congr rfl rfl
  | render _ hn hc => exact canonicalBuffers_renderCore (h.storageOk hc) hb hn
  | clear => exact hb.congr rfl rfl
  | reset => exact canonicalBuffers_resetBlock s

/-- Settles O53, by cases on the step's effect: only a command and a write to IN touch the memory. -/
theorem stepKeepsBuffersCanonical : Obligations.StepKeepsBuffersCanonical := by
  unfold Obligations.StepKeepsBuffersCanonical
  intro s t h hb hstep
  cases step_effect hstep with
  | @writeIn c i v rest hc hi => exact canonicalBuffers_setIn (h.withBus rest) (hb.congr rfl rfl) hc hi v
  | command hbus heff => exact heff.canonicalBuffers (h.withBus _) (hb.congr rfl rfl)
  | _ => exact hb.congr rfl rfl

end Sys2Proof.Machine

/-! SUPPORT. Every transaction completes: what it answers is a next state, of the same implementation, with the same
transactions still to come (60_exceptions.md R280, 70_reset_and_hazards.md R322). -/

namespace Sys2Proof.Machine

/-- No command touches the implementation parameters or the pending transactions. -/
theorem CommandEffect.keeps_hw_bus {w : Word} {s t : State} (heff : CommandEffect w s t) :
    t.hw = s.hw ∧ t.bus = s.bus := by
  cases heff with
  | error e => exact ⟨raiseError_hw e s, raiseError_bus e s⟩
  | setBoolean b v => exact ⟨setBool_hw b v s, setBool_bus b v s⟩
  | render => exact ⟨renderCore_hw _ s, renderCore_bus _ s⟩
  | nothing | configure | setScalar | clear | reset => exact ⟨rfl, rfl⟩

/-- HOST_WRITE completes: its target is CMD, whose every word has an effect, or a store or an error follows
(46_host_bus.md R261). -/
theorem hostWrite_completes (a v : Word) (s : State) :
    ∃ t, hostWrite a v s = .next t ∧ t.hw = s.hw ∧ t.bus = s.bus := by
  obtain ⟨-, hw⟩ | ⟨-, hw⟩ | ⟨-, hw⟩ | ⟨c, i, -, -, hw⟩ | hw := hostWrite_cases a v s
  · obtain ⟨t, ht, heff⟩ := cmdDispatch_effect v s
    exact ⟨t, hw.trans ht, heff.keeps_hw_bus⟩
  · exact ⟨_, hw, rfl, rfl⟩
  · exact ⟨_, hw, rfl, rfl⟩
  · exact ⟨_, hw, setIn_hw c i v s, setIn_bus c i v s⟩
  · exact ⟨_, hw, raiseError_hw .bus s, raiseError_bus .bus s⟩

/-- HOST_READ touches neither the implementation parameters nor the pending transactions (46_host_bus.md R260). -/
theorem hostRead_keeps_hw_bus (a : Word) (s : State) : (hostRead a s).2.hw = s.hw ∧ (hostRead a s).2.bus = s.bus := by
  obtain hr | hr := hostRead_shape a s
  · rw [hr]
    exact ⟨rfl, rfl⟩
  · rw [hr]
    exact ⟨raiseError_hw .bus s, raiseError_bus .bus s⟩

theorem transact_completes (txn : Txn) (s : State) : ∃ t, transact txn s = .next t ∧ t.hw = s.hw ∧ t.bus = s.bus := by
  cases txn with
  | read a => exact ⟨_, rfl, hostRead_keeps_hw_bus a s⟩
  | write a v => exact hostWrite_completes a v s

/-! ## Obligation: every step completes (60_exceptions.md R280) -/

/-- Settles O9: the step idles, or performs the oldest transaction, which completes. -/
theorem everyStepCompletes : Obligations.EveryStepCompletes := by
  unfold Obligations.EveryStepCompletes
  intro s
  cases hbus : s.bus with
  | nil => exact ⟨s, step_idle hbus, hbus, rfl, by simp, fun _ => rfl⟩
  | cons txn rest =>
    obtain ⟨t, ht, hthw, htbus⟩ := transact_completes txn { s with bus := rest }
    refine ⟨t, (step_cons hbus).trans ht, htbus, hthw, ?_, by simp⟩
    rintro _ _ ⟨⟩
    exact ht

end Sys2Proof.Machine

/-! SUPPORT. The state after power-on (70_reset_and_hazards.md R300, R301). -/

namespace Sys2Proof.Machine

/-! ## Obligation: the power-on state (70_reset_and_hazards.md R301) -/

/-- Settles O25: the bytes, the cursors and the smoothers by the lemmas on reset, the flags and STATUS by O50; what is
left are fields of `State.reset`. -/
theorem powerOnState : Obligations.PowerOnState := by
  unfold Obligations.PowerOnState
  obtain ⟨-, -, hflags, hstatus⟩ := resetMeetsInvariant
  exact ⟨rfl, rfl, rfl, rfl, rfl, rfl, rfl, rfl, readByte_nil, cursor_of_replicate rfl, rfl, rfl,
    smoother_resetWith Params.default, rfl, rfl, hflags, hstatus, rfl, rfl⟩

end Sys2Proof.Machine
